-- ==== Sys2Proof/Word.lean ====
section
/-! DEFINITION. The word types of DQPP and the small closed types its commands name.
Widths follow spec/00_scope.md R8 and spec/10_state.md. -/

namespace Sys2Proof

/-- A 32-bit register, command word or argument word (10 R22 to R40, 30 R90). -/
abbrev Word := BitVec 32
/-- A coefficient, level or sample, `s16` (10 R21). -/
abbrev Coef := BitVec 16
/-- A byte of the bitstream buffer, or a weight (10 R42, R45). -/
abbrev Byte := BitVec 8
/-- The number of a block buffer, 0..15 (10 R21). -/
abbrev BlkIx := Fin 16
/-- The number of a block inside a macroblock, 0..5 (00 R13). -/
abbrev MbBlk := Fin 6
/-- The number of a sub-block, 0..3 (30 R97). -/
abbrev SubIx := Fin 4

/-- The role of a block (00 R13). -/
inductive Role where
  | luma
  | chroma
  deriving DecidableEq, Repr

/-- The mode bit `M` of CBPCALC (30 R96). -/
inductive CbpMode where
  | inter
  | intra
  deriving DecidableEq, Repr

/-- The six causes of a command fault (60 R212). Each is recorded in FAULT_CODE. -/
inductive FaultCode where
  /-- Code 1: `cmd[31:26]` is unassigned. -/
  | illegalOpcode
  /-- Code 2: a reserved bit of the format is 1. -/
  | reservedField
  /-- Code 3: an illegal operand value (QDELTA, PUTBITS, MBBEGIN). -/
  | badOperand
  /-- Code 4: GRIDOK = 0. -/
  | noGrid
  /-- Code 5: a bitstream write while BSFIN = 1. -/
  | bsFinished
  /-- Code 6: the write would pass BS_CAP. -/
  | bsOverflow
  deriving DecidableEq, Repr

/-- A motion vector (10 R44). -/
structure MV where
  x : Coef
  y : Coef
  deriving DecidableEq, Repr

/-- The prediction direction of a block; the encoding 3 is never written (10 R33). -/
inductive Dir where
  | none
  | vert
  | horz
  deriving DecidableEq, Repr

end Sys2Proof
end

