-- ==== Sys2Proof/Syntax.lean ====
section
/-! DEFINITION. The commands of DQPP, one constructor for each row of spec/opcode_table.json (30 R100). -/

namespace Sys2Proof

/-- A decoded command. `irq` is bit `I` (30 R91). `arg` is the argument word of a command that ignores
it: it stays in the command because FAULT_ARG records it (60 R211). The operands are assembled as
30 R103 says, and no field is dropped, so a command and its two words determine each other. -/
inductive Instr where
  /-- 44 R200 -/
  | nop (irq : Bool) (arg : Word)
  /-- 44 R201 -/
  | framebegin (irq : Bool) (arg : Word)
  /-- 44 R202: position (x, y) from the argument word -/
  | mbbegin (irq : Bool) (x y : BitVec 16)
  /-- 40 R113 -/
  | bsreset (irq : Bool) (arg : Word)
  /-- 40 R114: bit count `nb`, value from the argument word -/
  | putbits (irq : Bool) (nb : BitVec 6) (value : Word)
  /-- 40 R115 -/
  | putzero (irq : Bool) (nz : BitVec 8) (arg : Word)
  /-- 40 R116 -/
  | padbyte (irq : Bool) (arg : Word)
  /-- 40 R117 -/
  | finish (irq : Bool) (arg : Word)
  /-- 41 R136 -/
  | qset (irq : Bool) (v : BitVec 5) (arg : Word)
  /-- 41 R137: `dq` is the signed 3-bit delta -/
  | qdelta (irq : Bool) (dq : BitVec 3) (arg : Word)
  /-- 41 R138 -/
  | qnext (irq : Bool) (arg : Word)
  /-- 41 R134 -/
  | qintra (irq : Bool) (d src : BlkIx) (role : Role) (arg : Word)
  /-- 41 R135 -/
  | qinter (irq : Bool) (d src : BlkIx) (arg : Word)
  /-- 41 R140 -/
  | dqintra (irq : Bool) (d src : BlkIx) (role : Role) (arg : Word)
  /-- 41 R141 -/
  | dqinter (irq : Bool) (d src : BlkIx) (arg : Word)
  /-- 41 R139 -/
  | cbpcalc (irq : Bool) (mode : CbpMode) (arg : Word)
  /-- 42 R162 -/
  | fdct (irq : Bool) (d src : BlkIx) (arg : Word)
  /-- 42 R163 -/
  | idct (irq : Bool) (d src : BlkIx) (arg : Word)
  /-- 42 R164 -/
  | copy (irq : Bool) (d src : BlkIx) (arg : Word)
  /-- 43 R176 -/
  | acdcpred (irq : Bool) (arg : Word)
  /-- 43 R180: the vector (x, y) from the argument word -/
  | mvset (irq : Bool) (k : SubIx) (x y : BitVec 16)
  /-- 43 R181: the vector (x, y) from the argument word -/
  | mvset4 (irq : Bool) (x y : BitVec 16)
  /-- 43 R182 -/
  | mvpred (irq : Bool) (k : SubIx) (arg : Word)
  deriving DecidableEq, Repr

end Sys2Proof
end

