-- ==== Sys2Proof/Decode.lean ====
section
/-! DEFINITION. Decoding a command from its two words, and encoding it back (spec/30_encoding.md).
The decoder is total: it answers a command, or the name of the decode fault of 30 R99. -/

namespace Sys2Proof

/-- The rows of the opcode table (30 R100). -/
inductive Mnemonic where
  | nop | framebegin | mbbegin
  | bsreset | putbits | putzero | padbyte | finish
  | qset | qdelta | qnext | qintra | qinter | dqintra | dqinter | cbpcalc
  | fdct | idct | copy
  | acdcpred | mvset | mvset4 | mvpred
  deriving DecidableEq, Repr

/-- The command formats (30 R92 to R98). `bbc` is `BB` with the role field `C`. -/
inductive Fmt where
  | n | bb | bbc | q5 | qd | m | k | p | z | mb
  deriving DecidableEq, Repr

/-- The reserved bits of a format's command word (30 R101). -/
def Fmt.reserved : Fmt → Word
  | .n => 0x01FFFFFF
  | .mb => 0x01FFFFFF
  | .bb => 0x01FFFF00
  | .bbc => 0x01FFFE00
  | .q5 => 0x01FFFFE0
  | .qd => 0x01FFFFF8
  | .m => 0x01FFFFFE
  | .k => 0x01FFFFFC
  | .p => 0x01FFFFC0
  | .z => 0x01FFFF00

/-- The opcode column of 30 R100. -/
def Mnemonic.opcode : Mnemonic → BitVec 6
  | .nop => 0x00
  | .framebegin => 0x01
  | .mbbegin => 0x02
  | .bsreset => 0x04
  | .putbits => 0x05
  | .putzero => 0x06
  | .padbyte => 0x07
  | .finish => 0x08
  | .qset => 0x10
  | .qdelta => 0x11
  | .qnext => 0x12
  | .qintra => 0x13
  | .qinter => 0x14
  | .dqintra => 0x15
  | .dqinter => 0x16
  | .cbpcalc => 0x17
  | .fdct => 0x20
  | .idct => 0x21
  | .copy => 0x22
  | .acdcpred => 0x30
  | .mvset => 0x31
  | .mvset4 => 0x32
  | .mvpred => 0x33

/-- The format column of 30 R100. -/
def Mnemonic.fmt : Mnemonic → Fmt
  | .nop => .n
  | .framebegin => .n
  | .mbbegin => .mb
  | .bsreset => .n
  | .putbits => .p
  | .putzero => .z
  | .padbyte => .n
  | .finish => .n
  | .qset => .q5
  | .qdelta => .qd
  | .qnext => .n
  | .qintra => .bbc
  | .qinter => .bb
  | .dqintra => .bbc
  | .dqinter => .bb
  | .cbpcalc => .m
  | .fdct => .bb
  | .idct => .bb
  | .copy => .bb
  | .acdcpred => .n
  | .mvset => .k
  | .mvset4 => .n
  | .mvpred => .k

/-- The rows of the table in the order of 30 R100. -/
def Mnemonic.all : List Mnemonic :=
  [.nop, .framebegin, .mbbegin, .bsreset, .putbits, .putzero, .padbyte, .finish,
   .qset, .qdelta, .qnext, .qintra, .qinter, .dqintra, .dqinter, .cbpcalc,
   .fdct, .idct, .copy, .acdcpred, .mvset, .mvset4, .mvpred]

/-- The row of an opcode, or none when it is unassigned (30 R100). -/
def Mnemonic.ofOpcode (op : BitVec 6) : Option Mnemonic :=
  Mnemonic.all.find? (fun m => decide (m.opcode = op))

/-- `match` of a row: the opcode in its place (30 R101). -/
def Mnemonic.matchBits (m : Mnemonic) : Word := m.opcode ++ (0 : BitVec 26)

/-- `mask` of a row: the opcode bits and the format's reserved bits (30 R101). -/
def Mnemonic.maskBits (m : Mnemonic) : Word := 0xFC000000 ||| m.fmt.reserved

/-- `OP = cmd[31:26]` (30 R91). -/
def opField (cmd : Word) : BitVec 6 := cmd.extractLsb' 26 6
/-- Bit `I` (30 R91). -/
def irqField (cmd : Word) : Bool := cmd.getLsbD 25
/-- `S = cmd[3:0]` (30 R93). -/
def srcField (cmd : Word) : BlkIx := (cmd.extractLsb' 0 4).toFin
/-- `D = cmd[7:4]` (30 R93). -/
def dstField (cmd : Word) : BlkIx := (cmd.extractLsb' 4 4).toFin
/-- `C = cmd[8]`: 0 is luma and 1 is chroma (30 R93). -/
def roleField (cmd : Word) : Role := if cmd.getLsbD 8 then .chroma else .luma
/-- `V = cmd[4:0]` (30 R94). -/
def vField (cmd : Word) : BitVec 5 := cmd.extractLsb' 0 5
/-- `DQ = cmd[2:0]` (30 R95). -/
def dqField (cmd : Word) : BitVec 3 := cmd.extractLsb' 0 3
/-- `M = cmd[0]`: 1 is intra and 0 is inter (30 R96). -/
def modeField (cmd : Word) : CbpMode := if cmd.getLsbD 0 then .intra else .inter
/-- `K = cmd[1:0]` (30 R97). -/
def kField (cmd : Word) : SubIx := (cmd.extractLsb' 0 2).toFin
/-- `NB = cmd[5:0]` (30 R98). -/
def nbField (cmd : Word) : BitVec 6 := cmd.extractLsb' 0 6
/-- `NZ = cmd[7:0]` (30 R98). -/
def nzField (cmd : Word) : BitVec 8 := cmd.extractLsb' 0 8
/-- `arg[15:0]`, the x of a vector or of a position (30 R103). -/
def xField (arg : Word) : BitVec 16 := arg.extractLsb' 0 16
/-- `arg[31:16]`, the y of a vector or of a position (30 R103). -/
def yField (arg : Word) : BitVec 16 := arg.extractLsb' 16 16

/-- A row's command, its operands read from the two words (30 R92 to R98, R103). -/
def Mnemonic.build (cmd arg : Word) : Mnemonic → Instr
  | .nop => .nop (irqField cmd) arg
  | .framebegin => .framebegin (irqField cmd) arg
  | .mbbegin => .mbbegin (irqField cmd) (xField arg) (yField arg)
  | .bsreset => .bsreset (irqField cmd) arg
  | .putbits => .putbits (irqField cmd) (nbField cmd) arg
  | .putzero => .putzero (irqField cmd) (nzField cmd) arg
  | .padbyte => .padbyte (irqField cmd) arg
  | .finish => .finish (irqField cmd) arg
  | .qset => .qset (irqField cmd) (vField cmd) arg
  | .qdelta => .qdelta (irqField cmd) (dqField cmd) arg
  | .qnext => .qnext (irqField cmd) arg
  | .qintra => .qintra (irqField cmd) (dstField cmd) (srcField cmd) (roleField cmd) arg
  | .qinter => .qinter (irqField cmd) (dstField cmd) (srcField cmd) arg
  | .dqintra => .dqintra (irqField cmd) (dstField cmd) (srcField cmd) (roleField cmd) arg
  | .dqinter => .dqinter (irqField cmd) (dstField cmd) (srcField cmd) arg
  | .cbpcalc => .cbpcalc (irqField cmd) (modeField cmd) arg
  | .fdct => .fdct (irqField cmd) (dstField cmd) (srcField cmd) arg
  | .idct => .idct (irqField cmd) (dstField cmd) (srcField cmd) arg
  | .copy => .copy (irqField cmd) (dstField cmd) (srcField cmd) arg
  | .acdcpred => .acdcpred (irqField cmd) arg
  | .mvset => .mvset (irqField cmd) (kField cmd) (xField arg) (yField arg)
  | .mvset4 => .mvset4 (irqField cmd) (xField arg) (yField arg)
  | .mvpred => .mvpred (irqField cmd) (kField cmd) arg

/-- Steps 1 and 2 of 30 R99. Step 3, the operand-field check, is the first check of the two meanings
it concerns (40 R114, 41 R137), so that the faults come in the order of 60 R213. -/
def decode (cmd arg : Word) : Except FaultCode Instr :=
  match Mnemonic.ofOpcode (opField cmd) with
  | none => .error .illegalOpcode
  | some m => if cmd &&& m.fmt.reserved = 0 then .ok (m.build cmd arg) else .error .reservedField

/-- The host's reading of one table word: bits 31..0 are the command word and bits 63..32 the argument
word; every bit at or above `nbits` is 0. -/
def decodeTableWord (nbits w : Nat) : Option Instr :=
  match decode (BitVec.ofNat 32 (w % 2 ^ nbits)) (BitVec.ofNat 32 (w % 2 ^ nbits / 2 ^ 32)) with
  | .ok i => some i
  | .error _ => none

/-! ### The encoder -/

/-- The table row of a command. -/
def Instr.mnemonic : Instr → Mnemonic
  | .nop _ _ => .nop
  | .framebegin _ _ => .framebegin
  | .mbbegin _ _ _ => .mbbegin
  | .bsreset _ _ => .bsreset
  | .putbits _ _ _ => .putbits
  | .putzero _ _ _ => .putzero
  | .padbyte _ _ => .padbyte
  | .finish _ _ => .finish
  | .qset _ _ _ => .qset
  | .qdelta _ _ _ => .qdelta
  | .qnext _ _ => .qnext
  | .qintra _ _ _ _ _ => .qintra
  | .qinter _ _ _ _ => .qinter
  | .dqintra _ _ _ _ _ => .dqintra
  | .dqinter _ _ _ _ => .dqinter
  | .cbpcalc _ _ _ => .cbpcalc
  | .fdct _ _ _ _ => .fdct
  | .idct _ _ _ _ => .idct
  | .copy _ _ _ _ => .copy
  | .acdcpred _ _ => .acdcpred
  | .mvset _ _ _ _ => .mvset
  | .mvset4 _ _ _ => .mvset4
  | .mvpred _ _ _ => .mvpred

/-- Bit `I` of a command. -/
def Instr.irq : Instr → Bool
  | .nop i _ => i
  | .framebegin i _ => i
  | .mbbegin i _ _ => i
  | .bsreset i _ => i
  | .putbits i _ _ => i
  | .putzero i _ _ => i
  | .padbyte i _ => i
  | .finish i _ => i
  | .qset i _ _ => i
  | .qdelta i _ _ => i
  | .qnext i _ => i
  | .qintra i _ _ _ _ => i
  | .qinter i _ _ _ => i
  | .dqintra i _ _ _ _ => i
  | .dqinter i _ _ _ => i
  | .cbpcalc i _ _ => i
  | .fdct i _ _ _ => i
  | .idct i _ _ _ => i
  | .copy i _ _ _ => i
  | .acdcpred i _ => i
  | .mvset i _ _ _ => i
  | .mvset4 i _ _ => i
  | .mvpred i _ _ => i

/-- The operand bits of format `BB`: D in bits 7..4, S in bits 3..0 (30 R93). -/
def bbBits (d src : BlkIx) : BitVec 25 := BitVec.ofNat 25 (16 * d.val + src.val)

/-- The role bit `C` in bit 8 (30 R93). -/
def roleBit : Role → BitVec 25
  | .luma => 0
  | .chroma => 0x100

/-- `cmd[24:0]` of a command, the reserved bits 0 (30 R92 to R98). -/
def Instr.operandBits : Instr → BitVec 25
  | .nop _ _ => 0
  | .framebegin _ _ => 0
  | .mbbegin _ _ _ => 0
  | .bsreset _ _ => 0
  | .putbits _ nb _ => nb.setWidth 25
  | .putzero _ nz _ => nz.setWidth 25
  | .padbyte _ _ => 0
  | .finish _ _ => 0
  | .qset _ v _ => v.setWidth 25
  | .qdelta _ dq _ => dq.setWidth 25
  | .qnext _ _ => 0
  | .qintra _ d s r _ => roleBit r + bbBits d s
  | .qinter _ d s _ => bbBits d s
  | .dqintra _ d s r _ => roleBit r + bbBits d s
  | .dqinter _ d s _ => bbBits d s
  | .cbpcalc _ m _ => match m with
    | .inter => 0
    | .intra => 1
  | .fdct _ d s _ => bbBits d s
  | .idct _ d s _ => bbBits d s
  | .copy _ d s _ => bbBits d s
  | .acdcpred _ _ => 0
  | .mvset _ k _ _ => BitVec.ofNat 25 k.val
  | .mvset4 _ _ _ => 0
  | .mvpred _ k _ => BitVec.ofNat 25 k.val

/-- The command word: OP, I and the operand bits (30 R91). -/
def Instr.cmdWord (i : Instr) : Word := i.mnemonic.opcode ++ BitVec.ofBool i.irq ++ i.operandBits

/-- The argument word (30 R97, R98, R103). -/
def Instr.argWord : Instr → Word
  | .nop _ a => a
  | .framebegin _ a => a
  | .mbbegin _ x y => y ++ x
  | .bsreset _ a => a
  | .putbits _ _ v => v
  | .putzero _ _ a => a
  | .padbyte _ a => a
  | .finish _ a => a
  | .qset _ _ a => a
  | .qdelta _ _ a => a
  | .qnext _ a => a
  | .qintra _ _ _ _ a => a
  | .qinter _ _ _ a => a
  | .dqintra _ _ _ _ a => a
  | .dqinter _ _ _ a => a
  | .cbpcalc _ _ a => a
  | .fdct _ _ _ a => a
  | .idct _ _ _ a => a
  | .copy _ _ _ a => a
  | .acdcpred _ a => a
  | .mvset _ _ x y => y ++ x
  | .mvset4 _ x y => y ++ x
  | .mvpred _ _ a => a

/-- The two words of a command, command word first (30 R90). -/
def encode (i : Instr) : Word × Word := (i.cmdWord, i.argWord)

end Sys2Proof
end

