-- ==== Sys2Proof/Config.lean ====
section
/-! DEFINITION. The build parameters of spec/00_scope.md R6 that a model takes as arguments,
and the ranges the spec allows them. Their reference values stand in Machine/Reference.lean. -/

namespace Sys2Proof

/-- The parameters of 00 R6. `dcLuma` and `dcChroma` are DC_SCALER written as tables: entry q - 1
is the scaler of quantizer q (41 R132). No step changes a configuration (10 R46). -/
structure Config where
  cmdqDepth : Nat
  maxMb : Nat
  bsCap : Nat
  qladder : List Nat
  dcLuma : List Nat
  dcChroma : List Nat
  mvpSingle : Bool
  deriving DecidableEq, Repr

/-- A DC_SCALER table is defined for q in 1..31, non-decreasing, with values in 8..46 (41 R132). -/
abbrev Config.LegalDc (t : List Nat) : Prop :=
  t.length = 31 ∧ (∀ v ∈ t, 8 ≤ v ∧ v ≤ 46) ∧ t.Pairwise (· ≤ ·)

/-- The ladder is strictly increasing in 1..31 and its last entry is 31 (41 R131). -/
abbrev Config.LegalLadder (l : List Nat) : Prop :=
  l.Pairwise (· < ·) ∧ (∀ v ∈ l, 1 ≤ v ∧ v ≤ 31) ∧ l.getLast? = some 31

/-- The ranges of 00 R6 and of spec/93, section 2. -/
abbrev Config.Legal (c : Config) : Prop :=
  (1 ≤ c.cmdqDepth ∧ c.cmdqDepth ≤ 255) ∧
  (1 ≤ c.maxMb ∧ c.maxMb ≤ 8192) ∧
  (4 ≤ c.bsCap ∧ c.bsCap ≤ 4194304 ∧ c.bsCap % 4 = 0) ∧
  Config.LegalLadder c.qladder ∧ Config.LegalDc c.dcLuma ∧ Config.LegalDc c.dcChroma

end Sys2Proof
end

