-- ==== Sys2Proof/Machine/Reference.lean ====
section
/-! DEFINITION. The reference configuration of spec/00_scope.md R7: every parameter at its reference value. -/

namespace Sys2Proof

/-- The luma column of 41 R132, for q in 1..31. -/
def dcLumaRef (q : Nat) : Nat :=
  if q ≤ 4 then 8 else if q ≤ 8 then 2 * q else if q ≤ 24 then q + 8 else 2 * q - 16

/-- The chroma column of 41 R132, for q in 1..31. -/
def dcChromaRef (q : Nat) : Nat :=
  if q ≤ 4 then 8 else if q ≤ 24 then (q + 13) / 2 else q - 6

/-- QLADDER_REF (41 R131). -/
def qladderRef : List Nat :=
  [1, 2, 3, 4, 5, 6, 7, 8, 10, 12, 14, 16, 18, 20, 22, 24, 28, 31]

/-- The reference values of 00 R6, 41 R131, 41 R132 and 43 R184. -/
def Config.reference : Config where
  cmdqDepth := 16
  maxMb := 8192
  bsCap := 4194304
  qladder := qladderRef
  dcLuma := (List.range 31).map (fun i => dcLumaRef (i + 1))
  dcChroma := (List.range 31).map (fun i => dcChromaRef (i + 1))
  mvpSingle := false

end Sys2Proof
end

