-- ==== Sys2Proof/Machine/State.lean ====
section
/-! DEFINITION. The state of DQPP as plain data (spec/10_state.md), the reasons a step can stop, and the
state after reset (10 R47). Each storage stands once; registers that are views of it are computed in
Machine/Mmio.lean. -/

namespace Sys2Proof.Machine

/-- A block buffer: 64 coefficients in the order of 00 R12. -/
abbrev Block := Vector Coef 64

/-- A byte memory: the bytes that differ from what an unlisted address reads as, by rising address
(log 3). -/
abbrev Memory := List Host.Cell

/-- The saved prediction data of one block: `hdc`, `hrow[1..7]` and `hcol[1..7]` (10 R43). Entry t - 1
of `row` and of `col` is index t of the spec. -/
structure HistBlock where
  dc : Coef
  row : Vector Coef 7
  col : Vector Coef 7
  deriving DecidableEq, Repr

/-- An entry of the prediction history (10 R43). -/
structure HistEntry where
  valid : Bool
  hq : BitVec 5
  blocks : Vector HistBlock 6
  deriving DecidableEq, Repr

/-- What an unlisted history entry holds: not valid (10 R47), and the values log 4 names. -/
def HistEntry.dflt : HistEntry :=
  ⟨false, 1, Vector.replicate 6 ⟨0, Vector.replicate 7 0, Vector.replicate 7 0⟩⟩

/-- The motion vector (0, 0), which every entry of the vector memory holds after reset (10 R44). -/
def mvZero : MV := ⟨0, 0⟩

/-- The grid and the current macroblock (10 R28, R29). -/
structure Grid where
  mbw : BitVec 16
  mbh : BitVec 16
  mbx : BitVec 16
  mby : BitVec 16
  ok : Bool
  deriving DecidableEq, Repr

/-- The per-macroblock flags (10 R30 to R34). -/
structure MbFlags where
  sat : Bool
  acpred : Bool
  cbp : BitVec 6
  pdir : Vector Dir 6
  acdir : Vector Dir 6
  qsum : Word
  deriving DecidableEq, Repr

/-- The flags as MBBEGIN and reset leave them (44 R202, 10 R47). -/
def MbFlags.clear : MbFlags :=
  ⟨false, false, 0, Vector.replicate 6 .none, Vector.replicate 6 .none, 0⟩

/-- The result registers of MVPRED (10 R35). -/
structure MvOut where
  mvp : MV
  mvdX : Word
  mvdY : Word
  deriving DecidableEq, Repr

/-- The bitstream: the buffer BS, the cursor BSPOS, the accumulator ACC with its count ACCN, and BSFIN
(10 R36, R45). -/
structure Stream where
  bs : Memory
  bspos : Nat
  acc : BitVec 64
  accn : Nat
  bsfin : Bool
  deriving DecidableEq, Repr

/-- HALTED and the fault record (10 R26, R38). FAULT_CODE 0 is `none` (60 R212). -/
structure FaultRec where
  halted : Bool
  code : Option FaultCode
  cmd : Word
  arg : Word
  deriving DecidableEq, Repr

/-- No fault recorded, not halted (10 R47, 60 R215). -/
def FaultRec.clear : FaultRec := ⟨false, none, 0, 0⟩

/-- A queued command (10 R40). -/
structure Cmd where
  cmd : Word
  arg : Word
  deriving DecidableEq, Repr

/-- The size of a host access in bytes: 1, 2, 4 or 8 (20 R62). -/
inductive AccessSize where
  | b1 | b2 | b4 | b8
  deriving DecidableEq, Repr

/-- One action of the outside world on the block: an MMIO read or write at a byte offset from BASE
(20 R60), or the reset input (70 R240). -/
inductive HostAction where
  | read (off : BitVec 24) (size : AccessSize)
  | write (off : BitVec 24) (size : AccessSize) (v : Word)
  | reset
  deriving DecidableEq, Repr

/-- The answer of the host port to an access: the data of a read, or the end of a write. -/
inductive Reply where
  | data (v : Word)
  | written
  deriving DecidableEq, Repr

/-- The two agents (10 R20). -/
inductive Agent where
  | engine
  | host
  deriving DecidableEq, Repr

/-- The contents a reset leaves where the spec calls them unspecified (70 R240). Cells not listed hold
the values of logs 2 to 4. `blk` lists (64 b + i, value), `bs` (k, byte), `hist` (m, entry). -/
structure ResetDraw where
  blk : List (Nat × Coef)
  bs : List (Nat × Byte)
  hist : List (Nat × HistEntry)
  deriving DecidableEq, Repr

/-- The model's own record of the host side (logs 5, 6, 7): what the host will do, what it has been
answered, which agent goes when both can, and what the next resets leave. -/
structure HostPort where
  agenda : List HostAction
  replies : List Reply
  sched : List Agent
  draws : List ResetDraw
  deriving DecidableEq, Repr

/-- Nothing to do, nothing answered, no choice and no draw named. -/
def HostPort.idle : HostPort := ⟨[], [], [], []⟩

/-- The state of the block. `hist` maps a macroblock index to its entry and `mvmem` maps 4 m + k to a
vector; both are sparse lists in the same canonical form as a Memory. -/
structure State where
  cfg : Config
  blk : Vector Block 16
  wi : Vector Byte 64
  wp : Vector Byte 64
  q : BitVec 5
  grid : Grid
  flags : MbFlags
  mvout : MvOut
  strm : Stream
  irqEn : BitVec 4
  irqPend : BitVec 4
  flt : FaultRec
  arg : Word
  cq : List Cmd
  hist : List (Nat × HistEntry)
  mvmem : List (Nat × MV)
  host : HostPort
  deriving DecidableEq, Repr

/-- Why the model stops. The six faults of a command are no stop: they are next states (60 R211). -/
inductive Fault where
  /-- Raised by `step` when the host issues an access that is not a 32-bit access at a multiple of 4.
  The spec has the model treat it as a host-side fault (20 R62). Safe: the hardware answers with a bus
  error and goes on. -/
  | busError (off : BitVec 24) (size : AccessSize)
  deriving DecidableEq, Repr

/-- Why a command has no meaning. -/
inductive Refusal where
  /-- Raised by a refused arm of `exec` only. Safe: nothing is claimed of the command. -/
  | notModelled (mnemonic : String)
  deriving DecidableEq, Repr

/-- Every field at its reset value (10 R47) under a configuration, the unspecified contents as logs 2 to
4 name them and the host side idle. -/
def State.resetOf (cfg : Config) : State where
  cfg := cfg
  blk := Vector.replicate 16 (Vector.replicate 64 0)
  wi := Vector.replicate 64 16
  wp := Vector.replicate 64 16
  q := 1
  grid := ⟨0, 0, 0, 0, false⟩
  flags := MbFlags.clear
  mvout := ⟨mvZero, 0, 0⟩
  strm := ⟨[], 0, 0, 0, false⟩
  irqEn := 0
  irqPend := 0
  flt := FaultRec.clear
  arg := 0
  cq := []
  hist := []
  mvmem := []
  host := HostPort.idle

/-- The machine right after reset, in the reference configuration (10 R47, 00 R7). -/
def State.reset : State := State.resetOf Config.reference

end Sys2Proof.Machine
end

