-- ==== Sys2Proof/Machine/Arith.lean ====
section
/-! DEFINITION. The arithmetic primitives of spec/00_scope.md R9 to R11, exact on Int. -/

namespace Sys2Proof.Machine

/-- `floor_div(a, b)` for b > 0 (00 R10). On a zero divisor, which no run reaches, it is 0 (log 17). -/
def floorDiv (a b : Int) : Int := a / b

/-- `DIV_ROUND(a, b)` for b > 0: rounding half away from zero (00 R10). -/
def divRound (a b : Int) : Int := a.sign * floorDiv (|a| + floorDiv b 2) b

/-- `RND(p, s)` for s ≥ 1: a right shift by s that rounds half away from zero (00 R10). -/
def rnd (p : Int) (s : Nat) : Int := p.sign * floorDiv (|p| + 2 ^ (s - 1)) (2 ^ s)

/-- `clamp(v, lo, hi)` (00 R9). -/
def clampInt (v lo hi : Int) : Int := min (max v lo) hi

/-- `median3` (00 R11). -/
def median3 (a b c : Int) : Int := min (max a b) (min (max b c) (max a c))

/-- The sum of `f` over 0..n-1. -/
def sumFin (n : Nat) (f : Fin n → Int) : Int := ((List.finRange n).map f).sum

end Sys2Proof.Machine
end

