-- ==== Sys2Proof/Machine/Sparse.lean ====
section
/-! DEFINITION. Sparse storage: a list of (key, value) pairs by strictly rising key, no value equal to what
an unlisted key reads as. The history, the vector memory and the bitstream buffer are held so. -/

namespace Sys2Proof.Machine

/-- What key `n` holds. -/
def Sparse.read {α : Type} (dflt : α) : List (Nat × α) → Nat → α
  | [], _ => dflt
  | (k, v) :: l, n => if k = n then v else Sparse.read dflt l n

/-- Key `n` set to `v`, in canonical form. -/
def Sparse.write {α : Type} [DecidableEq α] (dflt : α) : List (Nat × α) → Nat → α → List (Nat × α)
  | [], n, v => if v = dflt then [] else [(n, v)]
  | (k, w) :: l, n, v =>
    if n < k then (if v = dflt then (k, w) :: l else (n, v) :: (k, w) :: l)
    else if n = k then (if v = dflt then l else (n, v) :: l)
    else (k, w) :: Sparse.write dflt l n v

/-- Every listed value replaced by `f` of it, for an `f` that keeps what an unlisted key reads as. -/
def Sparse.mapAll {α : Type} [DecidableEq α] (dflt : α) (f : α → α) : List (Nat × α) → List (Nat × α)
  | [] => []
  | (k, v) :: l => if f v = dflt then Sparse.mapAll dflt f l else (k, f v) :: Sparse.mapAll dflt f l

/-- The canonical form. -/
abbrev Sparse.wf {α : Type} [DecidableEq α] (dflt : α) (l : List (Nat × α)) : Prop :=
  l.Pairwise (fun p r => p.1 < r.1) ∧ ∀ p ∈ l, p.2 ≠ dflt

/-- What an unlisted byte of the bitstream buffer reads as (log 3). -/
def Memory.dflt : Byte := 0

/-- One byte of a memory. -/
def Memory.read (m : Memory) (k : Nat) : Byte := Sparse.read Memory.dflt m k

/-- One byte of a memory set. -/
def Memory.write (m : Memory) (k : Nat) (v : Byte) : Memory := Sparse.write Memory.dflt m k v

/-- The canonical form of a memory: addresses strictly rising, no entry equal to what an unlisted
address reads as. -/
abbrev Memory.wf (m : Memory) : Prop := Sparse.wf Memory.dflt m

end Sys2Proof.Machine
end

