-- ==== Sys2Proof/Machine/Ops.lean ====
section
/-! DEFINITION. The named operations every meaning is written with: the update of each field, the reads
of the register file and the memories, the end of a command with and without fault (60 R211, 44 R203),
the return from a fault (60 R215) and reset (70 R240, R241). -/

namespace Sys2Proof.Machine

/-! ### Updates -/

/-- Block buffer `d` replaced. -/
def State.setBlk (s : State) (d : BlkIx) (b : Block) : State := { s with blk := s.blk.set d b }
/-- The intra weights replaced. -/
def State.setWi (s : State) (v : Vector Byte 64) : State := { s with wi := v }
/-- The inter weights replaced. -/
def State.setWp (s : State) (v : Vector Byte 64) : State := { s with wp := v }
/-- The quantizer replaced. -/
def State.setQ (s : State) (v : BitVec 5) : State := { s with q := v }
/-- The grid registers replaced. -/
def State.setGrid (s : State) (v : Grid) : State := { s with grid := v }
/-- The macroblock flags replaced. -/
def State.setFlags (s : State) (v : MbFlags) : State := { s with flags := v }
/-- The MVPRED results replaced. -/
def State.setMvout (s : State) (v : MvOut) : State := { s with mvout := v }
/-- The bitstream replaced. -/
def State.setStrm (s : State) (v : Stream) : State := { s with strm := v }
/-- IRQ_EN replaced. -/
def State.setIrqEn (s : State) (v : BitVec 4) : State := { s with irqEn := v }
/-- IRQ_PEND replaced. -/
def State.setIrqPend (s : State) (v : BitVec 4) : State := { s with irqPend := v }
/-- HALTED and the fault record replaced. -/
def State.setFlt (s : State) (v : FaultRec) : State := { s with flt := v }
/-- The argument latch replaced. -/
def State.setArg (s : State) (v : Word) : State := { s with arg := v }
/-- The command queue replaced. -/
def State.setCq (s : State) (v : List Cmd) : State := { s with cq := v }
/-- The history replaced. -/
def State.setHist (s : State) (v : List (Nat × HistEntry)) : State := { s with hist := v }
/-- The vector memory replaced. -/
def State.setMvmem (s : State) (v : List (Nat × MV)) : State := { s with mvmem := v }
/-- The host side replaced. -/
def State.setHost (s : State) (v : HostPort) : State := { s with host := v }

/-! ### Reads -/

/-- `BLK[b][i]` as an integer (10 R21). -/
def coef (s : State) (b : BlkIx) (i : Fin 64) : Int := (s.blk[b][i]).toInt

/-- A block from 64 integers, each narrowed to `s16`. -/
def narrowBlock (f : Fin 64 → Int) : Block := Vector.ofFn (fun i => BitVec.ofInt 16 (f i))

/-- `HIST[m]` (10 R43). -/
def histAt (s : State) (m : Nat) : HistEntry := Sparse.read HistEntry.dflt s.hist m

/-- `HIST[m]` set. -/
def State.writeHist (s : State) (m : Nat) (e : HistEntry) : State :=
  s.setHist (Sparse.write HistEntry.dflt s.hist m e)

/-- `MVMEM[m][k]` (10 R44). -/
def mvAt (s : State) (m : Nat) (k : SubIx) : MV := Sparse.read mvZero s.mvmem (4 * m + k.val)

/-- `MVMEM[m][k]` set. -/
def State.writeMv (s : State) (m : Nat) (k : SubIx) (v : MV) : State :=
  s.setMvmem (Sparse.write mvZero s.mvmem (4 * m + k.val) v)

/-- `BS[k]` (10 R45). -/
def bsAt (s : State) (k : Nat) : Byte := Memory.read s.strm.bs k

/-- `m_cur = MBY * MBW + MBX` (10 R29). -/
def curMb (s : State) : Nat := s.grid.mby.toNat * s.grid.mbw.toNat + s.grid.mbx.toNat

/-! ### The interrupt bits (10 R37) -/

/-- `IRQ_PEND.DONE`. -/
def irqDone : BitVec 4 := 0b0001
/-- `IRQ_PEND.FAULT`. -/
def irqFault : BitVec 4 := 0b0010
/-- `IRQ_PEND.CFGERR`. -/
def irqCfgerr : BitVec 4 := 0b0100
/-- `IRQ_PEND.CMDOVF`. -/
def irqCmdovf : BitVec 4 := 0b1000

/-- Interrupt bits set, the others unchanged. -/
def State.pend (s : State) (bits : BitVec 4) : State := s.setIrqPend (s.irqPend ||| bits)

/-! ### The end of a command -/

/-- A command that completes: its writes stand, and DONE is set when I = 1 (44 R203, 60 R220). -/
def commit (irq : Bool) (s : State) : State := if irq then s.pend irqDone else s

/-- Taking a fault (60 R211): the code and the two words of the command are recorded, the engine halts
and FAULT becomes pending. `s` is the state before the command, so none of its effects remain; the
engine step has already removed the command from the queue. -/
def takeFault (code : FaultCode) (cmd arg : Word) (s : State) : State :=
  (s.setFlt ⟨true, some code, cmd, arg⟩).pend irqFault

/-- The return from a fault, `CTRL.CLRFLT` (60 R215): the record is cleared and the engine resumes with
the command now at the head of the queue. `IRQ_PEND.FAULT` stays. -/
def clearFault (s : State) : State := s.setFlt FaultRec.clear

/-- The end of command `i`, run in state `s`, with the effect `r` its rule gives (44 R203). -/
def conclude (i : Instr) (s : State) (r : Except FaultCode State) : Host.Outcome State Fault Refusal :=
  match r with
  | .ok s' => .next (commit i.irq s')
  | .error code => .next (takeFault code i.cmdWord i.argWord s)

/-- The grid check that opens MBBEGIN, ACDCPRED, MVSET, MVSET4 and MVPRED (60 R212, code NO_GRID). -/
def withGrid (s : State) (r : Except FaultCode State) : Except FaultCode State :=
  if s.grid.ok then r else .error .noGrid

/-! ### Reset -/

/-- `FAULT_CODE` of a cause (60 R212). -/
def faultByte : FaultCode → BitVec 8
  | .illegalOpcode => 1
  | .reservedField => 2
  | .badOperand => 3
  | .noGrid => 4
  | .bsFinished => 5
  | .bsOverflow => 6

/-- The block buffers a reset leaves under a draw (70 R240). -/
def drawBlk (d : ResetDraw) : Vector Block 16 :=
  Vector.ofFn (fun b : BlkIx => Vector.ofFn (fun i : Fin 64 => Sparse.read 0 d.blk (64 * b.val + i.val)))

/-- The bitstream buffer a reset leaves under a draw: bytes below BS_CAP, in canonical form. -/
def drawBs (cap : Nat) (d : ResetDraw) : Memory :=
  d.bs.foldl (fun m p => if p.1 < cap then Memory.write m p.1 p.2 else m) []

/-- A drawn history entry: `valid` is 0 and `hq` is in 1..31 (10 R47, spec/93). -/
def drawEntry (e : HistEntry) : HistEntry :=
  { e with valid := false, hq := if e.hq = 0 then 1 else e.hq }

/-- The history a reset leaves under a draw: entries below MAX_MB, in canonical form. -/
def drawHist (maxMb : Nat) (d : ResetDraw) : List (Nat × HistEntry) :=
  d.hist.foldl (fun l p => if p.1 < maxMb then Sparse.write HistEntry.dflt l p.1 (drawEntry p.2) else l) []

/-- A reset under a draw: every field at its reset value (10 R47) and the unspecified contents as drawn.
The configuration stays, and so does the host side, which is no state of the block. -/
def resetUnder (d : ResetDraw) (s : State) : State :=
  { State.resetOf s.cfg with
    blk := drawBlk d
    strm := ⟨drawBs s.cfg.bsCap d, 0, 0, 0, false⟩
    hist := drawHist s.cfg.maxMb d
    host := s.host }

/-- Hardware reset and `CTRL.SRST` (70 R240, R241): a reset under the next draw; with no draw named the
unspecified contents are those of logs 2 to 4 (log 5). -/
def hardReset (s : State) : State :=
  match s.host.draws with
  | [] => resetUnder ⟨[], [], []⟩ s
  | d :: ds => resetUnder d (s.setHost { s.host with draws := ds })

end Sys2Proof.Machine
end

