-- ==== Sys2Proof/Machine/Operands.lean ====
section
/-! DEFINITION. The operand forms (30 R103) and the tables a meaning looks its operands up in. The fields
of a command are pulled out once, in Decode.lean. -/

namespace Sys2Proof.Machine

/-- A vector operand: two `s16` from the argument word (30 R103). -/
def vecOperand (x y : BitVec 16) : MV := ⟨x, y⟩

/-- The signed delta of QDELTA, `sext_3(DQ)` (30 R95). -/
def deltaOperand (dq : BitVec 3) : Int := dq.toInt

/-- The bit count of PUTBITS, `zext_6(NB)` (30 R98). -/
def putWidth (nb : BitVec 6) : Nat := nb.toNat

/-- The bit count of PUTZERO, `zext_8(NZ)` (30 R98). -/
def zeroWidth (nz : BitVec 8) : Nat := nz.toNat

/-- The macroblock buffer that holds block `j` (10 R21: buffers 0..5). -/
def mbBuf (j : MbBlk) : BlkIx := ⟨j.val, by omega⟩

/-- The role of block `j` of a macroblock (00 R13). -/
def roleOf (j : MbBlk) : Role := if j.val < 4 then .luma else .chroma

/-- `DC_SCALER(q, role)` (41 R132). Outside q in 1..31, which no run reaches, it is 8 (log 17). -/
def dcScaler (cfg : Config) (q : Nat) (r : Role) : Nat :=
  match r with
  | .luma => cfg.dcLuma.getD (q - 1) 8
  | .chroma => cfg.dcChroma.getD (q - 1) 8

/-- `NEXTQ(q)`: the least ladder entry above q, and 31 at the top (41 R131). -/
def nextQ (ladder : List Nat) (q : Nat) : Nat :=
  if 31 ≤ q then 31 else ((ladder.filter (fun l => decide (q < l))).min?).getD 31

/-- A quantizer value clamped into 1..31 (10 R27). -/
def clampQ (v : Int) : BitVec 5 := BitVec.ofInt 5 (clampInt v 1 31)

/-- Whether macroblock position (mx, my) lies in the grid (43 R177, R183). -/
def insideGrid (g : Grid) (mx my : Int) : Bool :=
  decide (0 ≤ mx ∧ mx < g.mbw.toNat ∧ 0 ≤ my ∧ my < g.mbh.toNat)

/-- The macroblock index of a position inside the grid (10 R29). -/
def mbIndex (g : Grid) (mx my : Int) : Nat := (my * g.mbw.toNat + mx).toNat

end Sys2Proof.Machine
end

