-- ==== Sys2Proof/Machine/Flags.lean ====
section
/-! DEFINITION. The flag computations: SAT, QSUM, CBP, the PRED fields, the STATUS word and the interrupt
line (10 R26, R30 to R34, 60 R224). -/

namespace Sys2Proof.Machine

/-- SAT is sticky: a command sets it and never clears it (10 R30). -/
def MbFlags.raiseSat (f : MbFlags) (b : Bool) : MbFlags := { f with sat := f.sat || b }

/-- Whether a block holds a coefficient other than 0 at an index `lo` or above (41 R139). -/
def blockCoded (lo : Nat) (b : Block) : Bool :=
  (List.finRange 64).any (fun i => decide (lo ≤ i.val) && decide (b[i] ≠ 0))

/-- The lowest index that counts: the intra rule leaves the DC out (41 R139). -/
def cbpLow : CbpMode → Nat
  | .intra => 1
  | .inter => 0

/-- Six bits, bit j for block j (10 R32). -/
def cbpMask (f : MbBlk → Bool) : BitVec 6 := BitVec.ofFnLE f

/-- The two-bit code of a direction (10 R33). -/
def dirCode : Dir → Nat
  | .none => 0
  | .vert => 1
  | .horz => 2

/-- Six directions as bits [2j+1:2j] (10 R33). -/
def dirBits (v : Vector Dir 6) : Nat :=
  ((List.finRange 6).map (fun j => dirCode v[j] * 4 ^ j.val)).sum

/-- The PRED register (10 R33). -/
def predWord (f : MbFlags) : Word := BitVec.ofNat 32 (dirBits f.pdir + 2 ^ 16 * dirBits f.acdir)

/-- The engine's work: BUSY (10 R40). -/
def busy (s : State) : Bool := !s.cq.isEmpty

/-- The STATUS register (10 R26). -/
def statusWord (s : State) : Word :=
  BitVec.ofNat 32 ((busy s).toNat + 2 * s.flt.halted.toNat + 4 * s.flags.sat.toNat +
    8 * s.flags.acpred.toNat + 16 * s.strm.bsfin.toNat + 32 * s.grid.ok.toNat +
    2 ^ 8 * s.cq.length + 2 ^ 16 * (s.cfg.cmdqDepth - s.cq.length))

/-- The level interrupt output (60 R224). -/
def irqLine (s : State) : Bool := decide (s.irqPend &&& s.irqEn ≠ 0)

end Sys2Proof.Machine
end

