-- ==== Sys2Proof/Machine/BitPacker.lean ====
section
/-! DEFINITION. The bit packer (spec/40_bitwriter.md): the primitives FLUSH, APPEND and CHECK_WRITE, and
the commands BSRESET, PUTBITS, PUTZERO, PADBYTE and FINISH. -/

namespace Sys2Proof.Machine

/-- Byte j that FLUSH writes: the bits of ACC from ACCN - 8(j+1) up (40 R111). -/
def flushByte (st : Stream) (j : Nat) : Byte := (st.acc >>> (st.accn - 8 * (j + 1))).setWidth 8

/-- FLUSH (40 R111): every whole byte of the accumulator goes to the buffer. -/
def flush (st : Stream) : Stream :=
  { st with
    bs := (List.range (st.accn / 8)).foldl (fun m j => Memory.write m (st.bspos + j) (flushByte st j)) st.bs
    bspos := st.bspos + st.accn / 8
    accn := st.accn - 8 * (st.accn / 8)
    acc := st.acc &&& BitVec.ofNat 64 (2 ^ (st.accn - 8 * (st.accn / 8)) - 1) }

/-- The low n bits of v pushed into the accumulator (40 R112, its last two lines). -/
def pushBits (v : Word) (n : Nat) (st : Stream) : Stream :=
  { st with
    acc := (st.acc <<< n) ||| BitVec.ofNat 64 (v.toNat % 2 ^ n)
    accn := st.accn + n }

/-- APPEND (40 R112): FLUSH first when the accumulator would hold more than 63 bits. -/
def append (v : Word) (n : Nat) (st : Stream) : Stream :=
  pushBits v n (if 63 < st.accn + n then flush st else st)

/-- `length(STREAM)`, read as BS_BITS (10 R36, 40 R110). -/
def streamLen (st : Stream) : Nat := 8 * st.bspos + st.accn

/-- CHECK_WRITE (40 R118): the fault of a write of n bits, if any. -/
def checkWrite (cap : Nat) (st : Stream) (n : Nat) : Option FaultCode :=
  if st.bsfin then some .bsFinished
  else if 8 * cap < streamLen st + n then some .bsOverflow
  else none

/-- A bitstream write of n bits guarded by CHECK_WRITE. -/
def guardedWrite (s : State) (n : Nat) (st : Stream) : Except FaultCode State :=
  match checkWrite s.cfg.bsCap s.strm n with
  | some c => .error c
  | none => .ok (s.setStrm st)

/-- The pieces PUTZERO appends: 32 bits at a time, then the rest (40 R115). -/
def zeroChunks (n : Nat) : List Nat :=
  List.replicate (n / 32) 32 ++ (if n % 32 = 0 then [] else [n % 32])

/-- n zero bits appended piece by piece (40 R115). -/
def appendZeros (n : Nat) (st : Stream) : Stream := (zeroChunks n).foldl (fun t c => append 0 c t) st

/-- The pad count p of PADBYTE and FINISH (40 R116, R117). -/
def padCount (st : Stream) : Nat := (8 - st.accn % 8) % 8

/-- Zero bits up to a byte boundary (40 R116, R117). -/
def padToByte (st : Stream) : Stream := append 0 (padCount st) st

/-- FINISH's effect on an unfinished stream: pad, flush, BSFIN (40 R117). -/
def finishStream (st : Stream) : Stream := { flush (padToByte st) with bsfin := true }

/-- BSRESET (40 R113): cursor, accumulator and BSFIN cleared, the bytes left alone. -/
def execBsreset (irq : Bool) (arg : Word) (s : State) : Host.Outcome State Fault Refusal :=
  conclude (.bsreset irq arg) s (.ok (s.setStrm { s.strm with bspos := 0, acc := 0, accn := 0, bsfin := false }))

/-- PUTBITS (40 R114): the width check, CHECK_WRITE, APPEND. -/
def execPutbits (irq : Bool) (nb : BitVec 6) (value : Word) (s : State) : Host.Outcome State Fault Refusal :=
  conclude (.putbits irq nb value) s <|
    if 32 < putWidth nb then .error .badOperand
    else guardedWrite s (putWidth nb) (append value (putWidth nb) s.strm)

/-- PUTZERO (40 R115): CHECK_WRITE once for all the bits, then the pieces. -/
def execPutzero (irq : Bool) (nz : BitVec 8) (arg : Word) (s : State) : Host.Outcome State Fault Refusal :=
  conclude (.putzero irq nz arg) s <|
    guardedWrite s (zeroWidth nz) (appendZeros (zeroWidth nz) s.strm)

/-- PADBYTE (40 R116). -/
def execPadbyte (irq : Bool) (arg : Word) (s : State) : Host.Outcome State Fault Refusal :=
  conclude (.padbyte irq arg) s <|
    if s.strm.bsfin then .error .bsFinished else .ok (s.setStrm (padToByte s.strm))

/-- FINISH (40 R117): a second FINISH has no effect. -/
def execFinish (irq : Bool) (arg : Word) (s : State) : Host.Outcome State Fault Refusal :=
  conclude (.finish irq arg) s <|
    if s.strm.bsfin then .ok s else .ok (s.setStrm (finishStream s.strm))

end Sys2Proof.Machine
end

