-- ==== Sys2Proof/Machine/Control.lean ====
section
/-! DEFINITION. The control commands NOP, FRAMEBEGIN and MBBEGIN (spec/44_control.md). -/

namespace Sys2Proof.Machine

/-- NOP (44 R200). -/
def execNop (irq : Bool) (arg : Word) (s : State) : Host.Outcome State Fault Refusal :=
  conclude (.nop irq arg) s (.ok s)

/-- A history entry of the new frame: not valid, the other fields as they were (44 R201). -/
def invalidate (e : HistEntry) : HistEntry := { e with valid := false }

/-- FRAMEBEGIN's effect: every `valid` cleared and every vector (0, 0) (44 R201). -/
def frameBegin (s : State) : State :=
  (s.setHist (Sparse.mapAll HistEntry.dflt invalidate s.hist)).setMvmem []

/-- FRAMEBEGIN (44 R201). -/
def execFramebegin (irq : Bool) (arg : Word) (s : State) : Host.Outcome State Fault Refusal :=
  conclude (.framebegin irq arg) s (.ok (frameBegin s))

/-- MBBEGIN's effect on an accepted position (44 R202). -/
def mbBegin (x y : BitVec 16) (s : State) : State :=
  (s.setGrid { s.grid with mbx := x, mby := y }).setFlags MbFlags.clear

/-- MBBEGIN (44 R202): the grid check, then the range check. -/
def execMbbegin (irq : Bool) (x y : BitVec 16) (s : State) : Host.Outcome State Fault Refusal :=
  conclude (.mbbegin irq x y) s <| withGrid s <|
    if s.grid.mbw.toNat ≤ x.toNat ∨ s.grid.mbh.toNat ≤ y.toNat then .error .badOperand
    else .ok (mbBegin x y s)

end Sys2Proof.Machine
end

