-- ==== Sys2Proof/Machine/Predictor.lean ====
section
/-! DEFINITION. The predictor commands (spec/43_predictor.md): ACDCPRED, MVSET, MVSET4 and MVPRED. -/

namespace Sys2Proof.Machine

/-! ### History records and neighbours -/

/-- A history record (dc, row, col, q) (43 R177). -/
structure HistRec where
  blk : HistBlock
  q : BitVec 5
  deriving DecidableEq, Repr

/-- The default record: DC 1024, AC 0, and the current quantizer (43 R177). -/
def defaultRec (s : State) : HistRec := ⟨⟨1024, Vector.replicate 7 0, Vector.replicate 7 0⟩, s.q⟩

/-- `H(mx, my, b)`: the saved record of a valid entry inside the grid, else the default (43 R177). -/
def histRec (s : State) (mx my : Int) (b : MbBlk) : HistRec :=
  if insideGrid s.grid mx my && (histAt s (mbIndex s.grid mx my)).valid then
    ⟨(histAt s (mbIndex s.grid mx my)).blocks[b], (histAt s (mbIndex s.grid mx my)).hq⟩
  else defaultRec s

/-- `L[j][i]`: the levels of macroblock block j (43 R176). -/
def mbLevel (s : State) (j : MbBlk) (i : Fin 64) : Int := coef s (mbBuf j) i

/-- Index t of the first row, t = 1..7 given as 0..6 (00 R12). -/
def rowPos (t : Fin 7) : Fin 64 := ⟨t.val + 1, by omega⟩
/-- Index 8 t of the first column, t = 1..7 given as 0..6 (00 R12). -/
def colPos (t : Fin 7) : Fin 64 := ⟨8 * (t.val + 1), by omega⟩

/-- `dcs[j]` (43 R176). -/
def mbScaler (s : State) (j : MbBlk) : Nat := dcScaler s.cfg s.q.toNat (roleOf j)

/-- The block's own, unpredicted history (43 R176): the reconstructed DC, and the first row and column
of levels. -/
def ownBlock (s : State) (j : MbBlk) : HistBlock where
  dc := BitVec.ofInt 16 (clampInt (mbLevel s j 0 * mbScaler s j) (-2048) 2047)
  row := Vector.ofFn (fun t => s.blk[mbBuf j][rowPos t])
  col := Vector.ofFn (fun t => s.blk[mbBuf j][colPos t])

/-- `OWN[j]` as a record (43 R176). -/
def ownRec (s : State) (j : MbBlk) : HistRec := ⟨ownBlock s j, s.q⟩

/-- The left (A), diagonal (B) and top (C) records of a block (43 R178). -/
structure Neigh where
  a : HistRec
  b : HistRec
  c : HistRec
  deriving DecidableEq, Repr

/-- `NEIGH(j)` (43 R178). -/
def neigh (s : State) (j : MbBlk) : Neigh :=
  let x : Int := s.grid.mbx.toNat
  let y : Int := s.grid.mby.toNat
  match j with
  | 0 => ⟨histRec s (x - 1) y 1, histRec s (x - 1) (y - 1) 3, histRec s x (y - 1) 2⟩
  | 1 => ⟨ownRec s 0, histRec s x (y - 1) 2, histRec s x (y - 1) 3⟩
  | 2 => ⟨histRec s (x - 1) y 3, histRec s (x - 1) y 1, ownRec s 0⟩
  | 3 => ⟨ownRec s 2, ownRec s 0, ownRec s 1⟩
  | 4 => ⟨histRec s (x - 1) y 4, histRec s (x - 1) (y - 1) 4, histRec s x (y - 1) 4⟩
  | 5 => ⟨histRec s (x - 1) y 5, histRec s (x - 1) (y - 1) 5, histRec s x (y - 1) 5⟩

/-! ### ACDCPRED -/

/-- `dir[j]` (43 R176): vertical when |A.dc - B.dc| < |B.dc - C.dc|. -/
def predDir (s : State) (j : MbBlk) : Dir :=
  let n := neigh s j
  if |n.a.blk.dc.toInt - n.b.blk.dc.toInt| < |n.b.blk.dc.toInt - n.c.blk.dc.toInt| then .vert else .horz

/-- The record P predicted from: the top when vertical, else the left (43 R176). -/
def predRec (s : State) (j : MbBlk) : HistRec :=
  if predDir s j = .vert then (neigh s j).c else (neigh s j).a

/-- `pos[j][t]`, t = 1..7 given as 0..6 (43 R176). -/
def candPos (s : State) (j : MbBlk) (t : Fin 7) : Fin 64 :=
  if predDir s j = .vert then rowPos t else colPos t

/-- RESCALE (43 R179). -/
def rescale (v : Int) (qn q : Nat) : Int := divRound (v * qn) q

/-- `RA[j][t]`: the candidate level minus its rescaled prediction (43 R176). -/
def acResidual (s : State) (j : MbBlk) (t : Fin 7) : Int :=
  let p := predRec s j
  let pv := if predDir s j = .vert then (p.blk.row[t]).toInt else (p.blk.col[t]).toInt
  mbLevel s j (candPos s j t) - rescale pv p.q.toNat s.q.toNat

/-- `S`: the total magnitude without AC prediction minus the total with it (43 R176). -/
def acGain (s : State) : Int :=
  sumFin 6 (fun j => sumFin 7 (fun t => |mbLevel s j (candPos s j t)| - |acResidual s j t|))

/-- The macroblock-wide AC decision: a tie keeps prediction on (43 R176, C2). -/
def acApplied (s : State) : Bool := decide (0 ≤ acGain s)

/-- The DC residual (43 R176). -/
def dcResidual (s : State) (j : MbBlk) : Int :=
  mbLevel s j 0 - divRound (predRec s j).blk.dc.toInt (mbScaler s j)

/-- The t of a candidate index, if the index is one (43 R176). -/
def candIndex (s : State) (j : MbBlk) (i : Fin 64) : Option (Fin 7) :=
  (List.finRange 7).find? (fun t => decide (candPos s j t = i))

/-- `R[j][i]` before the level-range clamp (43 R176). -/
def mbResidual (s : State) (j : MbBlk) (i : Fin 64) : Int :=
  if i.val = 0 then dcResidual s j
  else match candIndex s j i with
    | some t => if acApplied s then acResidual s j t else mbLevel s j i
    | none => mbLevel s j i

/-- A residual clamped to ±2047 (43 R176). -/
def clampResidual (r : Int) : Int := if 2047 < |r| then r.sign * 2047 else r

/-- Block j of the residual macroblock. -/
def residualBlock (s : State) (j : MbBlk) : Block := narrowBlock (fun i => clampResidual (mbResidual s j i))

/-- Whether some residual is clamped (43 R176). -/
def residualSat (s : State) : Bool :=
  (List.finRange 6).any (fun j => (List.finRange 64).any (fun i => decide (2047 < |mbResidual s j i|)))

/-- The block buffers after ACDCPRED: 0..5 hold the residual, 6..15 are as before (43 R176). -/
def residualBlks (s : State) : Vector Block 16 :=
  Vector.ofFn (fun b : BlkIx => if h : b.val < 6 then residualBlock s ⟨b.val, h⟩ else s.blk[b])

/-- The flags ACDCPRED writes (43 R176); QSUM is not one of them. -/
def acdcFlags (s : State) : MbFlags :=
  { s.flags.raiseSat (residualSat s) with
    acpred := acApplied s
    pdir := Vector.ofFn (fun j => predDir s j)
    acdir := Vector.ofFn (fun j => if acApplied s then predDir s j else .none)
    cbp := cbpMask (fun j => blockCoded 1 (residualBlock s j)) }

/-- The history entry ACDCPRED saves (43 R176). -/
def acdcEntry (s : State) : HistEntry := ⟨true, s.q, Vector.ofFn (fun j => ownBlock s j)⟩

/-- ACDCPRED's effect, every part computed from the state before it (43 R176). -/
def acdcPredict (s : State) : State :=
  { s with
    blk := residualBlks s
    hist := Sparse.write HistEntry.dflt s.hist (curMb s) (acdcEntry s)
    flags := acdcFlags s }

/-- ACDCPRED (43 R176). -/
def execAcdcpred (irq : Bool) (arg : Word) (s : State) : Host.Outcome State Fault Refusal :=
  conclude (.acdcpred irq arg) s (withGrid s (.ok (acdcPredict s)))

/-! ### Motion vectors -/

/-- MVSET (43 R180). -/
def execMvset (irq : Bool) (k : SubIx) (x y : BitVec 16) (s : State) : Host.Outcome State Fault Refusal :=
  conclude (.mvset irq k x y) s (withGrid s (.ok (s.writeMv (curMb s) k (vecOperand x y))))

/-- MVSET4's effect: the vector stored for all four sub-blocks (43 R181). -/
def setAllMv (s : State) (v : MV) : State :=
  s.setMvmem ((List.finRange 4).foldl (fun l k => Sparse.write mvZero l (4 * curMb s + k.val) v) s.mvmem)

/-- MVSET4 (43 R181). -/
def execMvset4 (irq : Bool) (x y : BitVec 16) (s : State) : Host.Outcome State Fault Refusal :=
  conclude (.mvset4 irq x y) s (withGrid s (.ok (setAllMv s (vecOperand x y))))

/-- A candidate vector with its inside flag (43 R183). -/
structure Cand where
  v : MV
  inside : Bool
  deriving DecidableEq, Repr

/-- `V(mx, my, b)` (43 R183). -/
def candAt (s : State) (mx my : Int) (b : SubIx) : Cand :=
  if insideGrid s.grid mx my then ⟨mvAt s (mbIndex s.grid mx my) b, true⟩ else ⟨mvZero, false⟩

/-- The three candidates: left, top, top-right. -/
structure Cands where
  c1 : Cand
  c2 : Cand
  c3 : Cand
  deriving DecidableEq, Repr

/-- `V(x, y, b)` for the current macroblock: always inside (43 R183). -/
def ownCand (s : State) (b : SubIx) : Cand := ⟨mvAt s (curMb s) b, true⟩

/-- `MVCAND(k)` (43 R183). -/
def mvCand (s : State) (k : SubIx) : Cands :=
  let x : Int := s.grid.mbx.toNat
  let y : Int := s.grid.mby.toNat
  match k with
  | 0 => ⟨candAt s (x - 1) y 1, candAt s x (y - 1) 2, candAt s (x + 1) (y - 1) 2⟩
  | 1 => ⟨ownCand s 0, candAt s x (y - 1) 3, candAt s (x + 1) (y - 1) 2⟩
  | 2 => ⟨candAt s (x - 1) y 3, ownCand s 0, ownCand s 1⟩
  | 3 => ⟨ownCand s 2, ownCand s 0, ownCand s 1⟩

/-- The candidate that is alone inside the grid, if there is one (43 R182). -/
def loneCand (c : Cands) : Option MV :=
  match c.c1.inside, c.c2.inside, c.c3.inside with
  | true, false, false => some c.c1.v
  | false, true, false => some c.c2.v
  | false, false, true => some c.c3.v
  | _, _, _ => none

/-- The componentwise median of the candidates (43 R182). -/
def medianMv (c : Cands) : MV :=
  ⟨BitVec.ofInt 16 (median3 c.c1.v.x.toInt c.c2.v.x.toInt c.c3.v.x.toInt),
   BitVec.ofInt 16 (median3 c.c1.v.y.toInt c.c2.v.y.toInt c.c3.v.y.toInt)⟩

/-- The predicted vector (43 R182, R184). -/
def predictMv (single : Bool) (c : Cands) : MV :=
  if single then (loneCand c).getD (medianMv c) else medianMv c

/-- The result registers of MVPRED (43 R182). -/
def mvPredict (s : State) (k : SubIx) : MvOut :=
  let p := predictMv s.cfg.mvpSingle (mvCand s k)
  let a := mvAt s (curMb s) k
  ⟨p, BitVec.ofInt 32 (a.x.toInt - p.x.toInt), BitVec.ofInt 32 (a.y.toInt - p.y.toInt)⟩

/-- MVPRED (43 R182). -/
def execMvpred (irq : Bool) (k : SubIx) (arg : Word) (s : State) : Host.Outcome State Fault Refusal :=
  conclude (.mvpred irq k arg) s (withGrid s (.ok (s.setMvout (mvPredict s k))))

end Sys2Proof.Machine
end

