-- ==== Sys2Proof/Machine/Quantizer.lean ====
section
/-! DEFINITION. The quantizer commands (spec/41_quantizer.md): QSET, QDELTA, QNEXT, QINTRA, QINTER,
DQINTRA, DQINTER and CBPCALC. -/

namespace Sys2Proof.Machine

/-! ### The quantizer register -/

/-- QSET (41 R136). -/
def execQset (irq : Bool) (v : BitVec 5) (arg : Word) (s : State) : Host.Outcome State Fault Refusal :=
  conclude (.qset irq v arg) s (.ok (s.setQ (clampQ v.toNat)))

/-- QDELTA (41 R137): the delta check, then the clamped sum. -/
def execQdelta (irq : Bool) (dq : BitVec 3) (arg : Word) (s : State) : Host.Outcome State Fault Refusal :=
  conclude (.qdelta irq dq arg) s <|
    if -2 ≤ deltaOperand dq ∧ deltaOperand dq ≤ 2 then .ok (s.setQ (clampQ (s.q.toNat + deltaOperand dq)))
    else .error .badOperand

/-- QNEXT (41 R138). -/
def execQnext (irq : Bool) (arg : Word) (s : State) : Host.Outcome State Fault Refusal :=
  conclude (.qnext irq arg) s (.ok (s.setQ (BitVec.ofNat 5 (nextQ s.cfg.qladder s.q.toNat))))

/-! ### Forward quantization -/

/-- One quantized coefficient: its level, and whether it saturates (41 R133). -/
structure Level where
  lv : Int
  sat : Bool
  deriving DecidableEq, Repr

/-- The intra DC level (41 R134): DIV_ROUND by the DC step, clamped to ±2047. -/
def intraDcLevel (dcs : Nat) (x : Int) : Level :=
  let l := divRound x dcs
  let lv := if 2047 < |l| then l.sign * 2047 else l
  ⟨lv, decide (2047 < |l|) || decide (2047 < lv * dcs) || decide (lv * dcs < -2048)⟩

/-- The last part of both forward rules (41 R134, R135): the magnitude m0 clamped to 2047, the sign of
the input restored, and saturation when the clamp acts or the reconstruction leaves its range. -/
def acLevel (x m0 : Int) (recon : Int → Int) : Level :=
  let m := min m0 2047
  ⟨x.sign * m, decide (2047 < m0) ||
    (decide (0 < m) && (decide (0 < x ∧ 2047 < recon m) || decide (x < 0 ∧ 2048 < recon m)))⟩

/-- The reconstruction of an intra AC magnitude (41 R140). -/
def intraRecon (w q : Nat) (m : Int) : Int := floorDiv (m * w * q) 8

/-- The reconstruction of an inter magnitude (41 R141). -/
def interRecon (w q : Nat) (m : Int) : Int := floorDiv ((2 * m + 1) * w * q) 16

/-- The intra AC level (41 R134). -/
def intraAcLevel (w q : Nat) (x : Int) : Level :=
  if |x| < 2 * q then ⟨0, false⟩ else acLevel x (floorDiv (8 * |x|) (w * q)) (intraRecon w q)

/-- The inter level, with the dead-zone offset (41 R135). -/
def interLevel (w q : Nat) (x : Int) : Level :=
  let a := |x| - floorDiv q 2
  if a < 2 * q then ⟨0, false⟩ else acLevel x (floorDiv (8 * a) (w * q)) (interRecon w q)

/-- The 64 levels of QINTRA (41 R134). -/
def qintraLevel (s : State) (src : BlkIx) (role : Role) (i : Fin 64) : Level :=
  if i.val = 0 then intraDcLevel (dcScaler s.cfg s.q.toNat role) (coef s src i)
  else intraAcLevel (s.wi[i]).toNat s.q.toNat (coef s src i)

/-- The 64 levels of QINTER (41 R135). -/
def qinterLevel (s : State) (src : BlkIx) (i : Fin 64) : Level :=
  interLevel (s.wp[i]).toNat s.q.toNat (coef s src i)

/-- Some level saturates. -/
def anySat (f : Fin 64 → Level) : Bool := (List.finRange 64).any (fun i => (f i).sat)

/-- The magnitude sum over the indices from `lo` on (10 R34). -/
def magSum (lo : Nat) (f : Fin 64 → Level) : Int :=
  sumFin 64 (fun i => if lo ≤ i.val then |(f i).lv| else 0)

/-- The writes of a forward quantization: the levels to buffer `d`, QSUM, and SAT when one saturates
(41 R134, R135). QSUM leaves out the indices below `lo`. -/
def storeLevels (s : State) (d : BlkIx) (lo : Nat) (f : Fin 64 → Level) : State :=
  (s.setBlk d (narrowBlock (fun i => (f i).lv))).setFlags
    { s.flags.raiseSat (anySat f) with qsum := BitVec.ofInt 32 (magSum lo f) }

/-- QINTRA (41 R134): QSUM excludes the DC level. -/
def execQintra (irq : Bool) (d src : BlkIx) (role : Role) (arg : Word) (s : State) :
    Host.Outcome State Fault Refusal :=
  conclude (.qintra irq d src role arg) s (.ok (storeLevels s d 1 (qintraLevel s src role)))

/-- QINTER (41 R135): QSUM counts all 64 levels. -/
def execQinter (irq : Bool) (d src : BlkIx) (arg : Word) (s : State) : Host.Outcome State Fault Refusal :=
  conclude (.qinter irq d src arg) s (.ok (storeLevels s d 0 (qinterLevel s src)))

/-! ### Inverse quantization -/

/-- The sign of the level restored on a reconstructed magnitude, within [-2048, 2047] (41 R140, R141). -/
def signedRecon (l m : Int) : Int :=
  if l = 0 then 0 else if 0 < l then min m 2047 else -(min m 2048)

/-- The 64 reconstructions of DQINTRA before mismatch control (41 R140). -/
def dqintraValue (s : State) (src : BlkIx) (role : Role) (i : Fin 64) : Int :=
  if i.val = 0 then clampInt (coef s src i * dcScaler s.cfg s.q.toNat role) (-2048) 2047
  else signedRecon (coef s src i) (intraRecon (s.wi[i]).toNat s.q.toNat |coef s src i|)

/-- The 64 reconstructions of DQINTER before mismatch control (41 R141). -/
def dqinterValue (s : State) (src : BlkIx) (i : Fin 64) : Int :=
  signedRecon (coef s src i) (interRecon (s.wp[i]).toNat s.q.toNat |coef s src i|)

/-- MISMATCH (41 R142): when the sum of the 64 values is even, bit 0 of the last one is toggled. -/
def mismatch (b : Block) : Block :=
  if sumFin 64 (fun i => (b[i]).toInt) % 2 = 0 then b.set 63 (b[63] ^^^ 1) else b

/-- DQINTRA (41 R140). -/
def execDqintra (irq : Bool) (d src : BlkIx) (role : Role) (arg : Word) (s : State) :
    Host.Outcome State Fault Refusal :=
  conclude (.dqintra irq d src role arg) s
    (.ok (s.setBlk d (mismatch (narrowBlock (dqintraValue s src role)))))

/-- DQINTER (41 R141). -/
def execDqinter (irq : Bool) (d src : BlkIx) (arg : Word) (s : State) : Host.Outcome State Fault Refusal :=
  conclude (.dqinter irq d src arg) s (.ok (s.setBlk d (mismatch (narrowBlock (dqinterValue s src)))))

/-! ### Coded block pattern -/

/-- CBPCALC (41 R139). -/
def execCbpcalc (irq : Bool) (mode : CbpMode) (arg : Word) (s : State) : Host.Outcome State Fault Refusal :=
  conclude (.cbpcalc irq mode arg) s
    (.ok (s.setFlags { s.flags with cbp := cbpMask (fun j => blockCoded (cbpLow mode) s.blk[mbBuf j]) }))

end Sys2Proof.Machine
end

