-- ==== Sys2Proof/Machine/Transform.lean ====
section
/-! DEFINITION. The transform commands (spec/42_transform.md): FDCT, IDCT and COPY. -/

namespace Sys2Proof.Machine

/-- The basis table, row k, column n (42 R160). The table is normative. -/
def basis : Vector (Vector Int 8) 8 :=
  #v[#v[5793, 5793, 5793, 5793, 5793, 5793, 5793, 5793],
     #v[8035, 6811, 4551, 1598, -1598, -4551, -6811, -8035],
     #v[7568, 3135, -3135, -7568, -7568, -3135, 3135, 7568],
     #v[6811, -1598, -8035, -4551, 4551, 8035, 1598, -6811],
     #v[5793, -5793, -5793, 5793, 5793, -5793, -5793, 5793],
     #v[4551, -8035, 1598, 6811, -6811, -1598, 8035, -4551],
     #v[3135, -7568, 7568, -3135, -3135, 7568, -7568, 3135],
     #v[1598, -4551, 6811, -8035, 8035, -6811, 4551, -1598]]

/-- `T[k][n]` (42 R160). -/
def basisT (k n : Fin 8) : Int := basis[k][n]

/-- The row of coefficient index i = 8 r + c (00 R12). -/
def rowOf (i : Fin 64) : Fin 8 := ⟨i.val / 8, by omega⟩
/-- The column of coefficient index i = 8 r + c (00 R12). -/
def colOf (i : Fin 64) : Fin 8 := ⟨i.val % 8, by omega⟩
/-- The coefficient index 8 r + c (00 R12). -/
def rcIndex (r c : Fin 8) : Fin 64 := ⟨8 * r.val + c.val, by omega⟩

/-- The sum P of the forward transform at (u, v) (42 R162), exact (42 R161). -/
def fdctSum (x : Fin 64 → Int) (u v : Fin 8) : Int :=
  sumFin 8 (fun r => sumFin 8 (fun c => basisT u r * x (rcIndex r c) * basisT v c))

/-- The sum P of the inverse transform at (r, c) (42 R163), exact (42 R161). -/
def idctSum (y : Fin 64 → Int) (r c : Fin 8) : Int :=
  sumFin 8 (fun u => sumFin 8 (fun v => basisT u r * y (rcIndex u v) * basisT v c))

/-- Output coefficient i of FDCT: one rounding and one clamp (42 R161, R162). -/
def fdctValue (s : State) (src : BlkIx) (i : Fin 64) : Int :=
  clampInt (rnd (fdctSum (coef s src) (rowOf i) (colOf i)) 28) (-2048) 2047

/-- Output sample i of IDCT (42 R161, R163). -/
def idctValue (s : State) (src : BlkIx) (i : Fin 64) : Int :=
  clampInt (rnd (idctSum (coef s src) (rowOf i) (colOf i)) 28) (-256) 255

/-- FDCT (42 R162). -/
def execFdct (irq : Bool) (d src : BlkIx) (arg : Word) (s : State) : Host.Outcome State Fault Refusal :=
  conclude (.fdct irq d src arg) s (.ok (s.setBlk d (narrowBlock (fdctValue s src))))

/-- IDCT (42 R163). -/
def execIdct (irq : Bool) (d src : BlkIx) (arg : Word) (s : State) : Host.Outcome State Fault Refusal :=
  conclude (.idct irq d src arg) s (.ok (s.setBlk d (narrowBlock (idctValue s src))))

/-- COPY (42 R164). -/
def execCopy (irq : Bool) (d src : BlkIx) (arg : Word) (s : State) : Host.Outcome State Fault Refusal :=
  conclude (.copy irq d src arg) s (.ok (s.setBlk d s.blk[src]))

end Sys2Proof.Machine
end

