-- ==== Sys2Proof/Machine/Dispatch.lean ====
section
/-! DEFINITION. The meaning of each command of spec/opcode_table.json: one arm per constructor. -/

namespace Sys2Proof.Machine

def exec (i : Instr) (s : State) : Host.Outcome State Fault Refusal :=
  match i with
  | .nop irq arg => Sys2Proof.Machine.execNop irq arg s
  | .framebegin irq arg => Sys2Proof.Machine.execFramebegin irq arg s
  | .mbbegin irq x y => Sys2Proof.Machine.execMbbegin irq x y s
  | .bsreset irq arg => Sys2Proof.Machine.execBsreset irq arg s
  | .putbits irq nb value => Sys2Proof.Machine.execPutbits irq nb value s
  | .putzero irq nz arg => Sys2Proof.Machine.execPutzero irq nz arg s
  | .padbyte irq arg => Sys2Proof.Machine.execPadbyte irq arg s
  | .finish irq arg => Sys2Proof.Machine.execFinish irq arg s
  | .qset irq v arg => Sys2Proof.Machine.execQset irq v arg s
  | .qdelta irq dq arg => Sys2Proof.Machine.execQdelta irq dq arg s
  | .qnext irq arg => Sys2Proof.Machine.execQnext irq arg s
  | .qintra irq d src role arg => Sys2Proof.Machine.execQintra irq d src role arg s
  | .qinter irq d src arg => Sys2Proof.Machine.execQinter irq d src arg s
  | .dqintra irq d src role arg => Sys2Proof.Machine.execDqintra irq d src role arg s
  | .dqinter irq d src arg => Sys2Proof.Machine.execDqinter irq d src arg s
  | .cbpcalc irq mode arg => Sys2Proof.Machine.execCbpcalc irq mode arg s
  | .fdct irq d src arg => Sys2Proof.Machine.execFdct irq d src arg s
  | .idct irq d src arg => Sys2Proof.Machine.execIdct irq d src arg s
  | .copy irq d src arg => Sys2Proof.Machine.execCopy irq d src arg s
  | .acdcpred irq arg => Sys2Proof.Machine.execAcdcpred irq arg s
  | .mvset irq k x y => Sys2Proof.Machine.execMvset irq k x y s
  | .mvset4 irq x y => Sys2Proof.Machine.execMvset4 irq x y s
  | .mvpred irq k arg => Sys2Proof.Machine.execMvpred irq k arg s

end Sys2Proof.Machine
end

