-- ==== Sys2Proof/Machine/Mmio.lean ====
section
/-! DEFINITION. The host's view of the state: the register map (spec/10_state.md) and the memory windows
(spec/20_memory.md), as one read and one write of an aligned 32-bit word. -/

namespace Sys2Proof.Machine

/-- The registers at 0x000 to 0x06C (10 R22 to R40). -/
inductive Reg where
  | id | version | param0 | param1 | bscap | ctrl | status | irqEn | irqPend
  | faultCode | faultCmd | faultArg | arg | cmd | q | mbdim | mbpos | cbp | pred | qsum
  | mvp | mvdX | mvdY | bsBits | bsBytes | bsAccn | bsAccLo | bsAccHi
  deriving DecidableEq, Repr

/-- The registers in the order of their offsets, one every 4 bytes from 0x000 (10 R22 to R40). -/
def regMap : List Reg :=
  [.id, .version, .param0, .param1, .bscap, .ctrl, .status, .irqEn,
   .irqPend, .faultCode, .faultCmd, .faultArg, .arg, .cmd, .q, .mbdim,
   .mbpos, .cbp, .pred, .qsum, .mvp, .mvdX, .mvdY, .bsBits,
   .bsBytes, .bsAccn, .bsAccLo, .bsAccHi]

/-- The words of a history entry (20 R66). -/
inductive HistWord where
  | head
  | dc (j : MbBlk)
  | row (j : MbBlk) (t : Fin 7)
  | col (j : MbBlk) (t : Fin 7)
  deriving DecidableEq, Repr

/-- Word w of a history entry, or none when it is reserved (20 R66). -/
def histWord (w : Nat) : Option HistWord :=
  if w = 0 then some .head
  else if 16 ≤ w ∧ w < 112 then
    if w % 16 = 0 then some (.dc (Fin.ofNat 6 (w / 16 - 1)))
    else if w % 16 ≤ 7 then some (.row (Fin.ofNat 6 (w / 16 - 1)) (Fin.ofNat 7 (w % 16 - 1)))
    else if w % 16 ≤ 14 then some (.col (Fin.ofNat 6 (w / 16 - 1)) (Fin.ofNat 7 (w % 16 - 8)))
    else none
  else none

/-- What an offset addresses (20 R61). -/
inductive Loc where
  | reg (r : Reg)
  | blk (b : BlkIx) (i : Fin 64)
  | wi (i : Fin 64)
  | wp (i : Fin 64)
  | hist (m : Nat) (w : HistWord)
  | mv (m : Nat) (k : SubIx)
  | bs (k : Nat)
  | unmapped
  deriving DecidableEq, Repr

/-- The address map (20 R61, R64 to R68). `off` is a multiple of 4; `bs k` is the first byte of its word. -/
def locate (cfg : Config) (off : Nat) : Loc :=
  if off < 0x1000 then
    match regMap[off / 4]? with
    | some r => .reg r
    | none => .unmapped
  else if off < 0x2000 then
    .blk (Fin.ofNat 16 ((off - 0x1000) / 0x100)) (Fin.ofNat 64 ((off - 0x1000) % 0x100 / 4))
  else if off < 0x2100 then .wi (Fin.ofNat 64 ((off - 0x2000) / 4))
  else if off < 0x2200 then .wp (Fin.ofNat 64 ((off - 0x2100) / 4))
  else if off < 0x400000 then .unmapped
  else if off < 0x800000 then
    if (off - 0x400000) / 0x200 < cfg.maxMb then
      match histWord ((off - 0x400000) % 0x200 / 4) with
      | some w => .hist ((off - 0x400000) / 0x200) w
      | none => .unmapped
    else .unmapped
  else if off < 0x820000 then
    if (off - 0x800000) / 16 < cfg.maxMb then
      .mv ((off - 0x800000) / 16) (Fin.ofNat 4 ((off - 0x800000) % 16 / 4))
    else .unmapped
  else if off < 0xC00000 then .unmapped
  else if off - 0xC00000 < cfg.bsCap then .bs (off - 0xC00000)
  else .unmapped

/-! ### Reads -/

/-- Two 16-bit halves as a word, the first in the upper bits. -/
def halves (hi lo : BitVec 16) : Word := hi ++ lo

/-- The read of a register (10 R22 to R40). Write-only registers read 0. -/
def regRead (s : State) : Reg → Word
  | .id => 0x48564451
  | .version => 0x00010000
  | .param0 => BitVec.ofNat 32 s.cfg.cmdqDepth
  | .param1 => BitVec.ofNat 32 s.cfg.maxMb
  | .bscap => BitVec.ofNat 32 s.cfg.bsCap
  | .ctrl => 0
  | .status => statusWord s
  | .irqEn => s.irqEn.setWidth 32
  | .irqPend => s.irqPend.setWidth 32
  | .faultCode => match s.flt.code with
    | none => 0
    | some c => (faultByte c).setWidth 32
  | .faultCmd => s.flt.cmd
  | .faultArg => s.flt.arg
  | .arg => s.arg
  | .cmd => 0
  | .q => s.q.setWidth 32
  | .mbdim => halves s.grid.mbh s.grid.mbw
  | .mbpos => halves s.grid.mby s.grid.mbx
  | .cbp => s.flags.cbp.setWidth 32
  | .pred => predWord s.flags
  | .qsum => s.flags.qsum
  | .mvp => halves s.mvout.mvp.y s.mvout.mvp.x
  | .mvdX => s.mvout.mvdX
  | .mvdY => s.mvout.mvdY
  | .bsBits => BitVec.ofNat 32 (8 * s.strm.bspos + s.strm.accn)
  | .bsBytes => BitVec.ofNat 32 s.strm.bspos
  | .bsAccn => BitVec.ofNat 32 s.strm.accn
  | .bsAccLo => s.strm.acc.extractLsb' 0 32
  | .bsAccHi => s.strm.acc.extractLsb' 32 32

/-- The read of a history word (20 R66). -/
def histRead (e : HistEntry) : HistWord → Word
  | .head => BitVec.ofNat 32 (e.valid.toNat + 2 ^ 8 * e.hq.toNat)
  | .dc j => (e.blocks[j]).dc.signExtend 32
  | .row j t => ((e.blocks[j]).row[t]).signExtend 32
  | .col j t => ((e.blocks[j]).col[t]).signExtend 32

/-- Four stream bytes as a word, the first in bits [7:0] (20 R63, R68). -/
def bsWord (m : Memory) (k : Nat) : Word :=
  Memory.read m (k + 3) ++ Memory.read m (k + 2) ++ Memory.read m (k + 1) ++ Memory.read m k

/-- `MemRead(BASE + off, 4)` for an aligned offset (20 R62 to R69). It changes no state (20 R73). -/
def mmioRead (s : State) (off : Nat) : Word :=
  match locate s.cfg off with
  | .reg r => regRead s r
  | .blk b i => (s.blk[b][i]).signExtend 32
  | .wi i => (s.wi[i]).setWidth 32
  | .wp i => (s.wp[i]).setWidth 32
  | .hist m w => histRead (histAt s m) w
  | .mv m k => halves (mvAt s m k).y (mvAt s m k).x
  | .bs k => bsWord s.strm.bs k
  | .unmapped => 0

/-! ### Writes -/

/-- The write of CTRL (10 R25): SRST acts alone, else FLUSHQ acts before CLRFLT. -/
def writeCtrl (s : State) (v : Word) : State :=
  if v.getLsbD 0 then hardReset s
  else
    let s1 := if v.getLsbD 2 then s.setCq [] else s
    if v.getLsbD 1 then clearFault s1 else s1

/-- The write of MBDIM (10 R28): accepted, or rejected with CFGERR. -/
def writeMbdim (s : State) (v : Word) : State :=
  if 1 ≤ (xField v).toNat ∧ 1 ≤ (yField v).toNat ∧ (xField v).toNat * (yField v).toNat ≤ s.cfg.maxMb then
    s.setGrid ⟨xField v, yField v, 0, 0, true⟩
  else s.pend irqCfgerr

/-- The write of CMD (10 R40): queued with the latched argument, or dropped with CMDOVF. -/
def writeCmd (s : State) (v : Word) : State :=
  if s.cq.length < s.cfg.cmdqDepth then s.setCq (s.cq ++ [⟨v, s.arg⟩]) else s.pend irqCmdovf

/-- The write of a register (10 R22 to R40). Read-only registers ignore it. -/
def regWrite (s : State) (v : Word) : Reg → State
  | .ctrl => writeCtrl s v
  | .irqEn => s.setIrqEn (v.setWidth 4)
  | .irqPend => s.setIrqPend (s.irqPend &&& ~~~(v.setWidth 4))
  | .arg => s.setArg v
  | .cmd => writeCmd s v
  | .q => s.setQ (clampQ v.toNat)
  | .mbdim => writeMbdim s v
  | .id => s
  | .version => s
  | .param0 => s
  | .param1 => s
  | .bscap => s
  | .status => s
  | .faultCode => s
  | .faultCmd => s
  | .faultArg => s
  | .mbpos => s
  | .cbp => s
  | .pred => s
  | .qsum => s
  | .mvp => s
  | .mvdX => s
  | .mvdY => s
  | .bsBits => s
  | .bsBytes => s
  | .bsAccn => s
  | .bsAccLo => s
  | .bsAccHi => s

/-- A weight as stored: the low byte, and 1 for 0 (10 R42). -/
def weightOf (v : Word) : Byte := if v.setWidth 8 = (0 : Byte) then 1 else v.setWidth 8

/-- The quantizer of a history entry as stored: v[12:8], and 1 for 0 (20 R66). -/
def hqOf (v : Word) : BitVec 5 := if v.extractLsb' 8 5 = 0 then 1 else v.extractLsb' 8 5

/-- Block j of a history entry replaced. -/
def HistEntry.setBlock (e : HistEntry) (j : MbBlk) (b : HistBlock) : HistEntry :=
  { e with blocks := e.blocks.set j b }

/-- The write of a history word (20 R66). -/
def histWrite (e : HistEntry) (v : Word) : HistWord → HistEntry
  | .head => { e with valid := v.getLsbD 0, hq := hqOf v }
  | .dc j => e.setBlock j { e.blocks[j] with dc := v.setWidth 16 }
  | .row j t => e.setBlock j { e.blocks[j] with row := (e.blocks[j]).row.set t (v.setWidth 16) }
  | .col j t => e.setBlock j { e.blocks[j] with col := (e.blocks[j]).col.set t (v.setWidth 16) }

/-- A word stored in the bitstream buffer, byte by byte (20 R63, R68). -/
def bsWriteWord (m : Memory) (k : Nat) (v : Word) : Memory :=
  (List.range 4).foldl (fun m j => Memory.write m (k + j) (v.extractLsb' (8 * j) 8)) m

/-- `MemWrite(BASE + off, 4, v)` for an aligned offset (20 R62 to R69). -/
def mmioWrite (s : State) (off : Nat) (v : Word) : State :=
  match locate s.cfg off with
  | .reg r => regWrite s v r
  | .blk b i => s.setBlk b (s.blk[b].set i (v.setWidth 16))
  | .wi i => s.setWi (s.wi.set i (weightOf v))
  | .wp i => s.setWp (s.wp.set i (weightOf v))
  | .hist m w => s.writeHist m (histWrite (histAt s m) v w)
  | .mv m k => s.writeMv m k ⟨xField v, yField v⟩
  | .bs k => s.setStrm { s.strm with bs := bsWriteWord s.strm.bs k v }
  | .unmapped => s

/-- An access the block accepts: 32 bits at a multiple of 4 (20 R62). -/
def accessOk (off : BitVec 24) (size : AccessSize) : Bool :=
  decide (size = .b4) && decide (off.toNat % 4 = 0)

/-- The answer of the host port appended to the record of answers. -/
def State.answer (s : State) (r : Reply) : State :=
  s.setHost { s.host with replies := r :: s.host.replies }

/-- One host action, an atomic step of the host (20 R71). A refused access changes no state, and the
model stops with a host-side fault (20 R62, log 8). The reset input is one such action (70 R240). -/
def hostAct (s : State) : HostAction → Host.Outcome State Fault Refusal
  | .read off size =>
    if accessOk off size then .next (s.answer (.data (mmioRead s off.toNat))) else .fault (.busError off size)
  | .write off size v =>
    if accessOk off size then .next ((mmioWrite s off.toNat v).answer .written) else .fault (.busError off size)
  | .reset => .next (hardReset s)

end Sys2Proof.Machine
end

