-- ==== Sys2Proof/Machine/Engine.lean ====
section
/-! DEFINITION. The engine step (44 R203), the choice of the agent that goes next (20 R71, log 7), and how a
command is placed at the head of the queue. -/

namespace Sys2Proof.Machine

/-- The engine may step: HALTED = 0 and CQ is not empty (44 R203). -/
def engineReady (s : State) : Bool := !s.flt.halted && !s.cq.isEmpty

/-- The host has an action left. -/
def hostReady (s : State) : Bool := !s.host.agenda.isEmpty

/-- One command taken from the queue and run: a decode fault, or the meaning of the command it decodes
to (44 R203). `s` is the state with the command already removed. -/
def runCmd (c : Cmd) (s : State) : Host.Outcome State Fault Refusal :=
  match decode c.cmd c.arg with
  | .error code => .next (takeFault code c.cmd c.arg s)
  | .ok i => exec i s

/-- ENGINE_STEP (44 R203): the head of the queue is removed and run. With an empty queue the engine has
no step. -/
def engineStep (s : State) : Host.Outcome State Fault Refusal :=
  match s.cq with
  | [] => .next s
  | c :: rest => runCmd c (s.setCq rest)

/-- One host step: the next action of the host's agenda (20 R71). -/
def hostStep (s : State) : Host.Outcome State Fault Refusal :=
  match s.host.agenda with
  | [] => .next s
  | a :: rest => hostAct (s.setHost { s.host with agenda := rest }) a

/-- The agent the schedule names, the engine when it names none (log 7). -/
def schedHead (s : State) : Agent := s.host.sched.headD .engine

/-- One choice of the schedule used up. -/
def State.popSched (s : State) : State := s.setHost { s.host with sched := s.host.sched.tail }

/-- One step of the block and its host: the agent that can go, and where both can the one the schedule
names. With neither able to go the block is idle and all state is kept (44 R203, 60 R235). -/
def stepOnce (s : State) : Host.Outcome State Fault Refusal :=
  match engineReady s, hostReady s with
  | false, false => .next s
  | true, false => engineStep s
  | false, true => hostStep s
  | true, true => match schedHead s with
    | .engine => engineStep s.popSched
    | .host => hostStep s.popSched

/-- A command in the place of the queue's head, the engine not halted, and the engine next to go. -/
def placeCmd (s : State) (c : Cmd) : State :=
  { s with
    cq := c :: s.cq.tail
    flt := { s.flt with halted := false }
    host := { s.host with sched := if hostReady s then .engine :: s.host.sched else s.host.sched } }

/-- The two words of a table word: bits 31..0 and bits 63..32, every bit from `nbits` up 0. -/
def tableCmd (nbits w : Nat) : Cmd :=
  ⟨BitVec.ofNat 32 (w % 2 ^ nbits), BitVec.ofNat 32 (w % 2 ^ nbits / 2 ^ 32)⟩

end Sys2Proof.Machine
end

