-- ==== Sys2Proof/Machine/Step.lean ====
section
/-! DEFINITION. One step of the machine, and a table word placed where the next step fetches. -/

namespace Sys2Proof.Machine

/-- One step: of the engine (44 R203) or of the host (20 R71). -/
def step (s : State) : Host.Outcome State Fault Refusal := stepOnce s

/-- `s` with a table word as the command at the head of the queue (logs 12, 13). -/
def State.withFetchWord (s : State) (nbits w : Nat) : State := placeCmd s (tableCmd nbits w)

end Sys2Proof.Machine
end

