-- ==== Sys2Proof/Safety.lean ====
section
/-! DEFINITION. What holds of every state a run reaches: the invariants the spec states in its rules, and the
bit sequence a stream stands for. Claims are stated in these terms. -/

namespace Sys2Proof.Machine

/-- "The value is always in [1, 31]" (10 R27). The upper bound is the width of Q. -/
abbrev QuantOk (s : State) : Prop := s.q ≠ 0

/-- With a grid: a non-empty grid within MAX_MB and the current macroblock in it (10 R28, R29). Without:
the reset values. -/
abbrev GridOk (s : State) : Prop :=
  (s.grid.ok = true → 1 ≤ s.grid.mbw.toNat ∧ 1 ≤ s.grid.mbh.toNat ∧
    s.grid.mbw.toNat * s.grid.mbh.toNat ≤ s.cfg.maxMb ∧
    s.grid.mbx.toNat < s.grid.mbw.toNat ∧ s.grid.mby.toNat < s.grid.mbh.toNat) ∧
  (s.grid.ok = false → s.grid = ⟨0, 0, 0, 0, false⟩)

/-- The accumulator holds fewer than 64 bits and nothing above them, the stream fits the buffer, and a
finished stream has no unflushed bit (10 R36, 40 R110, R117, R118). -/
abbrev StreamOk (cap : Nat) (st : Stream) : Prop :=
  st.accn ≤ 63 ∧ st.acc.toNat < 2 ^ st.accn ∧ streamLen st ≤ 8 * cap ∧ (st.bsfin = true → st.accn = 0)

/-- The bitstream buffer is canonical and lists no byte at or beyond BS_CAP (10 R45, 20 R68). -/
abbrev BufferOk (cap : Nat) (m : Memory) : Prop := Memory.wf m ∧ ∀ p ∈ m, p.1 < cap

/-- Every weight is in 1..255 (10 R42). -/
abbrev WeightsOk (s : State) : Prop := (∀ i : Fin 64, s.wi[i] ≠ 0) ∧ ∀ i : Fin 64, s.wp[i] ≠ 0

/-- The history is canonical, lists entries below MAX_MB only, and every `hq` is in 1..31 (10 R43, 20 R66). -/
abbrev HistOk (s : State) : Prop :=
  Sparse.wf HistEntry.dflt s.hist ∧ ∀ p ∈ s.hist, p.1 < s.cfg.maxMb ∧ p.2.hq ≠ 0

/-- The vector memory is canonical and lists vectors of macroblocks below MAX_MB only (10 R44). -/
abbrev VectorsOk (s : State) : Prop :=
  Sparse.wf mvZero s.mvmem ∧ ∀ p ∈ s.mvmem, p.1 < 4 * s.cfg.maxMb

/-- The queue holds at most CMDQ_DEPTH commands (10 R40). -/
abbrev QueueOk (s : State) : Prop := s.cq.length ≤ s.cfg.cmdqDepth

/-- The engine is halted exactly while a fault is recorded; otherwise the record is clear (10 R38, 60 R215). -/
abbrev FaultOk (s : State) : Prop :=
  (s.flt.halted = true → s.flt.code ≠ none) ∧ (s.flt.halted = false → s.flt = FaultRec.clear)

/-- When ACPRED = 1, `ACDIR[j] = PDIR[j]` and PDIR[j] is vertical or horizontal for all j; otherwise
`ACDIR[j] = 0` for all j (10 R33, 43 R186). -/
abbrev PredOk (f : MbFlags) : Prop :=
  (f.acpred = true → f.acdir = f.pdir ∧ ∀ j : MbBlk, f.pdir[j] = .vert ∨ f.pdir[j] = .horz) ∧
  (f.acpred = false → f.acdir = Vector.replicate 6 .none)

/-- What every step keeps. -/
abbrev State.Inv (s : State) : Prop :=
  Config.Legal s.cfg ∧ QuantOk s ∧ GridOk s ∧ StreamOk s.cfg.bsCap s.strm ∧
  BufferOk s.cfg.bsCap s.strm.bs ∧ WeightsOk s ∧ HistOk s ∧ VectorsOk s ∧ QueueOk s ∧ FaultOk s ∧
  PredOk s.flags

/-- IRQ_PEND after a command that completes: DONE (bit 0) is set when I = 1 (44 R203, 60 R220). -/
def donePend (irq : Bool) (s : State) : BitVec 4 := if irq then s.irqPend ||| 0b0001 else s.irqPend

/-- The state after a command faults (60 R211): nothing but HALTED, the fault record and
IRQ_PEND.FAULT (bit 1) changes. -/
def faulted (code : FaultCode) (i : Instr) (s : State) : State :=
  { s with flt := ⟨true, some code, i.cmdWord, i.argWord⟩, irqPend := s.irqPend ||| 0b0010 }

/-- The low n bits of v, most significant first. -/
def bitsMsb (n v : Nat) : List Bool := (List.range n).map (fun i => v.testBit (n - 1 - i))

/-- The bits of the bytes k..k+n-1 of a memory, bit 7 of each byte first (40 R110). -/
def byteBits (m : Memory) (k n : Nat) : List Bool :=
  (List.range n).flatMap (fun j => bitsMsb 8 (Memory.read m (k + j)).toNat)

/-- STREAM (40 R110): the bits of the flushed bytes, then the unflushed bits, the oldest first. -/
def streamBits (st : Stream) : List Bool :=
  byteBits st.bs 0 st.bspos ++ bitsMsb st.accn st.acc.toNat

/-- What one APPEND of n bits does to the cursor (BSPOS, ACCN): whole bytes are flushed first when
ACCN + n > 63 (40 R111, R112). -/
def appendCursor (c : Nat × Nat) (n : Nat) : Nat × Nat :=
  if 63 < c.2 + n then (c.1 + c.2 / 8, c.2 % 8 + n) else (c.1, c.2 + n)

/-- Commands run one after the other by their meanings, stopping at an outcome that is no next state. -/
def runCmds : List Instr → State → Host.Outcome State Fault Refusal
  | [], s => .next s
  | i :: is, s =>
    match exec i s with
    | .next t => runCmds is t
    | .fault r => .fault r
    | .refused r => .refused r

/-- A run of n steps that stops at no refused access. -/
def safeRun (n : Nat) (s : State) : Prop :=
  ∃ t, Host.Core.run ⟨State, Fault, Refusal, step, State.reset⟩ n s = .next t

end Sys2Proof.Machine
end

