-- ==== Sys2Proof/WellFormed.lean ====
section
/-! DEFINITION. Which decoded commands hold legal operand fields (30 R95, R98, R99 step 3). A command
that is not well formed still decodes, and its meaning takes the fault BAD_OPERAND. -/

namespace Sys2Proof

/-- QDELTA's legal deltas are -2, -1, 0, +1 and +2 (30 R95). -/
def deltaLegal (dq : BitVec 3) : Bool := decide (-2 ≤ dq.toInt ∧ dq.toInt ≤ 2)

/-- PUTBITS writes at most 32 bits (30 R98). -/
def putWidthLegal (nb : BitVec 6) : Bool := decide (nb.toNat ≤ 32)

/-- The operand-field check of 30 R99, step 3, as a check on the command. -/
def Instr.wf : Instr → Bool
  | .putbits _ nb _ => putWidthLegal nb
  | .qdelta _ dq _ => deltaLegal dq
  | .nop _ _ => true
  | .framebegin _ _ => true
  | .mbbegin _ _ _ => true
  | .bsreset _ _ => true
  | .putzero _ _ _ => true
  | .padbyte _ _ => true
  | .finish _ _ => true
  | .qset _ _ _ => true
  | .qnext _ _ => true
  | .qintra _ _ _ _ _ => true
  | .qinter _ _ _ _ => true
  | .dqintra _ _ _ _ _ => true
  | .dqinter _ _ _ _ => true
  | .cbpcalc _ _ _ => true
  | .fdct _ _ _ _ => true
  | .idct _ _ _ _ => true
  | .copy _ _ _ _ => true
  | .acdcpred _ _ => true
  | .mvset _ _ _ _ => true
  | .mvset4 _ _ _ => true
  | .mvpred _ _ _ => true

end Sys2Proof
end

