-- ==== Sys2Proof/Certificates/Slice0/Obligations.lean ====
section
/-! DEFINITION. The statements about the model, from the numbered rules of spec/. A frame is written as an
equation of states: the next state is the one before with the named fields replaced, so every other field
is unchanged. Names such as 43 R176 are spec/43_predictor.md rule R176. -/

open Sys2Proof Sys2Proof.Machine

/-! ### Encoding -/

/-- Decoding the two words of a command gives the command back: no bit of an operand is dropped. -/
def Obligations.DecodeOfEncodeIsIdentity : Prop :=
  ∀ i : Instr, decode i.cmdWord i.argWord = .ok i

/-- Two words that decode are the words of the command they decode to. The command word is that of the
formats (30 R91, R101). That the argument word comes back for a command that ignores it, so that each command
has one encoding, is the model's choice (log 10): the spec lets any argument word stand there. -/
def Obligations.EncodeOfDecodeIsIdentity : Prop :=
  ∀ (cmd arg : Word) (i : Instr), decode cmd arg = .ok i → i.cmdWord = cmd ∧ i.argWord = arg

/-- 30 R101: the match and mask of every row, and that a word decodes to a row's command exactly when it
matches the row. -/
def Obligations.WordDecodesToRowExactlyWhenItMatches : Prop :=
  (Mnemonic.all.map fun m => (m.matchBits, m.maskBits)) =
    [(0x00000000#32, 0xFDFFFFFF#32), (0x04000000#32, 0xFDFFFFFF#32), (0x08000000#32, 0xFDFFFFFF#32),
     (0x10000000#32, 0xFDFFFFFF#32), (0x14000000#32, 0xFDFFFFC0#32), (0x18000000#32, 0xFDFFFF00#32),
     (0x1C000000#32, 0xFDFFFFFF#32), (0x20000000#32, 0xFDFFFFFF#32), (0x40000000#32, 0xFDFFFFE0#32),
     (0x44000000#32, 0xFDFFFFF8#32), (0x48000000#32, 0xFDFFFFFF#32), (0x4C000000#32, 0xFDFFFE00#32),
     (0x50000000#32, 0xFDFFFF00#32), (0x54000000#32, 0xFDFFFE00#32), (0x58000000#32, 0xFDFFFF00#32),
     (0x5C000000#32, 0xFDFFFFFE#32), (0x80000000#32, 0xFDFFFF00#32), (0x84000000#32, 0xFDFFFF00#32),
     (0x88000000#32, 0xFDFFFF00#32), (0xC0000000#32, 0xFDFFFFFF#32), (0xC4000000#32, 0xFDFFFFFC#32),
     (0xC8000000#32, 0xFDFFFFFF#32), (0xCC000000#32, 0xFDFFFFFC#32)] ∧
  (∀ m : Mnemonic, m.maskBits = 0xFC000000#32 ||| m.fmt.reserved ∧
    m.matchBits = m.opcode.setWidth 32 <<< 26) ∧
  (∀ (cmd arg : Word) (m : Mnemonic),
    cmd &&& m.maskBits = m.matchBits ↔ ∃ i, decode cmd arg = .ok i ∧ i.mnemonic = m)

/-- 30 R100: the opcode and format columns, and that exactly the opcodes outside the table are illegal. -/
def Obligations.UnassignedOpcodesAreIllegal : Prop :=
  (Mnemonic.all.map fun m => (m.opcode, m.fmt)) =
    [(0x00#6, .n), (0x01#6, .n), (0x02#6, .mb), (0x04#6, .n), (0x05#6, .p), (0x06#6, .z), (0x07#6, .n),
     (0x08#6, .n), (0x10#6, .q5), (0x11#6, .qd), (0x12#6, .n), (0x13#6, .bbc), (0x14#6, .bb),
     (0x15#6, .bbc), (0x16#6, .bb), (0x17#6, .m), (0x20#6, .bb), (0x21#6, .bb), (0x22#6, .bb),
     (0x30#6, .n), (0x31#6, .k), (0x32#6, .n), (0x33#6, .k)] ∧
  (∀ m : Mnemonic, m ∈ Mnemonic.all) ∧
  ∀ cmd arg : Word, decode cmd arg = .error .illegalOpcode ↔
    (opField cmd = 0x03#6 ∨ (0x09#6 ≤ opField cmd ∧ opField cmd ≤ 0x0F#6) ∨
      (0x18#6 ≤ opField cmd ∧ opField cmd ≤ 0x1F#6) ∨ (0x23#6 ≤ opField cmd ∧ opField cmd ≤ 0x2F#6) ∨
      0x34#6 ≤ opField cmd)

/-- 30 R99: the checks of a command come in the order opcode, reserved bits, operand field, and the first
that applies is the fault taken; otherwise the command executes. -/
def Obligations.CommandChecksComeInOrder : Prop :=
  ∀ (cmd arg : Word) (s : State),
    ((∀ m : Mnemonic, m.opcode ≠ opField cmd) →
      runCmd ⟨cmd, arg⟩ s = .next { s with
        flt := ⟨true, some .illegalOpcode, cmd, arg⟩, irqPend := s.irqPend ||| 0b0010 }) ∧
    (∀ m : Mnemonic, m.opcode = opField cmd →
      (cmd &&& m.fmt.reserved ≠ 0 →
        runCmd ⟨cmd, arg⟩ s = .next { s with
          flt := ⟨true, some .reservedField, cmd, arg⟩, irqPend := s.irqPend ||| 0b0010 }) ∧
      (cmd &&& m.fmt.reserved = 0 →
        ∃ i, decode cmd arg = .ok i ∧ i.mnemonic = m ∧ runCmd ⟨cmd, arg⟩ s = exec i s ∧
          (i.wf = false → exec i s = .next { s with
            flt := ⟨true, some .badOperand, cmd, arg⟩, irqPend := s.irqPend ||| 0b0010 })))

/-- A command word of each family, written out bit by bit from 30 R91 to R98, decodes to its command. -/
def Obligations.WrittenWordsDecode : Prop :=
  decode 0b000010_0_0000000000000000000000000#32 0b0000000000000001_0000000000000010#32
    = .ok (.mbbegin false 2 1) ∧
  decode 0b000101_0_0000000000000000000_100000#32 0xDEADBEEF#32 = .ok (.putbits false 32 0xDEADBEEF) ∧
  decode 0b010001_1_0000000000000000000000_110#32 0#32 = .ok (.qdelta true (-2) 0) ∧
  decode 0b010101_0_0000000000000000_1_1100_0100#32 0#32 = .ok (.dqintra false 12 4 .chroma 0) ∧
  decode 0b010111_0_000000000000000000000000_1#32 0#32 = .ok (.cbpcalc false .intra 0) ∧
  decode 0b100000_0_00000000000000000_0001_0000#32 0#32 = .ok (.fdct false 1 0 0) ∧
  decode 0b110001_0_00000000000000000000000_11#32 0b0000000000001000_1111111111111110#32
    = .ok (.mvset false 3 (-2) 8)

/-! ### The step -/

/-- 44 R203, 20 R70: when the engine goes, the head of the queue is removed and the command it decodes to
runs; a word that does not decode takes its decode fault. The engine goes when it is not halted, the queue
holds a command, and the host has nothing left or the schedule does not name the host. -/
def Obligations.StepRunsDecodedCommand : Prop :=
  ∀ (s : State) (c : Cmd) (rest : List Cmd), s.flt.halted = false → s.cq = c :: rest →
    (s.host.agenda = [] ∨ s.host.sched.headD .engine = .engine) →
    let s1 : State := { s with
      cq := rest
      host := if s.host.agenda = [] then s.host else { s.host with sched := s.host.sched.tail } }
    (∀ i, decode c.cmd c.arg = .ok i → step s = exec i s1) ∧
    (∀ code, decode c.cmd c.arg = .error code → step s = .next { s1 with
      flt := ⟨true, some code, c.cmd, c.arg⟩, irqPend := s.irqPend ||| 0b0010 })

/-- 20 R71, 60 R214, R235: the host's next action is taken when the engine cannot go or the schedule names
the host, and with neither able to go the step keeps all state. That the order of both agents is the
schedule's is the model's choice (log 7). -/
def Obligations.StepTakesHostActionOrIsIdle : Prop :=
  (∀ (s : State) (a : HostAction) (rest : List HostAction), s.host.agenda = a :: rest →
    ((s.cq = [] ∨ s.flt.halted = true) →
      step s = hostAct { s with host := { s.host with agenda := rest } } a) ∧
    (s.cq ≠ [] → s.flt.halted = false → s.host.sched.head? = some .host →
      step s = hostAct { s with host := { s.host with agenda := rest, sched := s.host.sched.tail } } a)) ∧
  (∀ s : State, s.host.agenda = [] → (s.cq = [] ∨ s.flt.halted = true) → step s = .next s)

/-- 60 R211: a command that faults has no effect but the fault record, HALTED and IRQ_PEND.FAULT; it is
removed from the queue, the commands behind it stay, and DONE is not set. Said of every engine step from a
state that is not halted; the host's choice it uses up is as in `StepRunsDecodedCommand`. -/
def Obligations.FaultsArePrecise : Prop :=
  ∀ (s t : State) (c : Cmd) (rest : List Cmd), s.flt.halted = false → s.cq = c :: rest →
    (s.host.agenda = [] ∨ s.host.sched.headD .engine = .engine) → step s = .next t → t.flt.halted = true →
    ∃ code, t = { s with
      cq := rest
      host := if s.host.agenda = [] then s.host else { s.host with sched := s.host.sched.tail }
      flt := ⟨true, some code, c.cmd, c.arg⟩
      irqPend := s.irqPend ||| 0b0010 }

/-- 60 R220, 44 R203: a command that completes leaves the fault record alone and sets DONE exactly when
I = 1; it touches no other pending bit. -/
def Obligations.CompletionSetsDoneExactlyWhenAsked : Prop :=
  ∀ (i : Instr) (s t : State), s.flt.halted = false → exec i s = .next t → t.flt.halted = false →
    t.flt = s.flt ∧ t.irqPend = donePend i.irq s

/-- 44 R203: every command's execution ends in a next state; the model stops on no command. -/
def Obligations.EveryCommandEndsInNextState : Prop :=
  ∀ (i : Instr) (s : State), ∃ t, exec i s = .next t

/-! ### What no command changes -/

/-- 10 R39, R40, R42, R46: no command changes ARG, the queue behind it, the weight tables, IRQ_EN, the
configuration or the host side. -/
def Obligations.CommandsKeepTablesLatchAndQueue : Prop :=
  ∀ (i : Instr) (s t : State), exec i s = .next t →
    t.arg = s.arg ∧ t.cq = s.cq ∧ t.wi = s.wi ∧ t.wp = s.wp ∧ t.irqEn = s.irqEn ∧ t.cfg = s.cfg ∧
    t.host = s.host

/-- 41 R130, 10 R29: only QSET, QDELTA and QNEXT write Q, and only MBBEGIN moves the current macroblock. -/
def Obligations.OnlyNamedCommandsWriteQuantizerAndPosition : Prop :=
  ∀ (i : Instr) (s t : State), exec i s = .next t →
    (t.q ≠ s.q → i.mnemonic = .qset ∨ i.mnemonic = .qdelta ∨ i.mnemonic = .qnext) ∧
    (t.grid ≠ s.grid → i.mnemonic = .mbbegin)

/-- 10 R30: SAT is sticky. Only the forward quantizers and ACDCPRED set it, and only MBBEGIN clears it. -/
def Obligations.SaturationFlagIsSticky : Prop :=
  ∀ (i : Instr) (s t : State), exec i s = .next t →
    (s.flags.sat = false → t.flags.sat = true →
      i.mnemonic = .qintra ∨ i.mnemonic = .qinter ∨ i.mnemonic = .acdcpred) ∧
    (s.flags.sat = true → t.flags.sat = false → i.mnemonic = .mbbegin)

/-- 40 R120: without BSRESET, BSPOS never falls and no command writes a byte below it. -/
def Obligations.FlushedBytesAreFinal : Prop :=
  ∀ (i : Instr) (s t : State), StreamOk s.cfg.bsCap s.strm → BufferOk s.cfg.bsCap s.strm.bs →
    i.mnemonic ≠ .bsreset → exec i s = .next t →
    s.strm.bspos ≤ t.strm.bspos ∧ ∀ k, k < s.strm.bspos → bsAt t k = bsAt s k

/-! ### Control commands -/

/-- 44 R200: NOP has no effect but DONE when I = 1. -/
def Obligations.NopHasNoEffect : Prop :=
  ∀ (irq : Bool) (arg : Word) (s : State),
    exec (.nop irq arg) s = .next { s with irqPend := donePend irq s }

/-- 44 R201: FRAMEBEGIN clears every `valid`, sets every vector to (0, 0), keeps the other history fields
and everything else. -/
def Obligations.FramebeginClearsFrameState : Prop :=
  ∀ (irq : Bool) (arg : Word) (s : State), HistOk s → ∃ t, exec (.framebegin irq arg) s = .next t ∧
    t = { s with hist := t.hist, mvmem := t.mvmem, irqPend := donePend irq s } ∧
    (∀ m, histAt t m = { histAt s m with valid := false }) ∧ (∀ m k, mvAt t m k = ⟨0, 0⟩)

/-- 44 R202: MBBEGIN's two checks in order, and its effect. -/
def Obligations.MbbeginChecksThenSetsPosition : Prop :=
  ∀ (irq : Bool) (x y : BitVec 16) (s : State),
    (s.grid.ok = false → exec (.mbbegin irq x y) s = .next (faulted .noGrid (.mbbegin irq x y) s)) ∧
    (s.grid.ok = true → s.grid.mbw.toNat ≤ x.toNat ∨ s.grid.mbh.toNat ≤ y.toNat →
      exec (.mbbegin irq x y) s = .next (faulted .badOperand (.mbbegin irq x y) s)) ∧
    (s.grid.ok = true → x.toNat < s.grid.mbw.toNat → y.toNat < s.grid.mbh.toNat →
      exec (.mbbegin irq x y) s = .next { s with
        grid := { s.grid with mbx := x, mby := y }
        flags := ⟨false, false, 0, Vector.replicate 6 .none, Vector.replicate 6 .none, 0⟩
        irqPend := donePend irq s })

/-- 60 R212, code 4: without a grid the five commands that need one fault with NO_GRID. -/
def Obligations.NoGridFaults : Prop :=
  ∀ (i : Instr) (s : State), s.grid.ok = false →
    (i.mnemonic = .mbbegin ∨ i.mnemonic = .acdcpred ∨ i.mnemonic = .mvset ∨ i.mnemonic = .mvset4 ∨
      i.mnemonic = .mvpred) → exec i s = .next (faulted .noGrid i s)

/-! ### Bit packer -/

/-- 40 R113: BSRESET clears BSPOS, ACC, ACCN and BSFIN and leaves the bytes and everything else. -/
def Obligations.BsresetClearsCursor : Prop :=
  ∀ (irq : Bool) (arg : Word) (s : State),
    exec (.bsreset irq arg) s = .next { s with
      strm := { s.strm with bspos := 0, acc := 0, accn := 0, bsfin := false }
      irqPend := donePend irq s }

/-- 40 R114, R118, R110 to R112: PUTBITS's checks in order, and then the stream grows by the low n bits of
the value, the most significant first. Whole bytes are flushed exactly when ACCN + n > 63, and only the
flushed bytes of the buffer change. -/
def Obligations.PutbitsAppendsLowBits : Prop :=
  ∀ (irq : Bool) (nb : BitVec 6) (value : Word) (s : State),
    StreamOk s.cfg.bsCap s.strm → BufferOk s.cfg.bsCap s.strm.bs →
    let i : Instr := .putbits irq nb value
    (32 < nb.toNat → exec i s = .next (faulted .badOperand i s)) ∧
    (nb.toNat ≤ 32 → s.strm.bsfin = true → exec i s = .next (faulted .bsFinished i s)) ∧
    (nb.toNat ≤ 32 → s.strm.bsfin = false → 8 * s.cfg.bsCap < streamLen s.strm + nb.toNat →
      exec i s = .next (faulted .bsOverflow i s)) ∧
    (nb.toNat ≤ 32 → s.strm.bsfin = false → streamLen s.strm + nb.toNat ≤ 8 * s.cfg.bsCap →
      ∃ t, exec i s = .next t ∧
        t = { s with strm := { t.strm with bsfin := false }, irqPend := donePend irq s } ∧
        streamBits t.strm = streamBits s.strm ++ bitsMsb nb.toNat value.toNat ∧
        t.strm.bspos = s.strm.bspos + (if 63 < s.strm.accn + nb.toNat then s.strm.accn / 8 else 0) ∧
        streamLen t.strm = streamLen s.strm + nb.toNat ∧
        StreamOk s.cfg.bsCap t.strm ∧
        ∀ k, k < s.strm.bspos ∨ t.strm.bspos ≤ k → bsAt t k = bsAt s k)

/-- 40 R115, R118: PUTZERO's checks are made once for all n bits, and then the stream grows by n zero bits,
appended 32 at a time and then the rest, each piece flushing as APPEND does (40 R112). -/
def Obligations.PutzeroAppendsZeros : Prop :=
  ∀ (irq : Bool) (nz : BitVec 8) (arg : Word) (s : State),
    StreamOk s.cfg.bsCap s.strm → BufferOk s.cfg.bsCap s.strm.bs →
    let i : Instr := .putzero irq nz arg
    (s.strm.bsfin = true → exec i s = .next (faulted .bsFinished i s)) ∧
    (s.strm.bsfin = false → 8 * s.cfg.bsCap < streamLen s.strm + nz.toNat →
      exec i s = .next (faulted .bsOverflow i s)) ∧
    (s.strm.bsfin = false → streamLen s.strm + nz.toNat ≤ 8 * s.cfg.bsCap →
      ∃ t, exec i s = .next t ∧
        t = { s with strm := { t.strm with bsfin := false }, irqPend := donePend irq s } ∧
        streamBits t.strm = streamBits s.strm ++ List.replicate nz.toNat false ∧
        streamLen t.strm = streamLen s.strm + nz.toNat ∧
        (t.strm.bspos, t.strm.accn) = (List.replicate (nz.toNat / 32) 32 ++ [nz.toNat % 32]).foldl
          appendCursor (s.strm.bspos, s.strm.accn) ∧
        StreamOk s.cfg.bsCap t.strm ∧
        ∀ k, k < s.strm.bspos ∨ t.strm.bspos ≤ k → bsAt t k = bsAt s k)

/-- 40 R116, R112: PADBYTE faults on a finished stream; otherwise it appends the least number of zero bits that
ends the stream on a byte boundary, flushing first exactly when ACCN and the padding exceed 63. It cannot
overflow. -/
def Obligations.PadbyteEndsOnByteBoundary : Prop :=
  ∀ (irq : Bool) (arg : Word) (s : State),
    StreamOk s.cfg.bsCap s.strm → BufferOk s.cfg.bsCap s.strm.bs →
    (s.strm.bsfin = true → exec (.padbyte irq arg) s = .next (faulted .bsFinished (.padbyte irq arg) s)) ∧
    (s.strm.bsfin = false → ∃ (t : State) (p : Nat), exec (.padbyte irq arg) s = .next t ∧ p ≤ 7 ∧
      t = { s with strm := { t.strm with bsfin := false }, irqPend := donePend irq s } ∧
      streamBits t.strm = streamBits s.strm ++ List.replicate p false ∧
      streamLen t.strm = streamLen s.strm + p ∧ streamLen t.strm % 8 = 0 ∧
      t.strm.bspos = s.strm.bspos + (if 63 < s.strm.accn + p then s.strm.accn / 8 else 0) ∧
      StreamOk s.cfg.bsCap t.strm ∧
      ∀ k, k < s.strm.bspos ∨ t.strm.bspos ≤ k → bsAt t k = bsAt s k)

/-- 40 R117: FINISH pads to a byte, flushes everything and sets BSFIN; the byte count is the stream's length
in bytes, rounded up. A second FINISH has no effect. -/
def Obligations.FinishFlushesEverything : Prop :=
  ∀ (irq : Bool) (arg : Word) (s : State),
    StreamOk s.cfg.bsCap s.strm → BufferOk s.cfg.bsCap s.strm.bs →
    (s.strm.bsfin = true → exec (.finish irq arg) s = .next { s with irqPend := donePend irq s }) ∧
    (s.strm.bsfin = false → ∃ (t : State) (p : Nat), exec (.finish irq arg) s = .next t ∧ p ≤ 7 ∧
      t = { s with strm := ⟨t.strm.bs, (streamLen s.strm + 7) / 8, 0, 0, true⟩, irqPend := donePend irq s } ∧
      byteBits t.strm.bs 0 t.strm.bspos = streamBits s.strm ++ List.replicate p false ∧
      ∀ k, k < s.strm.bspos ∨ t.strm.bspos ≤ k → bsAt t k = bsAt s k)

/-- 40 R119: any sequence of PUTBITS with widths 1..32 from a BSRESET state, followed by FINISH, without
fault (the bits fit the buffer): the bytes read back most significant bit first are the low bits of each
value in order, followed by the zero bits that fill the last byte. -/
def Obligations.BitstreamRoundTrip : Prop :=
  ∀ (s : State) (ps : List (BitVec 6 × Word)), BufferOk s.cfg.bsCap s.strm.bs →
    (∀ p ∈ ps, 1 ≤ p.1.toNat ∧ p.1.toNat ≤ 32) →
    (ps.map fun p => p.1.toNat).sum ≤ 8 * s.cfg.bsCap →
    ∃ t, runCmds (.bsreset false 0 :: (ps.map fun p => .putbits false p.1 p.2) ++ [.finish false 0]) s
        = .next t ∧ t.flt = s.flt ∧
      byteBits t.strm.bs 0 t.strm.bspos =
        (ps.flatMap fun p => bitsMsb p.1.toNat p.2.toNat) ++
        List.replicate ((8 - (ps.map fun p => p.1.toNat).sum % 8) % 8) false

/-! ### Quantizer -/

/-- 41 R136, R137: QSET clamps its value, QDELTA the sum with its signed delta, into 1..31; an illegal
delta faults and leaves Q. -/
def Obligations.QsetAndQdeltaClamp : Prop :=
  (∀ (irq : Bool) (v : BitVec 5) (arg : Word) (s : State), ∃ t, exec (.qset irq v arg) s = .next t ∧
    t = { s with q := t.q, irqPend := donePend irq s } ∧ t.q.toNat = min (max v.toNat 1) 31) ∧
  (∀ (irq : Bool) (dq : BitVec 3) (arg : Word) (s : State),
    ((dq = 0b011 ∨ dq = 0b100 ∨ dq = 0b101) →
      exec (.qdelta irq dq arg) s = .next (faulted .badOperand (.qdelta irq dq arg) s)) ∧
    (dq ≠ 0b011 → dq ≠ 0b100 → dq ≠ 0b101 → ∃ t, exec (.qdelta irq dq arg) s = .next t ∧
      t = { s with q := t.q, irqPend := donePend irq s } ∧
      (t.q.toNat : Int) = min (max (s.q.toNat + dq.toInt) 1) 31))

/-- 41 R138, R131: QNEXT goes to the least ladder entry above Q, and 31 stays 31. -/
def Obligations.QnextGoesToNextLadderEntry : Prop :=
  ∀ (irq : Bool) (arg : Word) (s : State), Config.LegalLadder s.cfg.qladder →
    ∃ t, exec (.qnext irq arg) s = .next t ∧ t = { s with q := t.q, irqPend := donePend irq s } ∧
      (s.q.toNat = 31 → t.q.toNat = 31) ∧
      (s.q.toNat < 31 → t.q.toNat ∈ s.cfg.qladder ∧ s.q.toNat < t.q.toNat ∧
        ∀ l ∈ s.cfg.qladder, s.q.toNat < l → t.q.toNat ≤ l)

/-- 41 R143: from any Q at most `length(QLADDER)` QNEXT commands reach Q = 31, and Q strictly increases
until then. -/
def Obligations.LadderRetryTerminates : Prop :=
  ∀ s : State, Config.LegalLadder s.cfg.qladder → QuantOk s →
    (∃ n t, n ≤ s.cfg.qladder.length ∧ runCmds (List.replicate n (.qnext false 0)) s = .next t ∧
      t.q.toNat = 31) ∧
    (∀ n t u, runCmds (List.replicate n (.qnext false 0)) s = .next t → t.q.toNat ≠ 31 →
      exec (.qnext false 0) t = .next u → t.q.toNat < u.q.toNat)

/-- 41 R134: QINTRA's levels, QSUM and SAT. The DC is divided by the DC step and rounded half away from
zero; an AC below 2q is 0 and any other is divided by W q / 8 and truncated, its sign kept. -/
def Obligations.QintraQuantizes : Prop :=
  ∀ (irq : Bool) (d src : BlkIx) (role : Role) (arg : Word) (s : State),
    let q : Int := s.q.toNat
    let dcs : Int := dcScaler s.cfg s.q.toNat role
    let x := fun i : Fin 64 => coef s src i
    let w := fun i : Fin 64 => ((s.wi[i]).toNat : Int)
    ∃ t, exec (.qintra irq d src role arg) s = .next t ∧
      t = { s with
        blk := s.blk.set d t.blk[d]
        flags := { s.flags with sat := t.flags.sat, qsum := t.flags.qsum }
        irqPend := donePend irq s } ∧
      coef t d 0 = min (max (divRound (x 0) dcs) (-2047)) 2047 ∧
      (∀ i, i ≠ 0 → |x i| < 2 * q → coef t d i = 0) ∧
      (∀ i, i ≠ 0 → 2 * q ≤ |x i| → coef t d i = (x i).sign * min (8 * |x i| / (w i * q)) 2047) ∧
      (t.flags.qsum.toNat : Int) = ∑ i : Fin 64, (if i = 0 then 0 else |coef t d i|) ∧
      (t.flags.sat = true ↔ s.flags.sat = true ∨
        (2047 < |divRound (x 0) dcs| ∨ 2047 < coef t d 0 * dcs ∨ coef t d 0 * dcs < -2048) ∨
        ∃ i, i ≠ 0 ∧ 2 * q ≤ |x i| ∧ (2047 < 8 * |x i| / (w i * q) ∨
          (0 < |coef t d i| ∧ ((0 < x i ∧ 2047 < |coef t d i| * w i * q / 8) ∨
            (x i < 0 ∧ 2048 < |coef t d i| * w i * q / 8)))))

/-- 41 R135: QINTER's levels, QSUM and SAT: the AC rule for all 64 coefficients after the dead-zone offset
of half the quantizer. -/
def Obligations.QinterQuantizes : Prop :=
  ∀ (irq : Bool) (d src : BlkIx) (arg : Word) (s : State),
    let q : Int := s.q.toNat
    let x := fun i : Fin 64 => coef s src i
    let a := fun i : Fin 64 => |coef s src i| - (s.q.toNat : Int) / 2
    let w := fun i : Fin 64 => ((s.wp[i]).toNat : Int)
    ∃ t, exec (.qinter irq d src arg) s = .next t ∧
      t = { s with
        blk := s.blk.set d t.blk[d]
        flags := { s.flags with sat := t.flags.sat, qsum := t.flags.qsum }
        irqPend := donePend irq s } ∧
      (∀ i, a i < 2 * q → coef t d i = 0) ∧
      (∀ i, 2 * q ≤ a i → coef t d i = (x i).sign * min (8 * a i / (w i * q)) 2047) ∧
      (t.flags.qsum.toNat : Int) = ∑ i : Fin 64, |coef t d i| ∧
      (t.flags.sat = true ↔ s.flags.sat = true ∨
        ∃ i, 2 * q ≤ a i ∧ (2047 < 8 * a i / (w i * q) ∨
          (0 < |coef t d i| ∧ ((0 < x i ∧ 2047 < (2 * |coef t d i| + 1) * w i * q / 16) ∨
            (x i < 0 ∧ 2048 < (2 * |coef t d i| + 1) * w i * q / 16)))))

/-- 41 R140, R142: DQINTRA multiplies back with the same step, clamps, and toggles bit 0 of coefficient 63
when the sum of the 64 values is even. F is the block before mismatch control. -/
def Obligations.DqintraReconstructs : Prop :=
  ∀ (irq : Bool) (d src : BlkIx) (role : Role) (arg : Word) (s : State),
    let l := fun i : Fin 64 => coef s src i
    ∃ (t : State) (f : Fin 64 → Int), exec (.dqintra irq d src role arg) s = .next t ∧
      t = { s with blk := s.blk.set d t.blk[d], irqPend := donePend irq s } ∧
      f 0 = min (max (l 0 * dcScaler s.cfg s.q.toNat role) (-2048)) 2047 ∧
      (∀ i, i ≠ 0 → l i = 0 → f i = 0) ∧
      (∀ i, i ≠ 0 → 0 < l i → f i = min (l i * (s.wi[i]).toNat * s.q.toNat / 8) 2047) ∧
      (∀ i, i ≠ 0 → l i < 0 → f i = -min (-(l i) * (s.wi[i]).toNat * s.q.toNat / 8) 2048) ∧
      (∀ i, i ≠ 63 → coef t d i = f i) ∧
      coef t d 63 = (if (∑ i, f i) % 2 ≠ 0 then f 63 else if f 63 % 2 = 0 then f 63 + 1 else f 63 - 1)

/-- 41 R141, R142: DQINTER reconstructs to the middle of the step, clamps, and applies mismatch control. -/
def Obligations.DqinterReconstructs : Prop :=
  ∀ (irq : Bool) (d src : BlkIx) (arg : Word) (s : State),
    let l := fun i : Fin 64 => coef s src i
    ∃ (t : State) (f : Fin 64 → Int), exec (.dqinter irq d src arg) s = .next t ∧
      t = { s with blk := s.blk.set d t.blk[d], irqPend := donePend irq s } ∧
      (∀ i, l i = 0 → f i = 0) ∧
      (∀ i, 0 < l i → f i = min ((2 * l i + 1) * (s.wp[i]).toNat * s.q.toNat / 16) 2047) ∧
      (∀ i, l i < 0 → f i = -min ((2 * -(l i) + 1) * (s.wp[i]).toNat * s.q.toNat / 16) 2048) ∧
      (∀ i, i ≠ 63 → coef t d i = f i) ∧
      coef t d 63 = (if (∑ i, f i) % 2 ≠ 0 then f 63 else if f 63 % 2 = 0 then f 63 + 1 else f 63 - 1)

/-- 41 R142: after either inverse command the sum of the 64 outputs is odd, and every output is in
[-2048, 2047]. -/
def Obligations.InverseOutputsSumToOdd : Prop :=
  ∀ (i : Instr) (irq : Bool) (d src : BlkIx) (role : Role) (arg : Word) (s : State),
    i = .dqintra irq d src role arg ∨ i = .dqinter irq d src arg →
    ∃ t, exec i s = .next t ∧ (∑ n : Fin 64, coef t d n) % 2 = 1 ∧
      ∀ n, -2048 ≤ coef t d n ∧ coef t d n ≤ 2047

/-- 41 R139: CBPCALC sets bit j exactly when block j holds a coefficient other than 0, the DC left out under
the intra rule, and changes nothing else. -/
def Obligations.CbpcalcFlagsCodedBlocks : Prop :=
  ∀ (irq : Bool) (mode : CbpMode) (arg : Word) (s : State), ∃ t, exec (.cbpcalc irq mode arg) s = .next t ∧
    t = { s with flags := { s.flags with cbp := t.flags.cbp }, irqPend := donePend irq s } ∧
    ∀ j : MbBlk, t.flags.cbp.getLsbD j.val = true ↔
      ∃ i : Fin 64, (mode = .intra → i ≠ 0) ∧ coef s (mbBuf j) i ≠ 0

/-! ### Transform -/

/-- 42 R162, R161: FDCT is one exact double sum over the basis table, one rounding half away from zero by
2^28 and one clamp to [-2048, 2047]. -/
def Obligations.FdctRoundsOneExactSum : Prop :=
  ∀ (irq : Bool) (d src : BlkIx) (arg : Word) (s : State), ∃ t, exec (.fdct irq d src arg) s = .next t ∧
    t = { s with blk := s.blk.set d t.blk[d], irqPend := donePend irq s } ∧
    ∀ u v : Fin 8,
      let p : Int := ∑ r : Fin 8, ∑ c : Fin 8, basisT u r * coef s src (rcIndex r c) * basisT v c
      coef t d (rcIndex u v) = min (max (p.sign * ((|p| + 2 ^ 27) / 2 ^ 28)) (-2048)) 2047

/-- 42 R163, R161: IDCT is one exact double sum, one rounding and one clamp to [-256, 255]. -/
def Obligations.IdctRoundsOneExactSum : Prop :=
  ∀ (irq : Bool) (d src : BlkIx) (arg : Word) (s : State), ∃ t, exec (.idct irq d src arg) s = .next t ∧
    t = { s with blk := s.blk.set d t.blk[d], irqPend := donePend irq s } ∧
    ∀ r c : Fin 8,
      let p : Int := ∑ u : Fin 8, ∑ v : Fin 8, basisT u r * coef s src (rcIndex u v) * basisT v c
      coef t d (rcIndex r c) = min (max (p.sign * ((|p| + 2 ^ 27) / 2 ^ 28)) (-256)) 255

/-- 42 R164: COPY makes the destination equal to the source and changes nothing else. -/
def Obligations.CopyCopiesBlock : Prop :=
  ∀ (irq : Bool) (d src : BlkIx) (arg : Word) (s : State), ∃ t, exec (.copy irq d src arg) s = .next t ∧
    t = { s with blk := t.blk, irqPend := donePend irq s } ∧ t.blk[d] = s.blk[src] ∧
    ∀ b, b ≠ d → t.blk[b] = s.blk[b]

/-- 42 R165: a flat block of a 9-bit value v transforms to the DC 8 v alone; for 128 the DC is 1024. -/
def Obligations.FlatBlockHasOnlyDc : Prop :=
  ∀ (irq : Bool) (d src : BlkIx) (arg : Word) (s t : State) (v : Int), |v| ≤ 255 →
    (∀ i, coef s src i = v) → exec (.fdct irq d src arg) s = .next t →
    coef t d 0 = 8 * v ∧ ∀ i, i ≠ 0 → coef t d i = 0

/-- 42 R161: every intermediate and final sum of the two transforms fits a 48-bit signed accumulator for any
s16 inputs. `p` and `k` are any sets of terms, so a partial sum in any order is covered: of the 64 products of an
output (which are also the second pass of a separable computation when a row or a column is whole), and of
the first pass of a separable computation, by rows or by columns. -/
def Obligations.TransformSumsFitAccumulator : Prop :=
  ∀ (s : State) (b : BlkIx) (m n : Fin 8) (p : Finset (Fin 8 × Fin 8)) (k : Finset (Fin 8)),
    let fits := fun v : Int => -2 ^ 47 ≤ v ∧ v < 2 ^ 47
    fits (fdctSum (coef s b) m n) ∧ fits (idctSum (coef s b) m n) ∧
    fits (∑ a ∈ p, basisT m a.1 * coef s b (rcIndex a.1 a.2) * basisT n a.2) ∧
    fits (∑ a ∈ p, basisT a.1 m * coef s b (rcIndex a.1 a.2) * basisT a.2 n) ∧
    fits (∑ c ∈ k, coef s b (rcIndex m c) * basisT n c) ∧
    fits (∑ r ∈ k, basisT m r * coef s b (rcIndex r n)) ∧
    fits (∑ v ∈ k, coef s b (rcIndex m v) * basisT v n) ∧
    fits (∑ u ∈ k, basisT u m * coef s b (rcIndex u n))

/-! ### Predictor -/

/-- 43 R176, R177, R178, R183: the macroblock's own records (OWN), the neighbour table and the candidate table,
entry by entry, and what a position outside the grid or not intra-coded gives. -/
def Obligations.NeighbourTablesFollowTheSpec : Prop :=
  ∀ s : State,
    let x : Int := s.grid.mbx.toNat
    let y : Int := s.grid.mby.toNat
    let w : Int := s.grid.mbw.toNat
    let h : Int := s.grid.mbh.toNat
    (∀ mx my b, 0 ≤ mx → mx < w → 0 ≤ my → my < h → (histAt s (my * w + mx).toNat).valid = true →
      histRec s mx my b = ⟨(histAt s (my * w + mx).toNat).blocks[b], (histAt s (my * w + mx).toNat).hq⟩) ∧
    (∀ mx my b, ¬(0 ≤ mx ∧ mx < w ∧ 0 ≤ my ∧ my < h ∧ (histAt s (my * w + mx).toNat).valid = true) →
      histRec s mx my b = ⟨⟨1024, Vector.replicate 7 0, Vector.replicate 7 0⟩, s.q⟩) ∧
    (∀ j : MbBlk, (ownRec s j).q = s.q ∧
      (ownRec s j).blk.dc.toInt = min (max (coef s (mbBuf j) 0 *
        dcScaler s.cfg s.q.toNat (if j.val < 4 then .luma else .chroma)) (-2048)) 2047 ∧
      ∀ n : Fin 7, (ownRec s j).blk.row[n] = s.blk[mbBuf j][Fin.ofNat 64 (n.val + 1)] ∧
        (ownRec s j).blk.col[n] = s.blk[mbBuf j][Fin.ofNat 64 (8 * (n.val + 1))]) ∧
    neigh s 0 = ⟨histRec s (x - 1) y 1, histRec s (x - 1) (y - 1) 3, histRec s x (y - 1) 2⟩ ∧
    neigh s 1 = ⟨ownRec s 0, histRec s x (y - 1) 2, histRec s x (y - 1) 3⟩ ∧
    neigh s 2 = ⟨histRec s (x - 1) y 3, histRec s (x - 1) y 1, ownRec s 0⟩ ∧
    neigh s 3 = ⟨ownRec s 2, ownRec s 0, ownRec s 1⟩ ∧
    (∀ j : MbBlk, 4 ≤ j.val → neigh s j =
      ⟨histRec s (x - 1) y j, histRec s (x - 1) (y - 1) j, histRec s x (y - 1) j⟩) ∧
    (∀ mx my b, 0 ≤ mx → mx < w → 0 ≤ my → my < h → candAt s mx my b = ⟨mvAt s (my * w + mx).toNat b, true⟩) ∧
    (∀ mx my b, ¬(0 ≤ mx ∧ mx < w ∧ 0 ≤ my ∧ my < h) → candAt s mx my b = ⟨⟨0, 0⟩, false⟩) ∧
    (∀ b, ownCand s b = ⟨mvAt s (y * w + x).toNat b, true⟩) ∧
    mvCand s 0 = ⟨candAt s (x - 1) y 1, candAt s x (y - 1) 2, candAt s (x + 1) (y - 1) 2⟩ ∧
    mvCand s 1 = ⟨ownCand s 0, candAt s x (y - 1) 3, candAt s (x + 1) (y - 1) 2⟩ ∧
    mvCand s 2 = ⟨candAt s (x - 1) y 3, ownCand s 0, ownCand s 1⟩ ∧
    mvCand s 3 = ⟨ownCand s 2, ownCand s 0, ownCand s 1⟩

/-- 43 R176, R179: ACDCPRED's residuals, flags and frame. The neighbours are `neigh s j` (43 R178). `vert j`
is the direction test, `p j` the record predicted from, `pos j n` the candidate positions, `ra j n` the
candidate residual, `gain` the total magnitude without AC prediction minus the total with it. -/
def Obligations.AcdcpredPredictsMacroblock : Prop :=
  ∀ (irq : Bool) (arg : Word) (s : State), s.grid.ok = true →
    let q : Int := s.q.toNat
    let l := fun (j : MbBlk) (i : Fin 64) => coef s (mbBuf j) i
    let dcs := fun j : MbBlk => (dcScaler s.cfg s.q.toNat (if j.val < 4 then .luma else .chroma) : Int)
    let vert := fun j : MbBlk => decide (|(neigh s j).a.blk.dc.toInt - (neigh s j).b.blk.dc.toInt| <
      |(neigh s j).b.blk.dc.toInt - (neigh s j).c.blk.dc.toInt|)
    let p := fun j : MbBlk => if vert j then (neigh s j).c else (neigh s j).a
    let pos := fun (j : MbBlk) (n : Fin 7) =>
      if vert j then Fin.ofNat 64 (n.val + 1) else Fin.ofNat 64 (8 * (n.val + 1))
    let pv := fun (j : MbBlk) (n : Fin 7) =>
      if vert j then ((p j).blk.row[n]).toInt else ((p j).blk.col[n]).toInt
    let ra := fun (j : MbBlk) (n : Fin 7) => l j (pos j n) - divRound (pv j n * (p j).q.toNat) q
    let gain := ∑ j : MbBlk, ∑ n : Fin 7, (|l j (pos j n)| - |ra j n|)
    ∃ (t : State) (r : MbBlk → Fin 64 → Int), exec (.acdcpred irq arg) s = .next t ∧
      t = { s with
        blk := t.blk
        hist := t.hist
        flags := { t.flags with qsum := s.flags.qsum }
        irqPend := donePend irq s } ∧
      (∀ b : BlkIx, 6 ≤ b.val → t.blk[b] = s.blk[b]) ∧
      (∀ j, r j 0 = l j 0 - divRound (p j).blk.dc.toInt (dcs j)) ∧
      (∀ j n, r j (pos j n) = if 0 ≤ gain then ra j n else l j (pos j n)) ∧
      (∀ j i, i ≠ 0 → (∀ n, pos j n ≠ i) → r j i = l j i) ∧
      (∀ j i, coef t (mbBuf j) i = min (max (r j i) (-2047)) 2047) ∧
      (t.flags.sat = true ↔ s.flags.sat = true ∨ ∃ j i, 2047 < |r j i|) ∧
      (t.flags.acpred = true ↔ 0 ≤ gain) ∧
      (∀ j : MbBlk, t.flags.pdir[j] = if vert j then .vert else .horz) ∧
      (∀ j : MbBlk, t.flags.acdir[j] = if 0 ≤ gain then t.flags.pdir[j] else .none) ∧
      (∀ j : MbBlk, t.flags.cbp.getLsbD j.val = true ↔ ∃ i, i ≠ 0 ∧ coef t (mbBuf j) i ≠ 0)

/-- 43 R176, R177: ACDCPRED saves the macroblock's own unpredicted history whatever the AC decision: the
reconstructed DC, the first row and column of levels and Q; and no other entry changes. -/
def Obligations.AcdcpredSavesUnpredictedHistory : Prop :=
  ∀ (irq : Bool) (arg : Word) (s : State), s.grid.ok = true → HistOk s →
    ∃ t, exec (.acdcpred irq arg) s = .next t ∧
      (histAt t (curMb s)).valid = true ∧ (histAt t (curMb s)).hq = s.q ∧
      (∀ j : MbBlk,
        ((histAt t (curMb s)).blocks[j]).dc.toInt = min (max (coef s (mbBuf j) 0 *
          dcScaler s.cfg s.q.toNat (if j.val < 4 then .luma else .chroma)) (-2048)) 2047 ∧
        ∀ n : Fin 7, ((histAt t (curMb s)).blocks[j]).row[n] = s.blk[mbBuf j][Fin.ofNat 64 (n.val + 1)] ∧
          ((histAt t (curMb s)).blocks[j]).col[n] = s.blk[mbBuf j][Fin.ofNat 64 (8 * (n.val + 1))]) ∧
      ∀ m, m ≠ curMb s → histAt t m = histAt s m

/-- 43 R186: after ACDCPRED either ACDIR equals PDIR in all six blocks or ACDIR is none in all six, as
ACPRED says, and every PDIR is vertical or horizontal; and no command leaves a subset of the blocks
AC-predicted: with ACPRED = 1 every ACDIR is its PDIR, vertical or horizontal, and with ACPRED = 0 every ACDIR
is none. -/
def Obligations.AcPredictionIsMacroblockWide : Prop :=
  (∀ (irq : Bool) (arg : Word) (s : State), s.grid.ok = true → ∃ t, exec (.acdcpred irq arg) s = .next t ∧
    ((t.flags.acpred = true ∧ ∀ j : MbBlk, t.flags.acdir[j] = t.flags.pdir[j]) ∨
      (t.flags.acpred = false ∧ ∀ j : MbBlk, t.flags.acdir[j] = .none)) ∧
    ∀ j : MbBlk, t.flags.pdir[j] = .vert ∨ t.flags.pdir[j] = .horz) ∧
  ∀ (i : Instr) (s t : State), PredOk s.flags → exec i s = .next t → PredOk t.flags

/-- 43 R180, R181: MVSET stores its vector for one sub-block of the current macroblock and MVSET4 for all
four; no other vector changes. -/
def Obligations.MvsetStoresVectors : Prop :=
  ∀ (irq : Bool) (k : SubIx) (x y : BitVec 16) (s : State), s.grid.ok = true → VectorsOk s →
    (∃ t, exec (.mvset irq k x y) s = .next t ∧
      t = { s with mvmem := t.mvmem, irqPend := donePend irq s } ∧ mvAt t (curMb s) k = ⟨x, y⟩ ∧
      ∀ m n, (m, n) ≠ (curMb s, k) → mvAt t m n = mvAt s m n) ∧
    (∃ t, exec (.mvset4 irq x y) s = .next t ∧
      t = { s with mvmem := t.mvmem, irqPend := donePend irq s } ∧ (∀ n, mvAt t (curMb s) n = ⟨x, y⟩) ∧
      ∀ m n, m ≠ curMb s → mvAt t m n = mvAt s m n)

/-- 43 R182, R184: MVPRED predicts the componentwise median of the three candidates (or, with MVP_SINGLE and
one candidate inside the grid, that candidate), and the residual is the stored vector minus the
prediction, not wrapped. -/
def Obligations.MvpredTakesMedian : Prop :=
  ∀ (irq : Bool) (k : SubIx) (arg : Word) (s : State), s.grid.ok = true →
    let c := mvCand s k
    let single := s.cfg.mvpSingle = true ∧ c.c1.inside.toNat + c.c2.inside.toNat + c.c3.inside.toNat = 1
    ∃ t, exec (.mvpred irq k arg) s = .next t ∧
      t = { s with mvout := t.mvout, irqPend := donePend irq s } ∧
      (single → ∀ d : Cand, d = c.c1 ∨ d = c.c2 ∨ d = c.c3 → d.inside = true → t.mvout.mvp = d.v) ∧
      (¬single → t.mvout.mvp.x.toInt = median3 c.c1.v.x.toInt c.c2.v.x.toInt c.c3.v.x.toInt ∧
        t.mvout.mvp.y.toInt = median3 c.c1.v.y.toInt c.c2.v.y.toInt c.c3.v.y.toInt) ∧
      t.mvout.mvdX.toInt = (mvAt s (curMb s) k).x.toInt - t.mvout.mvp.x.toInt ∧
      t.mvout.mvdY.toInt = (mvAt s (curMb s) k).y.toInt - t.mvout.mvp.y.toInt

/-- 43 R185: median3 returns one of its arguments, at least two of them at or below it and at least two at
or above it; and with MVP_SINGLE = false the predicted vector is the componentwise median of the three
candidates. -/
def Obligations.MedianIsMiddleValue : Prop :=
  (∀ a b c : Int,
    (median3 a b c = a ∨ median3 a b c = b ∨ median3 a b c = c) ∧
    ((a ≤ median3 a b c ∧ b ≤ median3 a b c) ∨ (b ≤ median3 a b c ∧ c ≤ median3 a b c) ∨
      (a ≤ median3 a b c ∧ c ≤ median3 a b c)) ∧
    ((median3 a b c ≤ a ∧ median3 a b c ≤ b) ∨ (median3 a b c ≤ b ∧ median3 a b c ≤ c) ∨
      (median3 a b c ≤ a ∧ median3 a b c ≤ c))) ∧
  ∀ (irq : Bool) (k : SubIx) (arg : Word) (s : State), s.grid.ok = true → s.cfg.mvpSingle = false →
    ∃ t, exec (.mvpred irq k arg) s = .next t ∧
      t.mvout.mvp.x.toInt =
        median3 (mvCand s k).c1.v.x.toInt (mvCand s k).c2.v.x.toInt (mvCand s k).c3.v.x.toInt ∧
      t.mvout.mvp.y.toInt =
        median3 (mvCand s k).c1.v.y.toInt (mvCand s k).c2.v.y.toInt (mvCand s k).c3.v.y.toInt

/-! ### The host interface -/

/-- 20 R73, R62: an accepted read answers the word and changes nothing but the record of answers, and a
refused access stops the step with a host-side fault. -/
def Obligations.HostAccessesReadWithoutEffectOrAreRefused : Prop :=
  ∀ (s : State) (off : BitVec 24) (size : AccessSize) (v : Word),
    (size = .b4 → off.toNat % 4 = 0 →
      hostAct s (.read off size) = .next { s with
        host := { s.host with replies := .data (mmioRead s off.toNat) :: s.host.replies } } ∧
      hostAct s (.write off size v) = .next { mmioWrite s off.toNat v with
        host := { (mmioWrite s off.toNat v).host with
          replies := .written :: (mmioWrite s off.toNat v).host.replies } }) ∧
    ((size ≠ .b4 ∨ off.toNat % 4 ≠ 0) →
      hostAct s (.read off size) = .fault (.busError off size) ∧
      hostAct s (.write off size v) = .fault (.busError off size))

/-- 10 R28: an MBDIM write is accepted exactly when both sides are at least 1 and the product is at most
MAX_MB; it then sets the grid and clears the position. Any other write sets CFGERR alone. MBDIM reads back
both sides, and a reset clears them and GRIDOK. -/
def Obligations.MbdimWriteIsAcceptedOrRejected : Prop :=
  ∀ (s : State) (w h : BitVec 16),
    (1 ≤ w.toNat ∧ 1 ≤ h.toNat ∧ w.toNat * h.toNat ≤ s.cfg.maxMb →
      mmioWrite s 0x03C (h ++ w) = { s with grid := ⟨w, h, 0, 0, true⟩ }) ∧
    (¬(1 ≤ w.toNat ∧ 1 ≤ h.toNat ∧ w.toNat * h.toNat ≤ s.cfg.maxMb) →
      mmioWrite s 0x03C (h ++ w) = { s with irqPend := s.irqPend ||| 0b0100 }) ∧
    mmioRead s 0x03C = s.grid.mbh ++ s.grid.mbw ∧ (hardReset s).grid = ⟨0, 0, 0, 0, false⟩

/-- 10 R39, R40: an ARG write sets the latch; a CMD write queues the pair behind the others, or with a full
queue drops it and sets CMDOVF alone. CMD reads 0. -/
def Obligations.CommandWritesQueueInOrder : Prop :=
  ∀ (s : State) (v : Word),
    mmioWrite s 0x030 v = { s with arg := v } ∧ mmioRead s 0x030 = s.arg ∧ mmioRead s 0x034 = 0 ∧
    (s.cq.length < s.cfg.cmdqDepth → mmioWrite s 0x034 v = { s with cq := s.cq ++ [⟨v, s.arg⟩] }) ∧
    (s.cfg.cmdqDepth ≤ s.cq.length → mmioWrite s 0x034 v = { s with irqPend := s.irqPend ||| 0b1000 })

/-- 10 R25, R41, 60 R215: CTRL reads 0. SRST acts alone; otherwise FLUSHQ empties the queue and CLRFLT
clears HALTED and the fault record, each changing nothing else. -/
def Obligations.CtrlWriteActsByField : Prop :=
  ∀ (s : State) (v : Word),
    mmioRead s 0x014 = 0 ∧
    (v.getLsbD 0 = true → mmioWrite s 0x014 v = hardReset s) ∧
    (v.getLsbD 0 = false → mmioWrite s 0x014 v = { s with
      cq := if v.getLsbD 2 then [] else s.cq
      flt := if v.getLsbD 1 then ⟨false, none, 0, 0⟩ else s.flt })

/-- 10 R37, 60 R224: IRQ_EN stores the low 4 bits, a write to IRQ_PEND clears exactly the bits written 1, both
read back zero-extended, and the interrupt line is the OR of the pending bits that are enabled. -/
def Obligations.InterruptRegistersAndLine : Prop :=
  ∀ (s : State) (v : Word),
    mmioWrite s 0x01C v = { s with irqEn := v.setWidth 4 } ∧
    (mmioRead s 0x01C).toNat = s.irqEn.toNat ∧ (mmioRead s 0x020).toNat = s.irqPend.toNat ∧
    (∃ p, mmioWrite s 0x020 v = { s with irqPend := p } ∧
      ∀ b : Nat, b < 4 → p.getLsbD b = (s.irqPend.getLsbD b && !v.getLsbD b)) ∧
    (irqLine s = true ↔ ∃ b : Nat, b < 4 ∧ s.irqPend.getLsbD b = true ∧ s.irqEn.getLsbD b = true)

/-- 10 R26: the fields of STATUS, for a queue within its depth. -/
def Obligations.StatusFieldsReadTheState : Prop :=
  ∀ s : State, s.cfg.cmdqDepth ≤ 255 → QueueOk s →
    let v := mmioRead s 0x018
    v.getLsbD 0 = !s.cq.isEmpty ∧ v.getLsbD 1 = s.flt.halted ∧ v.getLsbD 2 = s.flags.sat ∧
    v.getLsbD 3 = s.flags.acpred ∧ v.getLsbD 4 = s.strm.bsfin ∧ v.getLsbD 5 = s.grid.ok ∧
    (v.extractLsb' 6 2).toNat = 0 ∧ (v.extractLsb' 8 8).toNat = s.cq.length ∧
    (v.extractLsb' 16 8).toNat = s.cfg.cmdqDepth - s.cq.length ∧ (v.extractLsb' 24 8).toNat = 0

/-- 20 R64, R65, R67, R68: a write to the BLK, weight, vector and bitstream windows stores what the rule
says at its place and nowhere else, and reads back. -/
def Obligations.WindowWritesReadBack : Prop :=
  ∀ (s : State) (v : Word),
    (∀ (b : BlkIx) (i : Fin 64),
      mmioWrite s (0x001000 + 0x100 * b.val + 4 * i.val) v
        = { s with blk := s.blk.set b (s.blk[b].set i (v.setWidth 16)) } ∧
      mmioRead s (0x001000 + 0x100 * b.val + 4 * i.val) = (s.blk[b][i]).signExtend 32) ∧
    (∀ i : Fin 64, ∃ e : Byte, e.toNat = (if v.toNat % 256 = 0 then 1 else v.toNat % 256) ∧
      mmioWrite s (0x002000 + 4 * i.val) v = { s with wi := s.wi.set i e } ∧
      mmioRead s (0x002000 + 4 * i.val) = (s.wi[i]).setWidth 32 ∧
      mmioWrite s (0x002100 + 4 * i.val) v = { s with wp := s.wp.set i e } ∧
      mmioRead s (0x002100 + 4 * i.val) = (s.wp[i]).setWidth 32) ∧
    (∀ (m : Nat) (k : SubIx), m < s.cfg.maxMb → s.cfg.maxMb ≤ 8192 → VectorsOk s →
      let t := mmioWrite s (0x800000 + 16 * m + 4 * k.val) v
      t = { s with mvmem := t.mvmem } ∧ mvAt t m k = ⟨v.extractLsb' 0 16, v.extractLsb' 16 16⟩ ∧
      (∀ m' k', (m', k') ≠ (m, k) → mvAt t m' k' = mvAt s m' k') ∧
      mmioRead s (0x800000 + 16 * m + 4 * k.val) = (mvAt s m k).y ++ (mvAt s m k).x) ∧
    (∀ k : Nat, k < s.cfg.bsCap → s.cfg.bsCap ≤ 4194304 → k % 4 = 0 → Memory.wf s.strm.bs →
      let t := mmioWrite s (0xC00000 + k) v
      t = { s with strm := { s.strm with bs := t.strm.bs } } ∧
      (∀ j : Nat, j < 4 → bsAt t (k + j) = v.extractLsb' (8 * j) 8) ∧
      (∀ n, n < k ∨ k + 4 ≤ n → bsAt t n = bsAt s n) ∧
      mmioRead s (0xC00000 + k) = bsAt s (k + 3) ++ bsAt s (k + 2) ++ bsAt s (k + 1) ++ bsAt s k)

/-- 20 R66: the words of a history entry. A write stores the field its word holds and no other, `hq` 0 as 1,
and reserved words read 0 and ignore writes. -/
def Obligations.HistoryWindowReadsBack : Prop :=
  ∀ (s : State) (m : Nat) (v : Word), m < s.cfg.maxMb → s.cfg.maxMb ≤ 8192 → HistOk s →
    let base := 0x400000 + 0x200 * m
    let e := histAt s m
    (mmioRead s base = BitVec.ofNat 32 (e.valid.toNat + 256 * e.hq.toNat) ∧
      ∃ hq : BitVec 5, hq = (if v.extractLsb' 8 5 = 0 then 1 else v.extractLsb' 8 5) ∧
        histAt (mmioWrite s base v) m = { e with valid := v.getLsbD 0, hq := hq }) ∧
    (∀ j : MbBlk,
      mmioRead s (base + 64 * (j.val + 1)) = (e.blocks[j]).dc.signExtend 32 ∧
      histAt (mmioWrite s (base + 64 * (j.val + 1)) v) m
        = { e with blocks := e.blocks.set j { e.blocks[j] with dc := v.setWidth 16 } } ∧
      ∀ n : Fin 7,
        mmioRead s (base + 64 * (j.val + 1) + 4 * (n.val + 1)) = ((e.blocks[j]).row[n]).signExtend 32 ∧
        histAt (mmioWrite s (base + 64 * (j.val + 1) + 4 * (n.val + 1)) v) m = { e with
          blocks := e.blocks.set j { e.blocks[j] with row := (e.blocks[j]).row.set n (v.setWidth 16) } } ∧
        mmioRead s (base + 64 * (j.val + 1) + 4 * (n.val + 8)) = ((e.blocks[j]).col[n]).signExtend 32 ∧
        histAt (mmioWrite s (base + 64 * (j.val + 1) + 4 * (n.val + 8)) v) m = { e with
          blocks := e.blocks.set j { e.blocks[j] with col := (e.blocks[j]).col.set n (v.setWidth 16) } }) ∧
    (∀ w : Nat, w < 128 →
      let t := mmioWrite s (base + 4 * w) v
      t = { s with hist := t.hist } ∧ (∀ m', m' ≠ m → histAt t m' = histAt s m') ∧
      ((0 < w ∧ w < 16) ∨ 112 ≤ w ∨ w % 16 = 15 → mmioRead s (base + 4 * w) = 0 ∧ t = s))

/-- 20 R69, R61: an aligned access to an unmapped offset, to an entry at or beyond MAX_MB, or to a
bitstream word at or beyond BS_CAP reads 0 and ignores a write. -/
def Obligations.UnmappedOffsetsAreInert : Prop :=
  ∀ (s : State) (off : Nat) (v : Word), off < 2 ^ 24 →
    ((0x000070 ≤ off ∧ off < 0x001000) ∨ (0x002200 ≤ off ∧ off < 0x400000) ∨
      (0x400000 + 0x200 * s.cfg.maxMb ≤ off ∧ off < 0x800000) ∨
      (0x800000 + 16 * s.cfg.maxMb ≤ off ∧ 0x800000 ≤ off ∧ off < 0xC00000) ∨
      (0x820000 ≤ off ∧ off < 0xC00000) ∨ 0xC00000 + s.cfg.bsCap ≤ off) →
    mmioRead s off = 0 ∧ mmioWrite s off v = s

/-! ### Reset and the invariant -/

/-- 10 R47, 70 R240, R241: every reset, hardware or SRST, leaves every field the spec gives a value at that
value, whatever the unspecified contents drawn, and keeps the configuration. The model's choices in it: the
contents the spec leaves unspecified come from a draw, and a reset uses one up (log 5); an unspecified `hq` is
still in 1..31, its domain (10 R43, spec/93; log 20); and what the host has left to do, its answers and its
schedule stay (log 18). -/
def Obligations.ResetLeavesSpecifiedValues : Prop :=
  ∀ s : State, let t := hardReset s
    t.q = 1 ∧ t.grid = ⟨0, 0, 0, 0, false⟩ ∧ t.flags = ⟨false, false, 0, Vector.replicate 6 .none,
      Vector.replicate 6 .none, 0⟩ ∧ t.mvout = ⟨⟨0, 0⟩, 0, 0⟩ ∧
    t.strm.bspos = 0 ∧ t.strm.acc = 0 ∧ t.strm.accn = 0 ∧ t.strm.bsfin = false ∧
    t.irqEn = 0 ∧ t.irqPend = 0 ∧ t.flt = ⟨false, none, 0, 0⟩ ∧ t.arg = 0 ∧ t.cq = [] ∧
    (∀ i : Fin 64, t.wi[i] = 16 ∧ t.wp[i] = 16) ∧
    (∀ m, (histAt t m).valid = false ∧ 1 ≤ (histAt t m).hq.toNat) ∧ (∀ m k, mvAt t m k = ⟨0, 0⟩) ∧
    t.cfg = s.cfg ∧ t.host = { s.host with draws := s.host.draws.tail }

/-- 10 R47: the same values of the state after power-on reset, in the reference configuration, which is given
value by value (00 R6, 41 R131, R132, 43 R184). Its unspecified contents are the model's choice (logs 2, 3, 4),
and no clause is about them. -/
def Obligations.ResetStateHasSpecifiedValues : Prop :=
  let t := State.reset
  t.cfg = Config.reference ∧
  (t.cfg.cmdqDepth, t.cfg.maxMb, t.cfg.bsCap, t.cfg.mvpSingle) = (16, 8192, 4194304, false) ∧
  t.cfg.qladder = [1, 2, 3, 4, 5, 6, 7, 8, 10, 12, 14, 16, 18, 20, 22, 24, 28, 31] ∧
  (∀ q : Nat, 1 ≤ q → q ≤ 4 → dcScaler t.cfg q .luma = 8 ∧ dcScaler t.cfg q .chroma = 8) ∧
  (∀ q : Nat, 5 ≤ q → q ≤ 8 → dcScaler t.cfg q .luma = 2 * q ∧ dcScaler t.cfg q .chroma = (q + 13) / 2) ∧
  (∀ q : Nat, 9 ≤ q → q ≤ 24 → dcScaler t.cfg q .luma = q + 8 ∧ dcScaler t.cfg q .chroma = (q + 13) / 2) ∧
  (∀ q : Nat, 25 ≤ q → q ≤ 31 → dcScaler t.cfg q .luma = 2 * q - 16 ∧ dcScaler t.cfg q .chroma = q - 6) ∧
  t.q = 1 ∧ t.grid = ⟨0, 0, 0, 0, false⟩ ∧
  t.flags = ⟨false, false, 0, Vector.replicate 6 .none, Vector.replicate 6 .none, 0⟩ ∧
  t.mvout = ⟨⟨0, 0⟩, 0, 0⟩ ∧ (t.strm.bspos, t.strm.acc, t.strm.accn, t.strm.bsfin) = (0, 0, 0, false) ∧
  t.irqEn = 0 ∧ t.irqPend = 0 ∧ t.flt = ⟨false, none, 0, 0⟩ ∧ t.arg = 0 ∧ t.cq = [] ∧
  (∀ i : Fin 64, t.wi[i] = 16 ∧ t.wp[i] = 16) ∧ (∀ m, (histAt t m).valid = false) ∧
  (∀ m k, mvAt t m k = ⟨0, 0⟩) ∧ mmioRead t 0x000 = 0x48564451 ∧ mmioRead t 0x004 = 0x00010000 ∧
  mmioRead t 0x008 = 16 ∧ mmioRead t 0x00C = 8192 ∧ mmioRead t 0x010 = 4194304 ∧
  mmioRead t 0x018 = 0x00100000

/-- The invariant holds of the state after reset. -/
def Obligations.ResetMeetsInvariant : Prop := State.Inv State.reset

/-- 10 R27 to R45, 40 R110, 43 R186: every step, of the engine or of the host, keeps the invariant: Q in
1..31, a current macroblock inside the grid, the stream within its buffer, weights in 1..255, memories
canonical and within their bounds, the queue within its depth, the fault record consistent with HALTED,
and ACDIR consistent with ACPRED. -/
def Obligations.StepKeepsInvariant : Prop :=
  ∀ s t : State, State.Inv s → step s = .next t → State.Inv t

/-! ### The registers as the host reads and writes them -/

/-- 10 R22 to R24, R27, R29, R32 to R36, R38, 60 R212: what the register map reads from the state, the host's
write of Q, and that a write to any read-only register changes nothing. A write of Q keeps it in 1..31. The
fields of PRED are read one by one, and the bits between them read 0. -/
def Obligations.RegistersReadTheStateAndIgnoreWrites : Prop :=
  ∀ (s : State) (v : Word),
    mmioRead s 0x000 = 0x48564451 ∧ mmioRead s 0x004 = 0x00010000 ∧
    (s.cfg.cmdqDepth ≤ 255 → (mmioRead s 0x008).toNat = s.cfg.cmdqDepth) ∧
    (s.cfg.maxMb ≤ 8192 → (mmioRead s 0x00C).toNat = s.cfg.maxMb) ∧
    (s.cfg.bsCap ≤ 4194304 → (mmioRead s 0x010).toNat = s.cfg.bsCap) ∧
    ((s.flt.code = none → mmioRead s 0x024 = 0) ∧
      (s.flt.code = some .illegalOpcode → mmioRead s 0x024 = 1) ∧
      (s.flt.code = some .reservedField → mmioRead s 0x024 = 2) ∧
      (s.flt.code = some .badOperand → mmioRead s 0x024 = 3) ∧
      (s.flt.code = some .noGrid → mmioRead s 0x024 = 4) ∧
      (s.flt.code = some .bsFinished → mmioRead s 0x024 = 5) ∧
      (s.flt.code = some .bsOverflow → mmioRead s 0x024 = 6)) ∧
    mmioRead s 0x028 = s.flt.cmd ∧ mmioRead s 0x02C = s.flt.arg ∧
    (mmioRead s 0x038).toNat = s.q.toNat ∧
    (∃ q : BitVec 5, mmioWrite s 0x038 v = { s with q := q } ∧ q.toNat = min (max v.toNat 1) 31) ∧
    mmioRead s 0x040 = s.grid.mby ++ s.grid.mbx ∧
    (mmioRead s 0x044).toNat = s.flags.cbp.toNat ∧
    (∀ j : MbBlk,
      (mmioRead s 0x048).extractLsb' (2 * j.val) 2 =
        (match s.flags.pdir[j] with | .none => 0#2 | .vert => 1#2 | .horz => 2#2) ∧
      (mmioRead s 0x048).extractLsb' (2 * j.val + 16) 2 =
        (match s.flags.acdir[j] with | .none => 0#2 | .vert => 1#2 | .horz => 2#2)) ∧
    (mmioRead s 0x048).extractLsb' 12 4 = 0 ∧ (mmioRead s 0x048).extractLsb' 28 4 = 0 ∧
    mmioRead s 0x04C = s.flags.qsum ∧
    mmioRead s 0x050 = s.mvout.mvp.y ++ s.mvout.mvp.x ∧ mmioRead s 0x054 = s.mvout.mvdX ∧
    mmioRead s 0x058 = s.mvout.mvdY ∧
    (StreamOk s.cfg.bsCap s.strm → s.cfg.bsCap ≤ 4194304 →
      (mmioRead s 0x05C).toNat = 8 * s.strm.bspos + s.strm.accn ∧ (mmioRead s 0x060).toNat = s.strm.bspos ∧
      (mmioRead s 0x064).toNat = s.strm.accn) ∧
    mmioRead s 0x06C ++ mmioRead s 0x068 = s.strm.acc ∧
    ∀ off ∈ [0x000, 0x004, 0x008, 0x00C, 0x010, 0x018, 0x024, 0x028, 0x02C, 0x040, 0x044, 0x048, 0x04C, 0x050,
      0x054, 0x058, 0x05C, 0x060, 0x064, 0x068, 0x06C], mmioWrite s off v = s
end

