-- ==== Sys2Proof/Laws/State.lean ====
section
/-! SUPPORT. One lemma for each field of State and each named update, by rfl, so that no proof unfolds a
record update. -/

namespace Sys2Proof.Machine

@[simp] theorem State.setBlk_cfg (s : State) (d : BlkIx) (b : Block) : (s.setBlk d b).cfg = s.cfg := rfl
@[simp] theorem State.setBlk_blk (s : State) (d : BlkIx) (b : Block) : (s.setBlk d b).blk = s.blk.set d b := rfl
@[simp] theorem State.setBlk_wi (s : State) (d : BlkIx) (b : Block) : (s.setBlk d b).wi = s.wi := rfl
@[simp] theorem State.setBlk_wp (s : State) (d : BlkIx) (b : Block) : (s.setBlk d b).wp = s.wp := rfl
@[simp] theorem State.setBlk_q (s : State) (d : BlkIx) (b : Block) : (s.setBlk d b).q = s.q := rfl
@[simp] theorem State.setBlk_grid (s : State) (d : BlkIx) (b : Block) : (s.setBlk d b).grid = s.grid := rfl
@[simp] theorem State.setBlk_flags (s : State) (d : BlkIx) (b : Block) : (s.setBlk d b).flags = s.flags := rfl
@[simp] theorem State.setBlk_mvout (s : State) (d : BlkIx) (b : Block) : (s.setBlk d b).mvout = s.mvout := rfl
@[simp] theorem State.setBlk_strm (s : State) (d : BlkIx) (b : Block) : (s.setBlk d b).strm = s.strm := rfl
@[simp] theorem State.setBlk_irqEn (s : State) (d : BlkIx) (b : Block) : (s.setBlk d b).irqEn = s.irqEn := rfl
@[simp] theorem State.setBlk_irqPend (s : State) (d : BlkIx) (b : Block) : (s.setBlk d b).irqPend = s.irqPend := rfl
@[simp] theorem State.setBlk_flt (s : State) (d : BlkIx) (b : Block) : (s.setBlk d b).flt = s.flt := rfl
@[simp] theorem State.setBlk_arg (s : State) (d : BlkIx) (b : Block) : (s.setBlk d b).arg = s.arg := rfl
@[simp] theorem State.setBlk_cq (s : State) (d : BlkIx) (b : Block) : (s.setBlk d b).cq = s.cq := rfl
@[simp] theorem State.setBlk_hist (s : State) (d : BlkIx) (b : Block) : (s.setBlk d b).hist = s.hist := rfl
@[simp] theorem State.setBlk_mvmem (s : State) (d : BlkIx) (b : Block) : (s.setBlk d b).mvmem = s.mvmem := rfl
@[simp] theorem State.setBlk_host (s : State) (d : BlkIx) (b : Block) : (s.setBlk d b).host = s.host := rfl

@[simp] theorem State.setWi_cfg (s : State) (v : Vector Byte 64) : (s.setWi v).cfg = s.cfg := rfl
@[simp] theorem State.setWi_blk (s : State) (v : Vector Byte 64) : (s.setWi v).blk = s.blk := rfl
@[simp] theorem State.setWi_wi (s : State) (v : Vector Byte 64) : (s.setWi v).wi = v := rfl
@[simp] theorem State.setWi_wp (s : State) (v : Vector Byte 64) : (s.setWi v).wp = s.wp := rfl
@[simp] theorem State.setWi_q (s : State) (v : Vector Byte 64) : (s.setWi v).q = s.q := rfl
@[simp] theorem State.setWi_grid (s : State) (v : Vector Byte 64) : (s.setWi v).grid = s.grid := rfl
@[simp] theorem State.setWi_flags (s : State) (v : Vector Byte 64) : (s.setWi v).flags = s.flags := rfl
@[simp] theorem State.setWi_mvout (s : State) (v : Vector Byte 64) : (s.setWi v).mvout = s.mvout := rfl
@[simp] theorem State.setWi_strm (s : State) (v : Vector Byte 64) : (s.setWi v).strm = s.strm := rfl
@[simp] theorem State.setWi_irqEn (s : State) (v : Vector Byte 64) : (s.setWi v).irqEn = s.irqEn := rfl
@[simp] theorem State.setWi_irqPend (s : State) (v : Vector Byte 64) : (s.setWi v).irqPend = s.irqPend := rfl
@[simp] theorem State.setWi_flt (s : State) (v : Vector Byte 64) : (s.setWi v).flt = s.flt := rfl
@[simp] theorem State.setWi_arg (s : State) (v : Vector Byte 64) : (s.setWi v).arg = s.arg := rfl
@[simp] theorem State.setWi_cq (s : State) (v : Vector Byte 64) : (s.setWi v).cq = s.cq := rfl
@[simp] theorem State.setWi_hist (s : State) (v : Vector Byte 64) : (s.setWi v).hist = s.hist := rfl
@[simp] theorem State.setWi_mvmem (s : State) (v : Vector Byte 64) : (s.setWi v).mvmem = s.mvmem := rfl
@[simp] theorem State.setWi_host (s : State) (v : Vector Byte 64) : (s.setWi v).host = s.host := rfl

@[simp] theorem State.setWp_cfg (s : State) (v : Vector Byte 64) : (s.setWp v).cfg = s.cfg := rfl
@[simp] theorem State.setWp_blk (s : State) (v : Vector Byte 64) : (s.setWp v).blk = s.blk := rfl
@[simp] theorem State.setWp_wi (s : State) (v : Vector Byte 64) : (s.setWp v).wi = s.wi := rfl
@[simp] theorem State.setWp_wp (s : State) (v : Vector Byte 64) : (s.setWp v).wp = v := rfl
@[simp] theorem State.setWp_q (s : State) (v : Vector Byte 64) : (s.setWp v).q = s.q := rfl
@[simp] theorem State.setWp_grid (s : State) (v : Vector Byte 64) : (s.setWp v).grid = s.grid := rfl
@[simp] theorem State.setWp_flags (s : State) (v : Vector Byte 64) : (s.setWp v).flags = s.flags := rfl
@[simp] theorem State.setWp_mvout (s : State) (v : Vector Byte 64) : (s.setWp v).mvout = s.mvout := rfl
@[simp] theorem State.setWp_strm (s : State) (v : Vector Byte 64) : (s.setWp v).strm = s.strm := rfl
@[simp] theorem State.setWp_irqEn (s : State) (v : Vector Byte 64) : (s.setWp v).irqEn = s.irqEn := rfl
@[simp] theorem State.setWp_irqPend (s : State) (v : Vector Byte 64) : (s.setWp v).irqPend = s.irqPend := rfl
@[simp] theorem State.setWp_flt (s : State) (v : Vector Byte 64) : (s.setWp v).flt = s.flt := rfl
@[simp] theorem State.setWp_arg (s : State) (v : Vector Byte 64) : (s.setWp v).arg = s.arg := rfl
@[simp] theorem State.setWp_cq (s : State) (v : Vector Byte 64) : (s.setWp v).cq = s.cq := rfl
@[simp] theorem State.setWp_hist (s : State) (v : Vector Byte 64) : (s.setWp v).hist = s.hist := rfl
@[simp] theorem State.setWp_mvmem (s : State) (v : Vector Byte 64) : (s.setWp v).mvmem = s.mvmem := rfl
@[simp] theorem State.setWp_host (s : State) (v : Vector Byte 64) : (s.setWp v).host = s.host := rfl

@[simp] theorem State.setQ_cfg (s : State) (v : BitVec 5) : (s.setQ v).cfg = s.cfg := rfl
@[simp] theorem State.setQ_blk (s : State) (v : BitVec 5) : (s.setQ v).blk = s.blk := rfl
@[simp] theorem State.setQ_wi (s : State) (v : BitVec 5) : (s.setQ v).wi = s.wi := rfl
@[simp] theorem State.setQ_wp (s : State) (v : BitVec 5) : (s.setQ v).wp = s.wp := rfl
@[simp] theorem State.setQ_q (s : State) (v : BitVec 5) : (s.setQ v).q = v := rfl
@[simp] theorem State.setQ_grid (s : State) (v : BitVec 5) : (s.setQ v).grid = s.grid := rfl
@[simp] theorem State.setQ_flags (s : State) (v : BitVec 5) : (s.setQ v).flags = s.flags := rfl
@[simp] theorem State.setQ_mvout (s : State) (v : BitVec 5) : (s.setQ v).mvout = s.mvout := rfl
@[simp] theorem State.setQ_strm (s : State) (v : BitVec 5) : (s.setQ v).strm = s.strm := rfl
@[simp] theorem State.setQ_irqEn (s : State) (v : BitVec 5) : (s.setQ v).irqEn = s.irqEn := rfl
@[simp] theorem State.setQ_irqPend (s : State) (v : BitVec 5) : (s.setQ v).irqPend = s.irqPend := rfl
@[simp] theorem State.setQ_flt (s : State) (v : BitVec 5) : (s.setQ v).flt = s.flt := rfl
@[simp] theorem State.setQ_arg (s : State) (v : BitVec 5) : (s.setQ v).arg = s.arg := rfl
@[simp] theorem State.setQ_cq (s : State) (v : BitVec 5) : (s.setQ v).cq = s.cq := rfl
@[simp] theorem State.setQ_hist (s : State) (v : BitVec 5) : (s.setQ v).hist = s.hist := rfl
@[simp] theorem State.setQ_mvmem (s : State) (v : BitVec 5) : (s.setQ v).mvmem = s.mvmem := rfl
@[simp] theorem State.setQ_host (s : State) (v : BitVec 5) : (s.setQ v).host = s.host := rfl

@[simp] theorem State.setGrid_cfg (s : State) (v : Grid) : (s.setGrid v).cfg = s.cfg := rfl
@[simp] theorem State.setGrid_blk (s : State) (v : Grid) : (s.setGrid v).blk = s.blk := rfl
@[simp] theorem State.setGrid_wi (s : State) (v : Grid) : (s.setGrid v).wi = s.wi := rfl
@[simp] theorem State.setGrid_wp (s : State) (v : Grid) : (s.setGrid v).wp = s.wp := rfl
@[simp] theorem State.setGrid_q (s : State) (v : Grid) : (s.setGrid v).q = s.q := rfl
@[simp] theorem State.setGrid_grid (s : State) (v : Grid) : (s.setGrid v).grid = v := rfl
@[simp] theorem State.setGrid_flags (s : State) (v : Grid) : (s.setGrid v).flags = s.flags := rfl
@[simp] theorem State.setGrid_mvout (s : State) (v : Grid) : (s.setGrid v).mvout = s.mvout := rfl
@[simp] theorem State.setGrid_strm (s : State) (v : Grid) : (s.setGrid v).strm = s.strm := rfl
@[simp] theorem State.setGrid_irqEn (s : State) (v : Grid) : (s.setGrid v).irqEn = s.irqEn := rfl
@[simp] theorem State.setGrid_irqPend (s : State) (v : Grid) : (s.setGrid v).irqPend = s.irqPend := rfl
@[simp] theorem State.setGrid_flt (s : State) (v : Grid) : (s.setGrid v).flt = s.flt := rfl
@[simp] theorem State.setGrid_arg (s : State) (v : Grid) : (s.setGrid v).arg = s.arg := rfl
@[simp] theorem State.setGrid_cq (s : State) (v : Grid) : (s.setGrid v).cq = s.cq := rfl
@[simp] theorem State.setGrid_hist (s : State) (v : Grid) : (s.setGrid v).hist = s.hist := rfl
@[simp] theorem State.setGrid_mvmem (s : State) (v : Grid) : (s.setGrid v).mvmem = s.mvmem := rfl
@[simp] theorem State.setGrid_host (s : State) (v : Grid) : (s.setGrid v).host = s.host := rfl

@[simp] theorem State.setFlags_cfg (s : State) (v : MbFlags) : (s.setFlags v).cfg = s.cfg := rfl
@[simp] theorem State.setFlags_blk (s : State) (v : MbFlags) : (s.setFlags v).blk = s.blk := rfl
@[simp] theorem State.setFlags_wi (s : State) (v : MbFlags) : (s.setFlags v).wi = s.wi := rfl
@[simp] theorem State.setFlags_wp (s : State) (v : MbFlags) : (s.setFlags v).wp = s.wp := rfl
@[simp] theorem State.setFlags_q (s : State) (v : MbFlags) : (s.setFlags v).q = s.q := rfl
@[simp] theorem State.setFlags_grid (s : State) (v : MbFlags) : (s.setFlags v).grid = s.grid := rfl
@[simp] theorem State.setFlags_flags (s : State) (v : MbFlags) : (s.setFlags v).flags = v := rfl
@[simp] theorem State.setFlags_mvout (s : State) (v : MbFlags) : (s.setFlags v).mvout = s.mvout := rfl
@[simp] theorem State.setFlags_strm (s : State) (v : MbFlags) : (s.setFlags v).strm = s.strm := rfl
@[simp] theorem State.setFlags_irqEn (s : State) (v : MbFlags) : (s.setFlags v).irqEn = s.irqEn := rfl
@[simp] theorem State.setFlags_irqPend (s : State) (v : MbFlags) : (s.setFlags v).irqPend = s.irqPend := rfl
@[simp] theorem State.setFlags_flt (s : State) (v : MbFlags) : (s.setFlags v).flt = s.flt := rfl
@[simp] theorem State.setFlags_arg (s : State) (v : MbFlags) : (s.setFlags v).arg = s.arg := rfl
@[simp] theorem State.setFlags_cq (s : State) (v : MbFlags) : (s.setFlags v).cq = s.cq := rfl
@[simp] theorem State.setFlags_hist (s : State) (v : MbFlags) : (s.setFlags v).hist = s.hist := rfl
@[simp] theorem State.setFlags_mvmem (s : State) (v : MbFlags) : (s.setFlags v).mvmem = s.mvmem := rfl
@[simp] theorem State.setFlags_host (s : State) (v : MbFlags) : (s.setFlags v).host = s.host := rfl

@[simp] theorem State.setMvout_cfg (s : State) (v : MvOut) : (s.setMvout v).cfg = s.cfg := rfl
@[simp] theorem State.setMvout_blk (s : State) (v : MvOut) : (s.setMvout v).blk = s.blk := rfl
@[simp] theorem State.setMvout_wi (s : State) (v : MvOut) : (s.setMvout v).wi = s.wi := rfl
@[simp] theorem State.setMvout_wp (s : State) (v : MvOut) : (s.setMvout v).wp = s.wp := rfl
@[simp] theorem State.setMvout_q (s : State) (v : MvOut) : (s.setMvout v).q = s.q := rfl
@[simp] theorem State.setMvout_grid (s : State) (v : MvOut) : (s.setMvout v).grid = s.grid := rfl
@[simp] theorem State.setMvout_flags (s : State) (v : MvOut) : (s.setMvout v).flags = s.flags := rfl
@[simp] theorem State.setMvout_mvout (s : State) (v : MvOut) : (s.setMvout v).mvout = v := rfl
@[simp] theorem State.setMvout_strm (s : State) (v : MvOut) : (s.setMvout v).strm = s.strm := rfl
@[simp] theorem State.setMvout_irqEn (s : State) (v : MvOut) : (s.setMvout v).irqEn = s.irqEn := rfl
@[simp] theorem State.setMvout_irqPend (s : State) (v : MvOut) : (s.setMvout v).irqPend = s.irqPend := rfl
@[simp] theorem State.setMvout_flt (s : State) (v : MvOut) : (s.setMvout v).flt = s.flt := rfl
@[simp] theorem State.setMvout_arg (s : State) (v : MvOut) : (s.setMvout v).arg = s.arg := rfl
@[simp] theorem State.setMvout_cq (s : State) (v : MvOut) : (s.setMvout v).cq = s.cq := rfl
@[simp] theorem State.setMvout_hist (s : State) (v : MvOut) : (s.setMvout v).hist = s.hist := rfl
@[simp] theorem State.setMvout_mvmem (s : State) (v : MvOut) : (s.setMvout v).mvmem = s.mvmem := rfl
@[simp] theorem State.setMvout_host (s : State) (v : MvOut) : (s.setMvout v).host = s.host := rfl

@[simp] theorem State.setStrm_cfg (s : State) (v : Stream) : (s.setStrm v).cfg = s.cfg := rfl
@[simp] theorem State.setStrm_blk (s : State) (v : Stream) : (s.setStrm v).blk = s.blk := rfl
@[simp] theorem State.setStrm_wi (s : State) (v : Stream) : (s.setStrm v).wi = s.wi := rfl
@[simp] theorem State.setStrm_wp (s : State) (v : Stream) : (s.setStrm v).wp = s.wp := rfl
@[simp] theorem State.setStrm_q (s : State) (v : Stream) : (s.setStrm v).q = s.q := rfl
@[simp] theorem State.setStrm_grid (s : State) (v : Stream) : (s.setStrm v).grid = s.grid := rfl
@[simp] theorem State.setStrm_flags (s : State) (v : Stream) : (s.setStrm v).flags = s.flags := rfl
@[simp] theorem State.setStrm_mvout (s : State) (v : Stream) : (s.setStrm v).mvout = s.mvout := rfl
@[simp] theorem State.setStrm_strm (s : State) (v : Stream) : (s.setStrm v).strm = v := rfl
@[simp] theorem State.setStrm_irqEn (s : State) (v : Stream) : (s.setStrm v).irqEn = s.irqEn := rfl
@[simp] theorem State.setStrm_irqPend (s : State) (v : Stream) : (s.setStrm v).irqPend = s.irqPend := rfl
@[simp] theorem State.setStrm_flt (s : State) (v : Stream) : (s.setStrm v).flt = s.flt := rfl
@[simp] theorem State.setStrm_arg (s : State) (v : Stream) : (s.setStrm v).arg = s.arg := rfl
@[simp] theorem State.setStrm_cq (s : State) (v : Stream) : (s.setStrm v).cq = s.cq := rfl
@[simp] theorem State.setStrm_hist (s : State) (v : Stream) : (s.setStrm v).hist = s.hist := rfl
@[simp] theorem State.setStrm_mvmem (s : State) (v : Stream) : (s.setStrm v).mvmem = s.mvmem := rfl
@[simp] theorem State.setStrm_host (s : State) (v : Stream) : (s.setStrm v).host = s.host := rfl

@[simp] theorem State.setIrqEn_cfg (s : State) (v : BitVec 4) : (s.setIrqEn v).cfg = s.cfg := rfl
@[simp] theorem State.setIrqEn_blk (s : State) (v : BitVec 4) : (s.setIrqEn v).blk = s.blk := rfl
@[simp] theorem State.setIrqEn_wi (s : State) (v : BitVec 4) : (s.setIrqEn v).wi = s.wi := rfl
@[simp] theorem State.setIrqEn_wp (s : State) (v : BitVec 4) : (s.setIrqEn v).wp = s.wp := rfl
@[simp] theorem State.setIrqEn_q (s : State) (v : BitVec 4) : (s.setIrqEn v).q = s.q := rfl
@[simp] theorem State.setIrqEn_grid (s : State) (v : BitVec 4) : (s.setIrqEn v).grid = s.grid := rfl
@[simp] theorem State.setIrqEn_flags (s : State) (v : BitVec 4) : (s.setIrqEn v).flags = s.flags := rfl
@[simp] theorem State.setIrqEn_mvout (s : State) (v : BitVec 4) : (s.setIrqEn v).mvout = s.mvout := rfl
@[simp] theorem State.setIrqEn_strm (s : State) (v : BitVec 4) : (s.setIrqEn v).strm = s.strm := rfl
@[simp] theorem State.setIrqEn_irqEn (s : State) (v : BitVec 4) : (s.setIrqEn v).irqEn = v := rfl
@[simp] theorem State.setIrqEn_irqPend (s : State) (v : BitVec 4) : (s.setIrqEn v).irqPend = s.irqPend := rfl
@[simp] theorem State.setIrqEn_flt (s : State) (v : BitVec 4) : (s.setIrqEn v).flt = s.flt := rfl
@[simp] theorem State.setIrqEn_arg (s : State) (v : BitVec 4) : (s.setIrqEn v).arg = s.arg := rfl
@[simp] theorem State.setIrqEn_cq (s : State) (v : BitVec 4) : (s.setIrqEn v).cq = s.cq := rfl
@[simp] theorem State.setIrqEn_hist (s : State) (v : BitVec 4) : (s.setIrqEn v).hist = s.hist := rfl
@[simp] theorem State.setIrqEn_mvmem (s : State) (v : BitVec 4) : (s.setIrqEn v).mvmem = s.mvmem := rfl
@[simp] theorem State.setIrqEn_host (s : State) (v : BitVec 4) : (s.setIrqEn v).host = s.host := rfl

@[simp] theorem State.setIrqPend_cfg (s : State) (v : BitVec 4) : (s.setIrqPend v).cfg = s.cfg := rfl
@[simp] theorem State.setIrqPend_blk (s : State) (v : BitVec 4) : (s.setIrqPend v).blk = s.blk := rfl
@[simp] theorem State.setIrqPend_wi (s : State) (v : BitVec 4) : (s.setIrqPend v).wi = s.wi := rfl
@[simp] theorem State.setIrqPend_wp (s : State) (v : BitVec 4) : (s.setIrqPend v).wp = s.wp := rfl
@[simp] theorem State.setIrqPend_q (s : State) (v : BitVec 4) : (s.setIrqPend v).q = s.q := rfl
@[simp] theorem State.setIrqPend_grid (s : State) (v : BitVec 4) : (s.setIrqPend v).grid = s.grid := rfl
@[simp] theorem State.setIrqPend_flags (s : State) (v : BitVec 4) : (s.setIrqPend v).flags = s.flags := rfl
@[simp] theorem State.setIrqPend_mvout (s : State) (v : BitVec 4) : (s.setIrqPend v).mvout = s.mvout := rfl
@[simp] theorem State.setIrqPend_strm (s : State) (v : BitVec 4) : (s.setIrqPend v).strm = s.strm := rfl
@[simp] theorem State.setIrqPend_irqEn (s : State) (v : BitVec 4) : (s.setIrqPend v).irqEn = s.irqEn := rfl
@[simp] theorem State.setIrqPend_irqPend (s : State) (v : BitVec 4) : (s.setIrqPend v).irqPend = v := rfl
@[simp] theorem State.setIrqPend_flt (s : State) (v : BitVec 4) : (s.setIrqPend v).flt = s.flt := rfl
@[simp] theorem State.setIrqPend_arg (s : State) (v : BitVec 4) : (s.setIrqPend v).arg = s.arg := rfl
@[simp] theorem State.setIrqPend_cq (s : State) (v : BitVec 4) : (s.setIrqPend v).cq = s.cq := rfl
@[simp] theorem State.setIrqPend_hist (s : State) (v : BitVec 4) : (s.setIrqPend v).hist = s.hist := rfl
@[simp] theorem State.setIrqPend_mvmem (s : State) (v : BitVec 4) : (s.setIrqPend v).mvmem = s.mvmem := rfl
@[simp] theorem State.setIrqPend_host (s : State) (v : BitVec 4) : (s.setIrqPend v).host = s.host := rfl

@[simp] theorem State.setFlt_cfg (s : State) (v : FaultRec) : (s.setFlt v).cfg = s.cfg := rfl
@[simp] theorem State.setFlt_blk (s : State) (v : FaultRec) : (s.setFlt v).blk = s.blk := rfl
@[simp] theorem State.setFlt_wi (s : State) (v : FaultRec) : (s.setFlt v).wi = s.wi := rfl
@[simp] theorem State.setFlt_wp (s : State) (v : FaultRec) : (s.setFlt v).wp = s.wp := rfl
@[simp] theorem State.setFlt_q (s : State) (v : FaultRec) : (s.setFlt v).q = s.q := rfl
@[simp] theorem State.setFlt_grid (s : State) (v : FaultRec) : (s.setFlt v).grid = s.grid := rfl
@[simp] theorem State.setFlt_flags (s : State) (v : FaultRec) : (s.setFlt v).flags = s.flags := rfl
@[simp] theorem State.setFlt_mvout (s : State) (v : FaultRec) : (s.setFlt v).mvout = s.mvout := rfl
@[simp] theorem State.setFlt_strm (s : State) (v : FaultRec) : (s.setFlt v).strm = s.strm := rfl
@[simp] theorem State.setFlt_irqEn (s : State) (v : FaultRec) : (s.setFlt v).irqEn = s.irqEn := rfl
@[simp] theorem State.setFlt_irqPend (s : State) (v : FaultRec) : (s.setFlt v).irqPend = s.irqPend := rfl
@[simp] theorem State.setFlt_flt (s : State) (v : FaultRec) : (s.setFlt v).flt = v := rfl
@[simp] theorem State.setFlt_arg (s : State) (v : FaultRec) : (s.setFlt v).arg = s.arg := rfl
@[simp] theorem State.setFlt_cq (s : State) (v : FaultRec) : (s.setFlt v).cq = s.cq := rfl
@[simp] theorem State.setFlt_hist (s : State) (v : FaultRec) : (s.setFlt v).hist = s.hist := rfl
@[simp] theorem State.setFlt_mvmem (s : State) (v : FaultRec) : (s.setFlt v).mvmem = s.mvmem := rfl
@[simp] theorem State.setFlt_host (s : State) (v : FaultRec) : (s.setFlt v).host = s.host := rfl

@[simp] theorem State.setArg_cfg (s : State) (v : Word) : (s.setArg v).cfg = s.cfg := rfl
@[simp] theorem State.setArg_blk (s : State) (v : Word) : (s.setArg v).blk = s.blk := rfl
@[simp] theorem State.setArg_wi (s : State) (v : Word) : (s.setArg v).wi = s.wi := rfl
@[simp] theorem State.setArg_wp (s : State) (v : Word) : (s.setArg v).wp = s.wp := rfl
@[simp] theorem State.setArg_q (s : State) (v : Word) : (s.setArg v).q = s.q := rfl
@[simp] theorem State.setArg_grid (s : State) (v : Word) : (s.setArg v).grid = s.grid := rfl
@[simp] theorem State.setArg_flags (s : State) (v : Word) : (s.setArg v).flags = s.flags := rfl
@[simp] theorem State.setArg_mvout (s : State) (v : Word) : (s.setArg v).mvout = s.mvout := rfl
@[simp] theorem State.setArg_strm (s : State) (v : Word) : (s.setArg v).strm = s.strm := rfl
@[simp] theorem State.setArg_irqEn (s : State) (v : Word) : (s.setArg v).irqEn = s.irqEn := rfl
@[simp] theorem State.setArg_irqPend (s : State) (v : Word) : (s.setArg v).irqPend = s.irqPend := rfl
@[simp] theorem State.setArg_flt (s : State) (v : Word) : (s.setArg v).flt = s.flt := rfl
@[simp] theorem State.setArg_arg (s : State) (v : Word) : (s.setArg v).arg = v := rfl
@[simp] theorem State.setArg_cq (s : State) (v : Word) : (s.setArg v).cq = s.cq := rfl
@[simp] theorem State.setArg_hist (s : State) (v : Word) : (s.setArg v).hist = s.hist := rfl
@[simp] theorem State.setArg_mvmem (s : State) (v : Word) : (s.setArg v).mvmem = s.mvmem := rfl
@[simp] theorem State.setArg_host (s : State) (v : Word) : (s.setArg v).host = s.host := rfl

@[simp] theorem State.setCq_cfg (s : State) (v : List Cmd) : (s.setCq v).cfg = s.cfg := rfl
@[simp] theorem State.setCq_blk (s : State) (v : List Cmd) : (s.setCq v).blk = s.blk := rfl
@[simp] theorem State.setCq_wi (s : State) (v : List Cmd) : (s.setCq v).wi = s.wi := rfl
@[simp] theorem State.setCq_wp (s : State) (v : List Cmd) : (s.setCq v).wp = s.wp := rfl
@[simp] theorem State.setCq_q (s : State) (v : List Cmd) : (s.setCq v).q = s.q := rfl
@[simp] theorem State.setCq_grid (s : State) (v : List Cmd) : (s.setCq v).grid = s.grid := rfl
@[simp] theorem State.setCq_flags (s : State) (v : List Cmd) : (s.setCq v).flags = s.flags := rfl
@[simp] theorem State.setCq_mvout (s : State) (v : List Cmd) : (s.setCq v).mvout = s.mvout := rfl
@[simp] theorem State.setCq_strm (s : State) (v : List Cmd) : (s.setCq v).strm = s.strm := rfl
@[simp] theorem State.setCq_irqEn (s : State) (v : List Cmd) : (s.setCq v).irqEn = s.irqEn := rfl
@[simp] theorem State.setCq_irqPend (s : State) (v : List Cmd) : (s.setCq v).irqPend = s.irqPend := rfl
@[simp] theorem State.setCq_flt (s : State) (v : List Cmd) : (s.setCq v).flt = s.flt := rfl
@[simp] theorem State.setCq_arg (s : State) (v : List Cmd) : (s.setCq v).arg = s.arg := rfl
@[simp] theorem State.setCq_cq (s : State) (v : List Cmd) : (s.setCq v).cq = v := rfl
@[simp] theorem State.setCq_hist (s : State) (v : List Cmd) : (s.setCq v).hist = s.hist := rfl
@[simp] theorem State.setCq_mvmem (s : State) (v : List Cmd) : (s.setCq v).mvmem = s.mvmem := rfl
@[simp] theorem State.setCq_host (s : State) (v : List Cmd) : (s.setCq v).host = s.host := rfl

@[simp] theorem State.setHist_cfg (s : State) (v : List (Nat × HistEntry)) : (s.setHist v).cfg = s.cfg := rfl
@[simp] theorem State.setHist_blk (s : State) (v : List (Nat × HistEntry)) : (s.setHist v).blk = s.blk := rfl
@[simp] theorem State.setHist_wi (s : State) (v : List (Nat × HistEntry)) : (s.setHist v).wi = s.wi := rfl
@[simp] theorem State.setHist_wp (s : State) (v : List (Nat × HistEntry)) : (s.setHist v).wp = s.wp := rfl
@[simp] theorem State.setHist_q (s : State) (v : List (Nat × HistEntry)) : (s.setHist v).q = s.q := rfl
@[simp] theorem State.setHist_grid (s : State) (v : List (Nat × HistEntry)) : (s.setHist v).grid = s.grid := rfl
@[simp] theorem State.setHist_flags (s : State) (v : List (Nat × HistEntry)) : (s.setHist v).flags = s.flags := rfl
@[simp] theorem State.setHist_mvout (s : State) (v : List (Nat × HistEntry)) : (s.setHist v).mvout = s.mvout := rfl
@[simp] theorem State.setHist_strm (s : State) (v : List (Nat × HistEntry)) : (s.setHist v).strm = s.strm := rfl
@[simp] theorem State.setHist_irqEn (s : State) (v : List (Nat × HistEntry)) : (s.setHist v).irqEn = s.irqEn := rfl
@[simp] theorem State.setHist_irqPend (s : State) (v : List (Nat × HistEntry)) : (s.setHist v).irqPend = s.irqPend := rfl
@[simp] theorem State.setHist_flt (s : State) (v : List (Nat × HistEntry)) : (s.setHist v).flt = s.flt := rfl
@[simp] theorem State.setHist_arg (s : State) (v : List (Nat × HistEntry)) : (s.setHist v).arg = s.arg := rfl
@[simp] theorem State.setHist_cq (s : State) (v : List (Nat × HistEntry)) : (s.setHist v).cq = s.cq := rfl
@[simp] theorem State.setHist_hist (s : State) (v : List (Nat × HistEntry)) : (s.setHist v).hist = v := rfl
@[simp] theorem State.setHist_mvmem (s : State) (v : List (Nat × HistEntry)) : (s.setHist v).mvmem = s.mvmem := rfl
@[simp] theorem State.setHist_host (s : State) (v : List (Nat × HistEntry)) : (s.setHist v).host = s.host := rfl

@[simp] theorem State.setMvmem_cfg (s : State) (v : List (Nat × MV)) : (s.setMvmem v).cfg = s.cfg := rfl
@[simp] theorem State.setMvmem_blk (s : State) (v : List (Nat × MV)) : (s.setMvmem v).blk = s.blk := rfl
@[simp] theorem State.setMvmem_wi (s : State) (v : List (Nat × MV)) : (s.setMvmem v).wi = s.wi := rfl
@[simp] theorem State.setMvmem_wp (s : State) (v : List (Nat × MV)) : (s.setMvmem v).wp = s.wp := rfl
@[simp] theorem State.setMvmem_q (s : State) (v : List (Nat × MV)) : (s.setMvmem v).q = s.q := rfl
@[simp] theorem State.setMvmem_grid (s : State) (v : List (Nat × MV)) : (s.setMvmem v).grid = s.grid := rfl
@[simp] theorem State.setMvmem_flags (s : State) (v : List (Nat × MV)) : (s.setMvmem v).flags = s.flags := rfl
@[simp] theorem State.setMvmem_mvout (s : State) (v : List (Nat × MV)) : (s.setMvmem v).mvout = s.mvout := rfl
@[simp] theorem State.setMvmem_strm (s : State) (v : List (Nat × MV)) : (s.setMvmem v).strm = s.strm := rfl
@[simp] theorem State.setMvmem_irqEn (s : State) (v : List (Nat × MV)) : (s.setMvmem v).irqEn = s.irqEn := rfl
@[simp] theorem State.setMvmem_irqPend (s : State) (v : List (Nat × MV)) : (s.setMvmem v).irqPend = s.irqPend := rfl
@[simp] theorem State.setMvmem_flt (s : State) (v : List (Nat × MV)) : (s.setMvmem v).flt = s.flt := rfl
@[simp] theorem State.setMvmem_arg (s : State) (v : List (Nat × MV)) : (s.setMvmem v).arg = s.arg := rfl
@[simp] theorem State.setMvmem_cq (s : State) (v : List (Nat × MV)) : (s.setMvmem v).cq = s.cq := rfl
@[simp] theorem State.setMvmem_hist (s : State) (v : List (Nat × MV)) : (s.setMvmem v).hist = s.hist := rfl
@[simp] theorem State.setMvmem_mvmem (s : State) (v : List (Nat × MV)) : (s.setMvmem v).mvmem = v := rfl
@[simp] theorem State.setMvmem_host (s : State) (v : List (Nat × MV)) : (s.setMvmem v).host = s.host := rfl

@[simp] theorem State.setHost_cfg (s : State) (v : HostPort) : (s.setHost v).cfg = s.cfg := rfl
@[simp] theorem State.setHost_blk (s : State) (v : HostPort) : (s.setHost v).blk = s.blk := rfl
@[simp] theorem State.setHost_wi (s : State) (v : HostPort) : (s.setHost v).wi = s.wi := rfl
@[simp] theorem State.setHost_wp (s : State) (v : HostPort) : (s.setHost v).wp = s.wp := rfl
@[simp] theorem State.setHost_q (s : State) (v : HostPort) : (s.setHost v).q = s.q := rfl
@[simp] theorem State.setHost_grid (s : State) (v : HostPort) : (s.setHost v).grid = s.grid := rfl
@[simp] theorem State.setHost_flags (s : State) (v : HostPort) : (s.setHost v).flags = s.flags := rfl
@[simp] theorem State.setHost_mvout (s : State) (v : HostPort) : (s.setHost v).mvout = s.mvout := rfl
@[simp] theorem State.setHost_strm (s : State) (v : HostPort) : (s.setHost v).strm = s.strm := rfl
@[simp] theorem State.setHost_irqEn (s : State) (v : HostPort) : (s.setHost v).irqEn = s.irqEn := rfl
@[simp] theorem State.setHost_irqPend (s : State) (v : HostPort) : (s.setHost v).irqPend = s.irqPend := rfl
@[simp] theorem State.setHost_flt (s : State) (v : HostPort) : (s.setHost v).flt = s.flt := rfl
@[simp] theorem State.setHost_arg (s : State) (v : HostPort) : (s.setHost v).arg = s.arg := rfl
@[simp] theorem State.setHost_cq (s : State) (v : HostPort) : (s.setHost v).cq = s.cq := rfl
@[simp] theorem State.setHost_hist (s : State) (v : HostPort) : (s.setHost v).hist = s.hist := rfl
@[simp] theorem State.setHost_mvmem (s : State) (v : HostPort) : (s.setHost v).mvmem = s.mvmem := rfl
@[simp] theorem State.setHost_host (s : State) (v : HostPort) : (s.setHost v).host = v := rfl

@[simp] theorem commit_cfg (irq : Bool) (s : State) : (commit irq s).cfg = s.cfg := by cases irq <;> rfl
@[simp] theorem commit_blk (irq : Bool) (s : State) : (commit irq s).blk = s.blk := by cases irq <;> rfl
@[simp] theorem commit_wi (irq : Bool) (s : State) : (commit irq s).wi = s.wi := by cases irq <;> rfl
@[simp] theorem commit_wp (irq : Bool) (s : State) : (commit irq s).wp = s.wp := by cases irq <;> rfl
@[simp] theorem commit_q (irq : Bool) (s : State) : (commit irq s).q = s.q := by cases irq <;> rfl
@[simp] theorem commit_grid (irq : Bool) (s : State) : (commit irq s).grid = s.grid := by cases irq <;> rfl
@[simp] theorem commit_flags (irq : Bool) (s : State) : (commit irq s).flags = s.flags := by cases irq <;> rfl
@[simp] theorem commit_mvout (irq : Bool) (s : State) : (commit irq s).mvout = s.mvout := by cases irq <;> rfl
@[simp] theorem commit_strm (irq : Bool) (s : State) : (commit irq s).strm = s.strm := by cases irq <;> rfl
@[simp] theorem commit_irqEn (irq : Bool) (s : State) : (commit irq s).irqEn = s.irqEn := by cases irq <;> rfl
@[simp] theorem commit_flt (irq : Bool) (s : State) : (commit irq s).flt = s.flt := by cases irq <;> rfl
@[simp] theorem commit_arg (irq : Bool) (s : State) : (commit irq s).arg = s.arg := by cases irq <;> rfl
@[simp] theorem commit_cq (irq : Bool) (s : State) : (commit irq s).cq = s.cq := by cases irq <;> rfl
@[simp] theorem commit_hist (irq : Bool) (s : State) : (commit irq s).hist = s.hist := by cases irq <;> rfl
@[simp] theorem commit_mvmem (irq : Bool) (s : State) : (commit irq s).mvmem = s.mvmem := by cases irq <;> rfl
@[simp] theorem commit_host (irq : Bool) (s : State) : (commit irq s).host = s.host := by cases irq <;> rfl
@[simp] theorem commit_irqPend (irq : Bool) (s : State) :
    (commit irq s).irqPend = if irq then s.irqPend ||| irqDone else s.irqPend := by
  cases irq <;> rfl

@[simp] theorem acdcPredict_cfg (s : State) : (acdcPredict s).cfg = s.cfg := by unfold acdcPredict; rfl
@[simp] theorem acdcPredict_blk (s : State) : (acdcPredict s).blk = residualBlks s := by
  unfold acdcPredict; rfl
@[simp] theorem acdcPredict_wi (s : State) : (acdcPredict s).wi = s.wi := by unfold acdcPredict; rfl
@[simp] theorem acdcPredict_wp (s : State) : (acdcPredict s).wp = s.wp := by unfold acdcPredict; rfl
@[simp] theorem acdcPredict_q (s : State) : (acdcPredict s).q = s.q := by unfold acdcPredict; rfl
@[simp] theorem acdcPredict_grid (s : State) : (acdcPredict s).grid = s.grid := by unfold acdcPredict; rfl
@[simp] theorem acdcPredict_flags (s : State) : (acdcPredict s).flags = acdcFlags s := by
  unfold acdcPredict; rfl
@[simp] theorem acdcPredict_mvout (s : State) : (acdcPredict s).mvout = s.mvout := by unfold acdcPredict; rfl
@[simp] theorem acdcPredict_strm (s : State) : (acdcPredict s).strm = s.strm := by unfold acdcPredict; rfl
@[simp] theorem acdcPredict_irqEn (s : State) : (acdcPredict s).irqEn = s.irqEn := by unfold acdcPredict; rfl
@[simp] theorem acdcPredict_irqPend (s : State) : (acdcPredict s).irqPend = s.irqPend := by
  unfold acdcPredict; rfl
@[simp] theorem acdcPredict_flt (s : State) : (acdcPredict s).flt = s.flt := by unfold acdcPredict; rfl
@[simp] theorem acdcPredict_arg (s : State) : (acdcPredict s).arg = s.arg := by unfold acdcPredict; rfl
@[simp] theorem acdcPredict_cq (s : State) : (acdcPredict s).cq = s.cq := by unfold acdcPredict; rfl
@[simp] theorem acdcPredict_hist (s : State) : (acdcPredict s).hist = Sparse.write HistEntry.dflt s.hist (curMb s) (acdcEntry s) := by
  unfold acdcPredict; rfl
@[simp] theorem acdcPredict_mvmem (s : State) : (acdcPredict s).mvmem = s.mvmem := by unfold acdcPredict; rfl
@[simp] theorem acdcPredict_host (s : State) : (acdcPredict s).host = s.host := by unfold acdcPredict; rfl

end Sys2Proof.Machine
end

