-- ==== Sys2Proof/Laws/Arith.lean ====
section
/-! SUPPORT. The arithmetic primitives: sums as finite sums, the clamp, the median, and that an integer in
range survives narrowing. -/

namespace Sys2Proof.Machine

/-- The model's sum is the finite sum. -/
theorem sumFin_eq (n : Nat) (f : Fin n → Int) : sumFin n f = ∑ i, f i := (Fin.sum_univ_def f).symm

theorem clampInt_mem {lo hi : Int} (h : lo ≤ hi) (v : Int) : lo ≤ clampInt v lo hi ∧ clampInt v lo hi ≤ hi := by
  simp only [clampInt]; omega

/-- Narrowing to s16 keeps a value in range. -/
theorem toInt_ofInt16 {v : Int} (h1 : -32768 ≤ v) (h2 : v ≤ 32767) : (BitVec.ofInt 16 v).toInt = v := by
  rw [BitVec.toInt_ofInt]; exact Int.bmod_eq_of_le (by omega) (by omega)

/-- Narrowing to s32 keeps a value in range. -/
theorem toInt_ofInt32 {v : Int} (h1 : -2147483648 ≤ v) (h2 : v ≤ 2147483647) :
    (BitVec.ofInt 32 v).toInt = v := by
  rw [BitVec.toInt_ofInt]; exact Int.bmod_eq_of_le (by omega) (by omega)

/-- An s16 value is in its range. -/
theorem coef_range (s : State) (b : BlkIx) (i : Fin 64) : -32768 ≤ coef s b i ∧ coef s b i ≤ 32767 := by
  have h1 := BitVec.le_toInt (s.blk[b][i])
  have h2 := BitVec.toInt_lt (x := s.blk[b][i])
  simp only [coef]; omega

/-- A coefficient of a narrowed block, for a value in range. -/
theorem narrowBlock_toInt {f : Fin 64 → Int} {i : Fin 64} (h1 : -32768 ≤ f i) (h2 : f i ≤ 32767) :
    ((narrowBlock f)[i]).toInt = f i := by
  simp only [narrowBlock, Fin.getElem_fin, Vector.getElem_ofFn]
  exact toInt_ofInt16 h1 h2

/-- A sum of some terms is within the sum of the bounds of all. -/
theorem abs_sum_le_of_subset {ι : Type} [Fintype ι] {f g : ι → Int} (h : ∀ i, |f i| ≤ g i) (p : Finset ι) :
    |∑ i ∈ p, f i| ≤ ∑ i, g i :=
  (Finset.abs_sum_le_sum_abs f p).trans <| (Finset.sum_le_sum fun i _ => h i).trans <|
    Finset.sum_le_sum_of_subset_of_nonneg (Finset.subset_univ p) fun i _ _ => (abs_nonneg _).trans (h i)

/-- A sign times a magnitude. -/
theorem sign_mul_abs_le {x m b : Int} (h0 : 0 ≤ m) (hb : m ≤ b) : -b ≤ x.sign * m ∧ x.sign * m ≤ b := by
  rcases Int.lt_trichotomy x 0 with h | h | h
  · rw [Int.sign_eq_neg_one_of_neg h]; omega
  · subst h; simp; omega
  · rw [Int.sign_eq_one_of_pos h]; omega

theorem abs_sign_mul {x m : Int} (hx : x ≠ 0) (h0 : 0 ≤ m) : |x.sign * m| = m := by
  rcases Int.lt_or_gt_of_ne hx with h | h
  · rw [Int.sign_eq_neg_one_of_neg h]; simp [abs_of_nonneg h0]
  · rw [Int.sign_eq_one_of_pos h]; simp [abs_of_nonneg h0]

end Sys2Proof.Machine
end

