-- ==== Sys2Proof/Laws/Sparse.lean ====
section
/-! SUPPORT. The laws of sparse storage: a read after a write, the canonical form kept by every
operation, and the bound on the listed keys kept by every write below it. -/

namespace Sys2Proof.Machine

variable {α : Type} [DecidableEq α] {dflt : α}

/-- A read after a write to the same key gives the value written. -/
theorem Sparse.read_write_same {l : List (Nat × α)} (h : Sparse.wf dflt l) (n : Nat) (v : α) :
    Sparse.read dflt (Sparse.write dflt l n v) n = v := by
  induction l with
  | nil => by_cases hv : v = dflt <;> simp [Sparse.write, Sparse.read, hv]
  | cons p l ih =>
    obtain ⟨k, w⟩ := p
    obtain ⟨hs, hd⟩ := h
    rw [List.pairwise_cons] at hs
    have hgone : ∀ m : List (Nat × α), (∀ p ∈ m, n < p.1) → Sparse.read dflt m n = dflt := by
      intro m hm
      induction m with
      | nil => rfl
      | cons p m ihm =>
        have := hm p (by simp)
        simp only [Sparse.read]
        rw [if_neg (by omega)]
        exact ihm (fun r hr => hm r (by simp [hr]))
    simp only [Sparse.write]
    split
    · rename_i hlt
      split
      · rename_i hv
        rw [hv]
        apply hgone
        intro p hp
        rcases List.mem_cons.1 hp with rfl | hp
        · exact hlt
        · have := hs.1 p hp; simp at this; omega
      · simp [Sparse.read]
    · split
      · rename_i hnk
        split
        · rename_i hv
          rw [hv]
          apply hgone
          intro p hp
          have := hs.1 p hp; simp at this; omega
        · simp [Sparse.read]
      · rename_i h1 h2
        simp only [Sparse.read]
        rw [if_neg (fun h => h2 h.symm)]
        exact ih ⟨hs.2, fun p hp => hd p (by simp [hp])⟩

/-- A write leaves every other key alone. -/
theorem Sparse.read_write_ne {l : List (Nat × α)} {n m : Nat} (hne : m ≠ n) (v : α) :
    Sparse.read dflt (Sparse.write dflt l n v) m = Sparse.read dflt l m := by
  induction l with
  | nil => by_cases hv : v = dflt <;> simp [Sparse.write, Sparse.read, hv, hne.symm]
  | cons p l ih =>
    obtain ⟨k, w⟩ := p
    simp only [Sparse.write]
    split
    · split
      · rfl
      · simp [Sparse.read, hne.symm]
    · split
      · rename_i hnk
        split <;> simp [Sparse.read, ← hnk, hne.symm]
      · simp only [Sparse.read, ih]

/-- Every entry of a written list is the entry written or an entry of the list before. -/
theorem Sparse.mem_write {l : List (Nat × α)} {n : Nat} {v : α} {p : Nat × α}
    (hp : p ∈ Sparse.write dflt l n v) : (p = (n, v) ∧ v ≠ dflt) ∨ p ∈ l := by
  induction l with
  | nil =>
    simp only [Sparse.write] at hp
    split at hp
    · simp at hp
    · rename_i hv; simp at hp; exact .inl ⟨hp, hv⟩
  | cons r l ih =>
    obtain ⟨k, w⟩ := r
    simp only [Sparse.write] at hp
    split at hp
    · split at hp
      · exact .inr hp
      · rename_i hv
        rcases List.mem_cons.1 hp with rfl | hp
        · exact .inl ⟨rfl, hv⟩
        · exact .inr hp
    · split at hp
      · split at hp
        · exact .inr (List.mem_cons_of_mem _ hp)
        · rename_i hv
          rcases List.mem_cons.1 hp with rfl | hp
          · exact .inl ⟨rfl, hv⟩
          · exact .inr (List.mem_cons_of_mem _ hp)
      · rcases List.mem_cons.1 hp with rfl | hp
        · exact .inr (by simp)
        · rcases ih hp with h | h
          · exact .inl h
          · exact .inr (List.mem_cons_of_mem _ h)

/-- A write keeps the canonical form. -/
theorem Sparse.write_wf {l : List (Nat × α)} (h : Sparse.wf dflt l) (n : Nat) (v : α) :
    Sparse.wf dflt (Sparse.write dflt l n v) := by
  induction l with
  | nil => by_cases hv : v = dflt <;> simp [Sparse.write, Sparse.wf, hv]
  | cons p l ih =>
    obtain ⟨k, w⟩ := p
    obtain ⟨hs, hd⟩ := h
    rw [List.pairwise_cons] at hs
    have hl : Sparse.wf dflt l := ⟨hs.2, fun p hp => hd p (by simp [hp])⟩
    have hw : w ≠ dflt := hd (k, w) (by simp)
    simp only [Sparse.write]
    split
    · rename_i hlt
      split
      · exact ⟨List.pairwise_cons.2 hs, hd⟩
      · rename_i hv
        refine ⟨List.pairwise_cons.2 ⟨?_, List.pairwise_cons.2 hs⟩, ?_⟩
        · intro p hp
          rcases List.mem_cons.1 hp with rfl | hp
          · exact hlt
          · have := hs.1 p hp; simp at this ⊢; omega
        · intro p hp
          rcases List.mem_cons.1 hp with rfl | hp
          · exact hv
          · exact hd p hp
    · split
      · rename_i hnk
        split
        · exact hl
        · rename_i hv
          refine ⟨List.pairwise_cons.2 ⟨fun p hp => ?_, hs.2⟩, ?_⟩
          · have := hs.1 p hp; simp at this ⊢; omega
          · intro p hp
            rcases List.mem_cons.1 hp with rfl | hp
            · exact hv
            · exact hl.2 p hp
      · rename_i h1 h2
        refine ⟨List.pairwise_cons.2 ⟨fun p hp => ?_, (ih hl).1⟩, ?_⟩
        · rcases Sparse.mem_write hp with ⟨rfl, _⟩ | hp
          · simp; omega
          · exact hs.1 p hp
        · intro p hp
          rcases List.mem_cons.1 hp with rfl | hp
          · exact hw
          · exact (ih hl).2 p hp

/-- A write of an entry that meets a condition keeps it of every entry. -/
theorem Sparse.write_all {l : List (Nat × α)} {P : Nat × α → Prop} (h : ∀ p ∈ l, P p) {n : Nat} {v : α}
    (hv : P (n, v)) : ∀ p ∈ Sparse.write dflt l n v, P p := by
  intro p hp
  rcases Sparse.mem_write hp with ⟨rfl, _⟩ | hp
  · exact hv
  · exact h p hp

/-- The entries of a mapped list. -/
theorem Sparse.mem_mapAll {f : α → α} {l : List (Nat × α)} {p : Nat × α}
    (hp : p ∈ Sparse.mapAll dflt f l) : ∃ v, (p.1, v) ∈ l ∧ p.2 = f v ∧ p.2 ≠ dflt := by
  induction l with
  | nil => simp [Sparse.mapAll] at hp
  | cons r l ih =>
    obtain ⟨k, w⟩ := r
    simp only [Sparse.mapAll] at hp
    split at hp
    · obtain ⟨v, h1, h2⟩ := ih hp
      exact ⟨v, List.mem_cons_of_mem _ h1, h2⟩
    · rename_i hw
      rcases List.mem_cons.1 hp with rfl | hp
      · exact ⟨w, by simp, rfl, hw⟩
      · obtain ⟨v, h1, h2⟩ := ih hp
        exact ⟨v, List.mem_cons_of_mem _ h1, h2⟩

/-- Mapping keeps the canonical form. -/
theorem Sparse.mapAll_wf {f : α → α} {l : List (Nat × α)} (h : Sparse.wf dflt l) :
    Sparse.wf dflt (Sparse.mapAll dflt f l) := by
  refine ⟨?_, fun p hp => by obtain ⟨_, _, _, h⟩ := Sparse.mem_mapAll hp; exact h⟩
  induction l with
  | nil => simp [Sparse.mapAll]
  | cons r l ih =>
    obtain ⟨k, w⟩ := r
    obtain ⟨hs, hd⟩ := h
    rw [List.pairwise_cons] at hs
    have ihl := ih ⟨hs.2, fun p hp => hd p (by simp [hp])⟩
    simp only [Sparse.mapAll]
    split
    · exact ihl
    · refine List.pairwise_cons.2 ⟨fun p hp => ?_, ihl⟩
      obtain ⟨v, hv, _⟩ := Sparse.mem_mapAll hp
      have := hs.1 (p.1, v) hv
      simpa using this

omit [DecidableEq α] in
/-- A key that no entry lists reads as the default. -/
theorem Sparse.read_unlisted {l : List (Nat × α)} {n : Nat} (h : ∀ p ∈ l, p.1 ≠ n) :
    Sparse.read dflt l n = dflt := by
  induction l with
  | nil => rfl
  | cons p l ih =>
    simp only [Sparse.read]
    rw [if_neg (h p (by simp))]
    exact ih (fun r hr => h r (by simp [hr]))

omit [DecidableEq α] in
/-- A value read is the default or listed. -/
theorem Sparse.read_mem (l : List (Nat × α)) (n : Nat) :
    Sparse.read dflt l n = dflt ∨ (n, Sparse.read dflt l n) ∈ l := by
  induction l with
  | nil => exact .inl rfl
  | cons p l ih =>
    obtain ⟨k, w⟩ := p
    simp only [Sparse.read]
    split
    · rename_i h; subst h; exact .inr (by simp)
    · rcases ih with h | h
      · exact .inl h
      · exact .inr (List.mem_cons_of_mem _ h)

/-- A mapped list reads as the map of what the list reads as. -/
theorem Sparse.read_mapAll {f : α → α} (hf : f dflt = dflt) {l : List (Nat × α)} (h : Sparse.wf dflt l)
    (n : Nat) : Sparse.read dflt (Sparse.mapAll dflt f l) n = f (Sparse.read dflt l n) := by
  induction l with
  | nil => simp [Sparse.mapAll, Sparse.read, hf]
  | cons r l ih =>
    obtain ⟨k, w⟩ := r
    obtain ⟨hs, hd⟩ := h
    rw [List.pairwise_cons] at hs
    have ihl := ih ⟨hs.2, fun p hp => hd p (by simp [hp])⟩
    simp only [Sparse.mapAll, Sparse.read]
    split
    · rename_i hw
      split
      · rename_i hk
        rw [hw]
        apply Sparse.read_unlisted
        intro p hp
        obtain ⟨v, hv, _⟩ := Sparse.mem_mapAll hp
        have := hs.1 _ hv
        simp at this; omega
      · exact ihl
    · simp only [Sparse.read]
      split
      · rfl
      · exact ihl

/-! ### The bitstream buffer -/

/-- A byte read after it is written. -/
theorem Memory.read_write_same {m : Memory} (h : Memory.wf m) (k : Nat) (v : Byte) :
    Memory.read (Memory.write m k v) k = v := Sparse.read_write_same h k v

/-- A byte other than the one written. -/
theorem Memory.read_write_ne (m : Memory) {k n : Nat} (hne : n ≠ k) (v : Byte) :
    Memory.read (Memory.write m k v) n = Memory.read m n := Sparse.read_write_ne hne v

/-- A byte write keeps the canonical form. -/
theorem Memory.write_wf {m : Memory} (h : Memory.wf m) (k : Nat) (v : Byte) : Memory.wf (Memory.write m k v) :=
  Sparse.write_wf h k v

/-- A byte write below the capacity keeps the buffer within it. -/
theorem bufferOk_write {cap : Nat} {m : Memory} (h : BufferOk cap m) {k : Nat} (hk : k < cap) (v : Byte) :
    BufferOk cap (Memory.write m k v) :=
  ⟨Memory.write_wf h.1 k v, Sparse.write_all h.2 hk⟩

end Sys2Proof.Machine
end

