-- ==== Sys2Proof/Laws/Stream.lean ====
section
/-! SUPPORT. What the bitstream primitives do: FLUSH keeps the stream, APPEND adds the low bits of its value
at the end, both keep the accumulator's invariant and touch no flushed byte (40 R110 to R112). -/

namespace Sys2Proof.Machine

/-! ### Bits, most significant first -/

theorem bitsMsb_length (n v : Nat) : (bitsMsb n v).length = n := by simp [bitsMsb]

/-- The bits of v depend on v modulo 2^n only. -/
theorem bitsMsb_mod (n v : Nat) : bitsMsb n (v % 2 ^ n) = bitsMsb n v := by
  apply List.map_congr_left
  intro i hi
  have : i < n := List.mem_range.1 hi
  rw [Nat.testBit_mod_two_pow]
  simp only [Bool.and_eq_right_iff_imp, decide_eq_true_eq]
  omega

/-- The first a of a + b bits are those of v shifted right by b. -/
theorem bitsMsb_add (a b v : Nat) : bitsMsb (a + b) v = bitsMsb a (v >>> b) ++ bitsMsb b v := by
  apply List.ext_getElem
  · simp [bitsMsb]
  · intro i h1 h2
    simp only [bitsMsb, List.length_map, List.length_range] at h1
    simp only [bitsMsb, List.getElem_map, List.getElem_range, List.getElem_append, List.length_map,
      List.length_range]
    split
    · rw [Nat.testBit_shiftRight]; congr 1; omega
    · congr 1; omega

theorem bitsMsb_zero (n : Nat) : bitsMsb n 0 = List.replicate n false := by
  apply List.ext_getElem
  · simp [bitsMsb]
  · intro i h1 h2; simp [bitsMsb]

theorem byteBits_succ (m : Memory) (k n : Nat) :
    byteBits m k (n + 1) = byteBits m k n ++ bitsMsb 8 (Memory.read m (k + n)).toNat := by
  simp [byteBits, List.range_succ, List.flatMap_append]

theorem byteBits_congr {m m' : Memory} {k n : Nat}
    (h : ∀ j < n, Memory.read m' (k + j) = Memory.read m (k + j)) : byteBits m' k n = byteBits m k n := by
  induction n with
  | zero => rfl
  | succ n ih => rw [byteBits_succ, byteBits_succ, ih (fun j hj => h j (by omega)), h n (by omega)]

theorem byteBits_add (m : Memory) (k n p : Nat) :
    byteBits m k (n + p) = byteBits m k n ++ byteBits m (k + n) p := by
  induction p with
  | zero => simp [byteBits]
  | succ p ih => rw [← Nat.add_assoc, byteBits_succ, byteBits_succ, ih, List.append_assoc, Nat.add_assoc]

/-! ### A run of byte writes -/

/-- Bytes base..base+n-1 of a memory written. -/
theorem Memory.foldl_write {m : Memory} (hm : Memory.wf m) (base : Nat) (f : Nat → Byte) (n : Nat) :
    Memory.wf ((List.range n).foldl (fun m j => Memory.write m (base + j) (f j)) m) ∧
    (∀ j < n, Memory.read ((List.range n).foldl (fun m j => Memory.write m (base + j) (f j)) m) (base + j) = f j) ∧
    (∀ k, k < base ∨ base + n ≤ k →
      Memory.read ((List.range n).foldl (fun m j => Memory.write m (base + j) (f j)) m) k = Memory.read m k) ∧
    (∀ cap, BufferOk cap m → base + n ≤ cap →
      BufferOk cap ((List.range n).foldl (fun m j => Memory.write m (base + j) (f j)) m)) := by
  induction n with
  | zero => exact ⟨hm, by simp, fun k _ => rfl, fun cap h _ => h⟩
  | succ n ih =>
    obtain ⟨h1, h2, h3, h4⟩ := ih
    simp only [List.range_succ, List.foldl_append, List.foldl_cons, List.foldl_nil]
    refine ⟨Memory.write_wf h1 _ _, ?_, ?_, ?_⟩
    · intro j hj
      by_cases hjn : j = n
      · subst hjn; exact Memory.read_write_same h1 _ _
      · rw [Memory.read_write_ne _ (by omega)]; exact h2 j (by omega)
    · intro k hk
      rw [Memory.read_write_ne _ (by omega)]
      exact h3 k (by omega)
    · intro cap hcap hle
      exact bufferOk_write (h4 cap hcap (by omega)) (by omega) _

/-! ### FLUSH -/

@[simp] theorem flush_bspos (st : Stream) : (flush st).bspos = st.bspos + st.accn / 8 := rfl
@[simp] theorem flush_bsfin (st : Stream) : (flush st).bsfin = st.bsfin := rfl
@[simp] theorem flush_accn (st : Stream) : (flush st).accn = st.accn % 8 := by simp [flush]; omega

theorem flush_acc (st : Stream) : (flush st).acc.toNat = st.acc.toNat % 2 ^ (st.accn % 8) := by
  have h8 : st.accn - 8 * (st.accn / 8) = st.accn % 8 := by omega
  have hlt : 2 ^ (st.accn % 8) ≤ 2 ^ 8 := Nat.pow_le_pow_right (by omega) (by omega)
  simp only [flush, h8, BitVec.toNat_and, BitVec.toNat_ofNat]
  rw [Nat.mod_eq_of_lt (by omega), Nat.and_two_pow_sub_one_eq_mod]

@[simp] theorem flush_streamLen (st : Stream) : streamLen (flush st) = streamLen st := by
  simp [streamLen]; omega

/-- FLUSH keeps the canonical form, and writes the bytes from BSPOS on only. -/
theorem flush_bs {st : Stream} (hm : Memory.wf st.bs) :
    Memory.wf (flush st).bs ∧
    (∀ j < st.accn / 8, Memory.read (flush st).bs (st.bspos + j) = flushByte st j) ∧
    (∀ k, k < st.bspos ∨ st.bspos + st.accn / 8 ≤ k → Memory.read (flush st).bs k = Memory.read st.bs k) ∧
    (∀ cap, BufferOk cap st.bs → streamLen st ≤ 8 * cap → BufferOk cap (flush st).bs) := by
  obtain ⟨h1, h2, h3, h4⟩ := Memory.foldl_write hm st.bspos (flushByte st) (st.accn / 8)
  refine ⟨h1, h2, h3, fun cap hc hl => h4 cap hc ?_⟩
  simp only [streamLen] at hl; omega

theorem flushByte_bits (st : Stream) (j : Nat) :
    bitsMsb 8 (flushByte st j).toNat = bitsMsb 8 (st.acc.toNat >>> (st.accn - 8 * (j + 1))) := by
  simp only [flushByte, BitVec.toNat_setWidth, BitVec.toNat_ushiftRight]
  exact bitsMsb_mod 8 _

theorem flush_bits_aux (st : Stream) (n : Nat) (hn : n ≤ st.accn / 8) :
    (List.range n).flatMap (fun j => bitsMsb 8 (flushByte st j).toNat) ++ bitsMsb (st.accn - 8 * n) st.acc.toNat =
      bitsMsb st.accn st.acc.toNat := by
  induction n with
  | zero => simp
  | succ n ih =>
    rw [← ih (by omega), List.range_succ, List.flatMap_append, List.append_assoc]
    congr 1
    have : st.accn - 8 * n = 8 + (st.accn - 8 * (n + 1)) := by omega
    rw [this, bitsMsb_add]
    simp [flushByte_bits]

/-- FLUSH keeps the stream (40 R111: "It keeps rule R110"). -/
theorem flush_streamBits {st : Stream} (hm : Memory.wf st.bs) : streamBits (flush st) = streamBits st := by
  obtain ⟨-, h2, h3, -⟩ := flush_bs hm
  simp only [streamBits, flush_bspos, flush_accn, flush_acc, byteBits_add, Nat.zero_add, bitsMsb_mod]
  rw [byteBits_congr (m := st.bs) (fun j hj => h3 _ (by omega)), List.append_assoc]
  congr 1
  rw [← flush_bits_aux st (st.accn / 8) le_rfl]
  congr 1
  · simp only [byteBits, List.flatMap_def]
    congr 1
    apply List.map_congr_left
    intro j hj
    rw [h2 j (List.mem_range.1 hj)]
  · congr 1; omega

/-- The accumulator's part of the stream invariant after FLUSH. -/
theorem flush_acc_lt (st : Stream) : (flush st).acc.toNat < 2 ^ (flush st).accn := by
  rw [flush_acc, flush_accn]; exact Nat.mod_lt _ (Nat.two_pow_pos _)

/-! ### APPEND -/

@[simp] theorem pushBits_bs (v : Word) (n : Nat) (st : Stream) : (pushBits v n st).bs = st.bs := rfl
@[simp] theorem pushBits_bspos (v : Word) (n : Nat) (st : Stream) : (pushBits v n st).bspos = st.bspos := rfl
@[simp] theorem pushBits_bsfin (v : Word) (n : Nat) (st : Stream) : (pushBits v n st).bsfin = st.bsfin := rfl
@[simp] theorem pushBits_accn (v : Word) (n : Nat) (st : Stream) : (pushBits v n st).accn = st.accn + n := rfl

theorem pushBits_acc {v : Word} {n : Nat} {st : Stream} (ha : st.acc.toNat < 2 ^ st.accn)
    (hn : st.accn + n ≤ 64) : (pushBits v n st).acc.toNat = st.acc.toNat * 2 ^ n + v.toNat % 2 ^ n := by
  have h1 : st.acc.toNat * 2 ^ n < 2 ^ 64 :=
    calc st.acc.toNat * 2 ^ n < 2 ^ st.accn * 2 ^ n := Nat.mul_lt_mul_of_pos_right ha (Nat.two_pow_pos _)
      _ = 2 ^ (st.accn + n) := (Nat.pow_add ..).symm
      _ ≤ 2 ^ 64 := Nat.pow_le_pow_right (by omega) hn
  have h2 : v.toNat % 2 ^ n < 2 ^ n := Nat.mod_lt _ (Nat.two_pow_pos _)
  have h3 : 2 ^ n ≤ 2 ^ 64 := Nat.pow_le_pow_right (by omega) (by omega)
  simp only [pushBits, BitVec.toNat_or, BitVec.toNat_shiftLeft, BitVec.toNat_ofNat, Nat.shiftLeft_eq]
  rw [Nat.mod_eq_of_lt h1, Nat.mod_eq_of_lt (by omega : v.toNat % 2 ^ n < 2 ^ 64)]
  rw [Nat.mul_comm, ← Nat.two_pow_add_eq_or_of_lt h2]

theorem pushBits_streamBits {v : Word} {n : Nat} {st : Stream} (ha : st.acc.toNat < 2 ^ st.accn)
    (hn : st.accn + n ≤ 64) : streamBits (pushBits v n st) = streamBits st ++ bitsMsb n v.toNat := by
  have h2 : v.toNat % 2 ^ n < 2 ^ n := Nat.mod_lt _ (Nat.two_pow_pos _)
  simp only [streamBits, pushBits_bs, pushBits_bspos, pushBits_accn, pushBits_acc ha hn, List.append_assoc]
  congr 1
  rw [bitsMsb_add, Nat.shiftRight_eq_div_pow, Nat.mul_comm, Nat.mul_add_div (Nat.two_pow_pos _),
    Nat.div_eq_of_lt h2, Nat.add_zero]
  congr 1
  rw [← bitsMsb_mod, Nat.mul_add_mod, Nat.mod_mod, bitsMsb_mod]

theorem pushBits_acc_lt {v : Word} {n : Nat} {st : Stream} (ha : st.acc.toNat < 2 ^ st.accn)
    (hn : st.accn + n ≤ 64) : (pushBits v n st).acc.toNat < 2 ^ (pushBits v n st).accn := by
  have h2 : v.toNat % 2 ^ n < 2 ^ n := Nat.mod_lt _ (Nat.two_pow_pos _)
  rw [pushBits_acc ha hn, pushBits_accn, Nat.pow_add]
  calc st.acc.toNat * 2 ^ n + v.toNat % 2 ^ n < (st.acc.toNat + 1) * 2 ^ n := by rw [Nat.succ_mul]; omega
    _ ≤ 2 ^ st.accn * 2 ^ n := Nat.mul_le_mul_right _ ha

/-- All that APPEND does, for up to 32 bits: the stream grows by the low n bits of v, BSFIN stays, BSPOS moves
by the whole bytes flushed, the accumulator's invariant holds, and no byte outside the flushed ones changes. -/
theorem append_spec {v : Word} {n : Nat} {st : Stream} (hm : Memory.wf st.bs) (_hk : st.accn ≤ 63)
    (ha : st.acc.toNat < 2 ^ st.accn) (hn : n ≤ 32) :
    streamBits (append v n st) = streamBits st ++ bitsMsb n v.toNat ∧
    streamLen (append v n st) = streamLen st + n ∧
    (append v n st).bsfin = st.bsfin ∧
    (append v n st).bspos = st.bspos + (if 63 < st.accn + n then st.accn / 8 else 0) ∧
    (append v n st).accn ≤ 63 ∧
    (append v n st).acc.toNat < 2 ^ (append v n st).accn ∧
    Memory.wf (append v n st).bs ∧
    (∀ k, k < st.bspos ∨ (append v n st).bspos ≤ k → Memory.read (append v n st).bs k = Memory.read st.bs k) ∧
    (∀ cap, BufferOk cap st.bs → streamLen st ≤ 8 * cap → BufferOk cap (append v n st).bs) := by
  simp only [append]
  split
  · obtain ⟨h1, -, h3, h4⟩ := flush_bs hm
    have hacc := flush_acc_lt st
    have hle : (flush st).accn + n ≤ 64 := by rw [flush_accn]; omega
    refine ⟨by rw [pushBits_streamBits hacc hle, flush_streamBits hm], ?_, rfl, rfl, ?_,
      pushBits_acc_lt hacc hle, h1, h3, h4⟩
    · have := flush_streamLen st
      simp only [streamLen, pushBits_bspos, pushBits_accn] at this ⊢; omega
    · rw [pushBits_accn, flush_accn]; omega
  · have hle : st.accn + n ≤ 64 := by omega
    refine ⟨pushBits_streamBits ha hle, by simp [streamLen]; omega, rfl, by simp, by simp; omega,
      pushBits_acc_lt ha hle, hm, fun k _ => rfl, fun cap h _ => h⟩

/-- STREAM has the length BS_BITS reads. -/
theorem streamBits_length (st : Stream) : (streamBits st).length = streamLen st := by
  have : ∀ (m : Memory) k n, (byteBits m k n).length = 8 * n := by
    intro m k n
    induction n with
    | zero => rfl
    | succ n ih => rw [byteBits_succ, List.length_append, ih, bitsMsb_length]; omega
  simp [streamBits, streamLen, this, bitsMsb_length]

end Sys2Proof.Machine
end

