-- ==== Sys2Proof/Laws/BitPacker.lean ====
section
/-! SUPPORT. What the bit packer's commands do to the stream, each said once over APPEND and FLUSH
(40 R115 to R118). -/

namespace Sys2Proof.Machine

/-- The stream part of the invariant, with the buffer: what a bitstream command needs and keeps. -/
abbrev PackOk (cap : Nat) (st : Stream) : Prop := StreamOk cap st ∧ BufferOk cap st.bs

/-- Zero bits appended piece by piece are zero bits appended. -/
theorem foldl_append_spec (cs : List Nat) (hc : ∀ c ∈ cs, c ≤ 32) {st : Stream} (hm : Memory.wf st.bs)
    (hk : st.accn ≤ 63) (ha : st.acc.toNat < 2 ^ st.accn) :
    let t := cs.foldl (fun t c => append 0 c t) st
    streamBits t = streamBits st ++ List.replicate cs.sum false ∧
    streamLen t = streamLen st + cs.sum ∧ t.bsfin = st.bsfin ∧ st.bspos ≤ t.bspos ∧ t.accn ≤ 63 ∧
    t.acc.toNat < 2 ^ t.accn ∧ Memory.wf t.bs ∧
    (∀ k, k < st.bspos ∨ t.bspos ≤ k → Memory.read t.bs k = Memory.read st.bs k) ∧
    (∀ cap, BufferOk cap st.bs → streamLen st + cs.sum ≤ 8 * cap → BufferOk cap t.bs) := by
  induction cs generalizing st with
  | nil => exact ⟨by simp, rfl, rfl, le_rfl, hk, ha, hm, fun _ _ => rfl, fun _ h _ => h⟩
  | cons c cs ih =>
    obtain ⟨a1, a2, a3, a4, a5, a6, a7, a8, a9⟩ :=
      append_spec (v := 0) (n := c) hm hk ha (hc c (by simp))
    obtain ⟨b1, b2, b3, b4, b5, b6, b7, b8, b9⟩ := ih (fun x hx => hc x (by simp [hx])) a7 a5 a6
    simp only [List.foldl_cons, List.sum_cons]
    have hpos : st.bspos ≤ (append 0 c st).bspos := by rw [a4]; omega
    refine ⟨?_, by omega, by rw [b3, a3], by omega, b5, b6, b7, ?_, ?_⟩
    · rw [b1, a1, List.append_assoc, show (0 : Word).toNat = 0 from rfl, bitsMsb_zero,
        List.replicate_append_replicate]
    · intro k hk'
      rw [b8 k (by omega), a8 k (by omega)]
    · intro cap hcap hle
      exact b9 cap (a9 cap hcap (by omega)) (by omega)

/-- What APPEND does to the cursor (40 R112). -/
theorem append_cursor (v : Word) (n : Nat) (st : Stream) :
    ((append v n st).bspos, (append v n st).accn) = appendCursor (st.bspos, st.accn) n := by
  simp only [append, appendCursor, pushBits_bspos, pushBits_accn]
  split <;> simp

theorem zeroChunks_sum (n : Nat) : (zeroChunks n).sum = n := by
  simp only [zeroChunks, List.sum_append, List.sum_replicate, smul_eq_mul]
  split <;> simp <;> omega

theorem zeroChunks_le (n : Nat) : ∀ c ∈ zeroChunks n, c ≤ 32 := by
  intro c hc
  simp only [zeroChunks, List.mem_append, List.mem_replicate] at hc
  rcases hc with ⟨-, rfl⟩ | hc
  · omega
  · split at hc <;> simp at hc; omega

/-- What a run of APPENDs of zero bits does to the cursor. -/
theorem foldl_append_cursor (cs : List Nat) (st : Stream) :
    ((cs.foldl (fun t c => append 0 c t) st).bspos, (cs.foldl (fun t c => append 0 c t) st).accn) =
      cs.foldl appendCursor (st.bspos, st.accn) := by
  induction cs generalizing st with
  | nil => rfl
  | cons c cs ih => rw [List.foldl_cons, List.foldl_cons, ih, append_cursor]

/-- The accumulator never overflows (40 R112). -/
theorem foldl_appendCursor_le (cs : List Nat) (hc : ∀ c ∈ cs, c ≤ 32) {cur : Nat × Nat} (hk : cur.2 ≤ 63) :
    (cs.foldl appendCursor cur).2 ≤ 63 := by
  induction cs generalizing cur with
  | nil => exact hk
  | cons c cs ih =>
    refine ih (fun x hx => hc x (by simp [hx])) ?_
    have := hc c (by simp)
    simp only [appendCursor]
    split <;> simp only <;> omega

/-- What PUTZERO does to the cursor: the pieces of 32 bits, then the rest (40 R115). -/
theorem appendZeros_cursor (n : Nat) {st : Stream} (hk : st.accn ≤ 63) :
    ((appendZeros n st).bspos, (appendZeros n st).accn) =
      (List.replicate (n / 32) 32 ++ [n % 32]).foldl appendCursor (st.bspos, st.accn) := by
  rw [appendZeros, foldl_append_cursor, zeroChunks]
  split
  · rename_i h0
    have := foldl_appendCursor_le (List.replicate (n / 32) 32)
      (fun c hc => (List.eq_of_mem_replicate hc).le) (cur := (st.bspos, st.accn)) hk
    rw [h0, List.append_nil, List.foldl_append, List.foldl_cons, List.foldl_nil]
    rw [appendCursor, if_neg (by omega), Nat.add_zero]
  · rfl

/-- All that PUTZERO does to the stream. -/
theorem appendZeros_spec (n : Nat) {st : Stream} (hm : Memory.wf st.bs)
    (hk : st.accn ≤ 63) (ha : st.acc.toNat < 2 ^ st.accn) :
    streamBits (appendZeros n st) = streamBits st ++ List.replicate n false ∧
    streamLen (appendZeros n st) = streamLen st + n ∧ (appendZeros n st).bsfin = st.bsfin ∧
    st.bspos ≤ (appendZeros n st).bspos ∧ (appendZeros n st).accn ≤ 63 ∧
    (appendZeros n st).acc.toNat < 2 ^ (appendZeros n st).accn ∧ Memory.wf (appendZeros n st).bs ∧
    (∀ k, k < st.bspos ∨ (appendZeros n st).bspos ≤ k →
      Memory.read (appendZeros n st).bs k = Memory.read st.bs k) ∧
    (∀ cap, BufferOk cap st.bs → streamLen st + n ≤ 8 * cap → BufferOk cap (appendZeros n st).bs) := by
  have h := foldl_append_spec (zeroChunks n) (zeroChunks_le n) hm hk ha
  rw [zeroChunks_sum] at h
  exact h

theorem padCount_le (st : Stream) : padCount st ≤ 7 := by simp only [padCount]; omega

/-- Padding rounds the stream's length up to a byte. -/
theorem streamLen_pad (st : Stream) : (streamLen st + padCount st) % 8 = 0 ∧
    streamLen st + padCount st = 8 * ((streamLen st + 7) / 8) := by
  simp only [streamLen, padCount]; omega

/-- All that FINISH does to an unfinished stream. -/
theorem finishStream_spec {cap : Nat} {st : Stream} (h : PackOk cap st) :
    streamBits (finishStream st) = streamBits st ++ List.replicate (padCount st) false ∧
    (finishStream st).accn = 0 ∧ (finishStream st).acc = 0 ∧
    (finishStream st).bspos = (streamLen st + 7) / 8 ∧ (finishStream st).bsfin = true ∧
    (∀ k, k < st.bspos ∨ (finishStream st).bspos ≤ k →
      Memory.read (finishStream st).bs k = Memory.read st.bs k) ∧ PackOk cap (finishStream st) := by
  obtain ⟨⟨hk, ha, hl, -⟩, hb⟩ := h
  have hpad := padCount_le st
  have hlen := streamLen_pad st
  obtain ⟨a1, a2, a3, a4, a5, a6, a7, a8, a9⟩ :=
    append_spec (v := 0) (n := padCount st) hb.1 hk ha (by omega)
  rw [show append 0 (padCount st) st = padToByte st from rfl] at a1 a2 a3 a4 a5 a6 a7 a8 a9
  obtain ⟨f1, f2, f3, f4⟩ := flush_bs a7
  have hfl := flush_streamLen (padToByte st)
  have hlp : streamLen (padToByte st) = 8 * ((streamLen st + 7) / 8) := by
    rw [a2]; exact hlen.2
  have hmod : (padToByte st).accn % 8 = 0 := by simp only [streamLen] at hlp; omega
  have haccn : (flush (padToByte st)).accn = 0 := by rw [flush_accn, hmod]
  have hpos : (flush (padToByte st)).bspos = (streamLen st + 7) / 8 := by
    simp only [streamLen] at hfl hlp
    simp only [streamLen]
    omega
  have hacc : (flush (padToByte st)).acc.toNat < 2 ^ 0 := by rw [← haccn]; exact flush_acc_lt _
  have hbits : streamBits (finishStream st) = streamBits (flush (padToByte st)) := rfl
  have hb0 : st.bspos ≤ (padToByte st).bspos := by rw [a4]; omega
  have hbuf : BufferOk cap (finishStream st).bs :=
    f4 cap (a9 cap hb hl) (by rw [hlp]; omega)
  refine ⟨?_, haccn, BitVec.eq_of_toNat_eq (Nat.lt_one_iff.1 hacc), hpos, rfl, ?_, ⟨?_, hbuf⟩⟩
  · rw [hbits, flush_streamBits a7, a1, show (0 : Word).toNat = 0 from rfl, bitsMsb_zero]
  · intro k hk'
    have hle : (padToByte st).bspos ≤ (flush (padToByte st)).bspos := by simp
    have h1 : (finishStream st).bspos = (flush (padToByte st)).bspos := rfl
    have h2 : (flush (padToByte st)).bspos = (padToByte st).bspos + (padToByte st).accn / 8 := rfl
    show Memory.read (flush (padToByte st)).bs k = _
    rw [f3 k (by omega), a8 k (by omega)]
  · refine ⟨?_, ?_, ?_, fun _ => haccn⟩
    · show (flush (padToByte st)).accn ≤ 63; omega
    · show (flush (padToByte st)).acc.toNat < 2 ^ (flush (padToByte st)).accn
      exact flush_acc_lt _
    · show streamLen (flush (padToByte st)) ≤ _; rw [hfl, hlp]; omega

/-- CHECK_WRITE passes exactly on an unfinished stream with room for the bits (40 R118). -/
theorem checkWrite_none {cap n : Nat} {st : Stream} :
    checkWrite cap st n = none ↔ st.bsfin = false ∧ streamLen st + n ≤ 8 * cap := by
  simp only [checkWrite]
  cases st.bsfin <;> simp

end Sys2Proof.Machine
end

