-- ==== Sys2Proof/Laws/Exec.lean ====
section
/-! SUPPORT. What `exec` can do, said once: a command ends by `conclude` of its effect, so it either faults,
changing nothing but the fault record, or commits the effect its rule gives. -/

namespace Sys2Proof.Machine

/-- The effect of each command before it ends: the new state, or the fault it takes. -/
def effect (i : Instr) (s : State) : Except FaultCode State :=
  match i with
  | .nop _ _ => .ok s
  | .framebegin _ _ => .ok (frameBegin s)
  | .mbbegin _ x y => withGrid s <|
    if s.grid.mbw.toNat ≤ x.toNat ∨ s.grid.mbh.toNat ≤ y.toNat then .error .badOperand
    else .ok (mbBegin x y s)
  | .bsreset _ _ => .ok (s.setStrm { s.strm with bspos := 0, acc := 0, accn := 0, bsfin := false })
  | .putbits _ nb v =>
    if 32 < putWidth nb then .error .badOperand
    else guardedWrite s (putWidth nb) (append v (putWidth nb) s.strm)
  | .putzero _ nz _ => guardedWrite s (zeroWidth nz) (appendZeros (zeroWidth nz) s.strm)
  | .padbyte _ _ => if s.strm.bsfin then .error .bsFinished else .ok (s.setStrm (padToByte s.strm))
  | .finish _ _ => if s.strm.bsfin then .ok s else .ok (s.setStrm (finishStream s.strm))
  | .qset _ v _ => .ok (s.setQ (clampQ v.toNat))
  | .qdelta _ dq _ =>
    if -2 ≤ deltaOperand dq ∧ deltaOperand dq ≤ 2 then .ok (s.setQ (clampQ (s.q.toNat + deltaOperand dq)))
    else .error .badOperand
  | .qnext _ _ => .ok (s.setQ (BitVec.ofNat 5 (nextQ s.cfg.qladder s.q.toNat)))
  | .qintra _ d src role _ => .ok (storeLevels s d 1 (qintraLevel s src role))
  | .qinter _ d src _ => .ok (storeLevels s d 0 (qinterLevel s src))
  | .dqintra _ d src role _ => .ok (s.setBlk d (mismatch (narrowBlock (dqintraValue s src role))))
  | .dqinter _ d src _ => .ok (s.setBlk d (mismatch (narrowBlock (dqinterValue s src))))
  | .cbpcalc _ mode _ =>
    .ok (s.setFlags { s.flags with cbp := cbpMask (fun j => blockCoded (cbpLow mode) s.blk[mbBuf j]) })
  | .fdct _ d src _ => .ok (s.setBlk d (narrowBlock (fdctValue s src)))
  | .idct _ d src _ => .ok (s.setBlk d (narrowBlock (idctValue s src)))
  | .copy _ d src _ => .ok (s.setBlk d s.blk[src])
  | .acdcpred _ _ => withGrid s (.ok (acdcPredict s))
  | .mvset _ k x y => withGrid s (.ok (s.writeMv (curMb s) k (vecOperand x y)))
  | .mvset4 _ x y => withGrid s (.ok (setAllMv s (vecOperand x y)))
  | .mvpred _ k _ => withGrid s (.ok (s.setMvout (mvPredict s k)))

/-- Every command ends by `conclude` of its effect. -/
theorem exec_eq_conclude (i : Instr) (s : State) : exec i s = conclude i s (effect i s) := by
  cases i <;> rfl

/-- The two ways a command ends. -/
theorem exec_cases {i : Instr} {s t : State} (h : exec i s = .next t) :
    (∃ s', effect i s = .ok s' ∧ t = commit i.irq s') ∨
    (∃ c, effect i s = .error c ∧ t = takeFault c i.cmdWord i.argWord s) := by
  rw [exec_eq_conclude] at h
  cases he : effect i s with
  | ok s' => rw [he] at h; exact .inl ⟨s', rfl, by simpa [conclude] using h.symm⟩
  | error c => rw [he] at h; exact .inr ⟨c, rfl, by simpa [conclude] using h.symm⟩

theorem exec_of_ok {i : Instr} {s s' : State} (h : effect i s = .ok s') : exec i s = .next (commit i.irq s') := by
  rw [exec_eq_conclude, h]; rfl

theorem exec_of_error {i : Instr} {s : State} {c : FaultCode} (h : effect i s = .error c) :
    exec i s = .next (takeFault c i.cmdWord i.argWord s) := by
  rw [exec_eq_conclude, h]; rfl

/-- `withGrid` passes its effect on exactly when the grid is valid. -/
theorem withGrid_ok {s s' : State} {r : Except FaultCode State} (h : withGrid s r = .ok s') :
    s.grid.ok = true ∧ r = .ok s' := by
  unfold withGrid at h
  split at h
  · exact ⟨‹_›, h⟩
  · cases h

/-- `guardedWrite` stores its stream exactly when CHECK_WRITE passes. -/
theorem guardedWrite_ok {s s' : State} {n : Nat} {st : Stream} (h : guardedWrite s n st = .ok s') :
    s.strm.bsfin = false ∧ streamLen s.strm + n ≤ 8 * s.cfg.bsCap ∧ s' = s.setStrm st := by
  unfold guardedWrite at h
  split at h
  · cases h
  · rename_i hc
    obtain ⟨h1, h2⟩ := checkWrite_none.1 hc
    exact ⟨h1, h2, by simpa using h.symm⟩

/-! ### Fields of a committed or faulted state -/

theorem commit_eq (irq : Bool) (s : State) : commit irq s = { s with irqPend := donePend irq s } := by
  cases irq <;> rfl

theorem takeFault_eq (c : FaultCode) (i : Instr) (s : State) :
    takeFault c i.cmdWord i.argWord s = faulted c i s := rfl

/-- No effect touches the configuration, the tables, ARG, the queue, the interrupt and fault registers or
the host side. -/
theorem effect_frame {i : Instr} {s s' : State} (h : effect i s = .ok s') :
    s'.cfg = s.cfg ∧ s'.wi = s.wi ∧ s'.wp = s.wp ∧ s'.irqEn = s.irqEn ∧ s'.irqPend = s.irqPend ∧
    s'.flt = s.flt ∧ s'.arg = s.arg ∧ s'.cq = s.cq ∧ s'.host = s.host := by
  cases i <;> simp only [effect] at h
  case mbbegin =>
    obtain ⟨-, h⟩ := withGrid_ok h
    split at h
    · cases h
    · obtain rfl := Except.ok.inj h; simp [mbBegin]
  case putbits =>
    split at h
    · cases h
    · obtain ⟨-, -, rfl⟩ := guardedWrite_ok h; simp
  case putzero => obtain ⟨-, -, rfl⟩ := guardedWrite_ok h; simp
  case padbyte =>
    split at h
    · cases h
    · obtain rfl := Except.ok.inj h; simp
  case finish => split at h <;> (obtain rfl := Except.ok.inj h; simp)
  case qdelta =>
    split at h
    · obtain rfl := Except.ok.inj h; simp
    · cases h
  case acdcpred => obtain ⟨-, h⟩ := withGrid_ok h; obtain rfl := Except.ok.inj h; simp [acdcPredict]
  case mvset => obtain ⟨-, h⟩ := withGrid_ok h; obtain rfl := Except.ok.inj h; simp [State.writeMv]
  case mvset4 => obtain ⟨-, h⟩ := withGrid_ok h; obtain rfl := Except.ok.inj h; simp [setAllMv]
  case mvpred => obtain ⟨-, h⟩ := withGrid_ok h; obtain rfl := Except.ok.inj h; simp
  all_goals obtain rfl := Except.ok.inj h; simp [frameBegin, storeLevels]

end Sys2Proof.Machine
end

