-- ==== Sys2Proof/Laws/Blocks.lean ====
section
/-! SUPPORT. What the shared operations over blocks do: the levels of the two quantizers, storing them,
mismatch control, the coded block flags, the ladder, and the residual of the predictor. -/

namespace Sys2Proof.Machine

/-! ### Narrowed blocks -/

/-- A clamped value survives narrowing. -/
theorem narrowBlock_clamp (f : Fin 64 → Int) {lo hi : Int} (h1 : -32768 ≤ lo) (h2 : hi ≤ 32767) (h : lo ≤ hi)
    (i : Fin 64) : ((narrowBlock (fun i => clampInt (f i) lo hi))[i]).toInt = clampInt (f i) lo hi := by
  have := clampInt_mem h (f i)
  exact narrowBlock_toInt (f := fun i => clampInt (f i) lo hi) (by omega) (by omega)

/-- A coefficient is 0 exactly when its bits are. -/
theorem coef_ne_zero (v : Coef) : v.toInt ≠ 0 ↔ v ≠ 0 := by
  constructor
  · rintro h rfl; simp at h
  · intro h h0; exact h (BitVec.eq_of_toInt_eq (by simpa using h0))

/-- Index 8 r + c has row r and column c. -/
theorem rcIndex_rowOf_colOf (r c : Fin 8) : rowOf (rcIndex r c) = r ∧ colOf (rcIndex r c) = c := by
  have := c.isLt
  exact ⟨Fin.ext (by simp only [rowOf, rcIndex]; omega), Fin.ext (by simp only [colOf, rcIndex]; omega)⟩

/-! ### Coded block flags -/

/-- Bit j of six flags. -/
theorem cbpMask_bit (f : MbBlk → Bool) (j : MbBlk) : (cbpMask f).getLsbD j.val = f j := by simp [cbpMask]

/-- A block is coded when it holds a coefficient other than 0 from `lo` on. -/
theorem blockCoded_iff (lo : Nat) (b : Block) : blockCoded lo b = true ↔ ∃ i : Fin 64, lo ≤ i.val ∧ b[i] ≠ 0 := by
  simp [blockCoded]

/-! ### Forward quantization -/

/-- All that storing levels does to the destination, for levels that fit. -/
theorem storeLevels_coef (s : State) (d : BlkIx) (lo : Nat) (f : Fin 64 → Level)
    (h : ∀ i, |(f i).lv| ≤ 2047) (i : Fin 64) : coef (storeLevels s d lo f) d i = (f i).lv := by
  have hb : (storeLevels s d lo f).blk[d] = narrowBlock (fun i => (f i).lv) := by simp [storeLevels]
  have := abs_le.1 (h i)
  simp only [coef, hb]
  exact narrowBlock_toInt (f := fun i => (f i).lv) (by omega) (by omega)

/-- QSUM holds the exact magnitude sum: it cannot wrap (10 R34). -/
theorem magSum_toNat (lo : Nat) (f : Fin 64 → Level) (h : ∀ i, |(f i).lv| ≤ 2047) :
    ((BitVec.ofInt 32 (magSum lo f)).toNat : Int) = ∑ i : Fin 64, (if lo ≤ i.val then |(f i).lv| else 0) := by
  have e : magSum lo f = ∑ i : Fin 64, (if lo ≤ i.val then |(f i).lv| else 0) := by
    simp only [magSum, sumFin_eq]
  have h0 : 0 ≤ magSum lo f := by
    rw [e]; apply Finset.sum_nonneg; intro i _; split <;> simp
  have h1 : magSum lo f ≤ ∑ _i : Fin 64, (2047 : Int) := by
    rw [e]; apply Finset.sum_le_sum; intro i _
    split
    · exact h i
    · omega
  simp at h1
  rw [← e, BitVec.toNat_ofInt, Int.emod_eq_of_lt h0 (by omega)]
  omega

/-- The intra DC level is the rounded quotient clamped to ±2047. -/
theorem intraDcLevel_lv (dcs : Nat) (x : Int) :
    (intraDcLevel dcs x).lv = min (max (divRound x dcs) (-2047)) 2047 ∧ |(intraDcLevel dcs x).lv| ≤ 2047 := by
  simp only [intraDcLevel]
  split
  · rename_i h
    have hne : divRound x dcs ≠ 0 := by intro h0; rw [h0] at h; simp at h
    refine ⟨?_, by rw [abs_sign_mul hne (by omega)]⟩
    rcases Int.lt_or_gt_of_ne hne with h1 | h1
    · rw [abs_of_neg h1] at h; rw [Int.sign_eq_neg_one_of_neg h1]; omega
    · rw [abs_of_pos h1] at h; rw [Int.sign_eq_one_of_pos h1]; omega
  · rename_i h
    have := abs_le.1 (by omega : |divRound x dcs| ≤ 2047)
    exact ⟨by omega, by omega⟩

/-- The last part of both forward rules: the level, its range, and when it saturates. -/
theorem acLevel_spec (x : Int) {m0 : Int} (hm : 0 ≤ m0) (r : Int → Int) :
    (acLevel x m0 r).lv = x.sign * min m0 2047 ∧ |(acLevel x m0 r).lv| ≤ 2047 ∧
    ((acLevel x m0 r).sat = true ↔ 2047 < m0 ∨ (0 < |(acLevel x m0 r).lv| ∧
      ((0 < x ∧ 2047 < r |(acLevel x m0 r).lv|) ∨ (x < 0 ∧ 2048 < r |(acLevel x m0 r).lv|)))) := by
  refine ⟨rfl, abs_le.2 (sign_mul_abs_le (x := x) (m := min m0 2047) (by omega) (by omega)), ?_⟩
  rcases eq_or_ne x 0 with rfl | hx
  · simp [acLevel]
  · have h : |(acLevel x m0 r).lv| = min m0 2047 := abs_sign_mul hx (by omega)
    rw [h]; simp [acLevel]

/-- The two cases of an intra AC level (41 R134). -/
theorem intraAcLevel_cases (w q : Nat) (x : Int) :
    (|x| < 2 * q → intraAcLevel w q x = ⟨0, false⟩) ∧
    (2 * q ≤ |x| → intraAcLevel w q x = acLevel x (8 * |x| / (w * q)) (intraRecon w q) ∧
      0 ≤ 8 * |x| / (w * q : Int)) := by
  constructor
  · intro h; simp [intraAcLevel, h]
  · intro h
    exact ⟨by rw [intraAcLevel, if_neg (by omega)]; rfl, Int.ediv_nonneg (by positivity) (by positivity)⟩

/-- The two cases of an inter level (41 R135). -/
theorem interLevel_cases (w q : Nat) (x : Int) :
    (|x| - (q : Int) / 2 < 2 * q → interLevel w q x = ⟨0, false⟩) ∧
    (2 * q ≤ |x| - (q : Int) / 2 →
      interLevel w q x = acLevel x (8 * (|x| - (q : Int) / 2) / (w * q)) (interRecon w q) ∧
      0 ≤ 8 * (|x| - (q : Int) / 2) / (w * q : Int)) := by
  constructor
  · intro h; simp [interLevel, floorDiv, h]
  · intro h
    exact ⟨if_neg (by show ¬(|x| - (q : Int) / 2 < 2 * q); omega),
      Int.ediv_nonneg (by omega) (by positivity)⟩

/-! ### Inverse quantization -/

/-- A reconstruction with its sign is in [-2048, 2047]. -/
theorem signedRecon_range (l : Int) {m : Int} (hm : 0 ≤ m) : -2048 ≤ signedRecon l m ∧ signedRecon l m ≤ 2047 := by
  simp only [signedRecon]
  split
  · omega
  · split <;> omega

theorem dqintraValue_range (s : State) (src : BlkIx) (role : Role) (i : Fin 64) :
    -2048 ≤ dqintraValue s src role i ∧ dqintraValue s src role i ≤ 2047 := by
  simp only [dqintraValue]
  split
  · exact clampInt_mem (by omega) _
  · exact signedRecon_range _ (Int.ediv_nonneg (by positivity) (by omega))

theorem dqinterValue_range (s : State) (src : BlkIx) (i : Fin 64) :
    -2048 ≤ dqinterValue s src i ∧ dqinterValue s src i ≤ 2047 :=
  signedRecon_range _ (Int.ediv_nonneg (by positivity) (by omega))

/-- Toggling bit 0 of an s16. -/
theorem xor_one_toInt (v : Coef) : (v ^^^ 1).toInt = if v.toInt % 2 = 0 then v.toInt + 1 else v.toInt - 1 := by
  have h1 : (v ^^^ 1#16).toNat = if v.toNat % 2 = 0 then v.toNat + 1 else v.toNat - 1 := by
    rw [BitVec.toNat_xor, show (1#16).toNat = 1 from rfl]
    split
    · exact Nat.xor_one_of_even (Nat.even_iff.2 ‹_›)
    · exact Nat.xor_one_of_odd (Nat.odd_iff.2 (by omega))
  have := v.isLt
  rw [show v ^^^ 1 = v ^^^ 1#16 from rfl]
  simp only [BitVec.toInt_eq_toNat_cond, h1]
  split <;> split <;> split <;> omega

/-- All that mismatch control does to a narrowed block (41 R142). -/
theorem mismatch_spec {f : Fin 64 → Int} (hf : ∀ i, -2048 ≤ f i ∧ f i ≤ 2047) :
    (∀ i, i ≠ 63 → ((mismatch (narrowBlock f))[i]).toInt = f i) ∧
    ((mismatch (narrowBlock f))[(63 : Fin 64)]).toInt =
      (if (∑ i, f i) % 2 ≠ 0 then f 63 else if f 63 % 2 = 0 then f 63 + 1 else f 63 - 1) := by
  have hn : ∀ i, ((narrowBlock f)[i]).toInt = f i := fun i =>
    narrowBlock_toInt (by have := hf i; omega) (by have := hf i; omega)
  have hs : sumFin 64 (fun i => ((narrowBlock f)[i]).toInt) = ∑ i, f i := by
    rw [sumFin_eq]; exact Finset.sum_congr rfl (fun i _ => hn i)
  by_cases h : (∑ i, f i) % 2 = 0
  · have e : mismatch (narrowBlock f) = (narrowBlock f).set 63 ((narrowBlock f)[63] ^^^ 1) := by
      rw [mismatch, if_pos (by rw [hs]; exact h)]
    rw [e, if_neg (by omega)]
    constructor
    · intro i hi
      rw [← hn i]
      have : (63 : Nat) ≠ i.val := fun h => hi (Fin.ext h.symm)
      simp [Fin.getElem_fin, Vector.getElem_set_ne, this]
    · have : ((narrowBlock f).set 63 ((narrowBlock f)[63] ^^^ 1))[(63 : Fin 64)] = (narrowBlock f)[63] ^^^ 1 := by
        simp [Fin.getElem_fin]
      rw [this, xor_one_toInt, show ((narrowBlock f)[63]).toInt = f 63 from hn 63]
  · have e : mismatch (narrowBlock f) = narrowBlock f := by
      rw [mismatch, if_neg (by rw [hs]; exact h)]
    rw [e, if_pos h]
    exact ⟨fun i _ => hn i, hn 63⟩

/-! ### The ladder -/

/-- NEXTQ on a legal ladder: the least entry above q (41 R131). -/
theorem nextQ_spec {l : List Nat} (hl : Config.LegalLadder l) {q : Nat} (hq : q < 31) :
    nextQ l q ∈ l ∧ q < nextQ l q ∧ ∀ x ∈ l, q < x → nextQ l q ≤ x := by
  obtain ⟨-, -, h3⟩ := hl
  have h31 : 31 ∈ l := List.mem_of_getLast? h3
  simp only [nextQ, if_neg (by omega : ¬31 ≤ q)]
  have hm : 31 ∈ l.filter (fun l => decide (q < l)) := by simp [h31, hq]
  cases hmin : (l.filter (fun l => decide (q < l))).min? with
  | none => rw [List.min?_eq_none_iff] at hmin; rw [hmin] at hm; simp at hm
  | some v =>
    rw [List.min?_eq_some_iff] at hmin
    obtain ⟨m1, m2⟩ := hmin
    simp at m1
    simp only [Option.getD_some]
    exact ⟨m1.1, m1.2, fun x hx hqx => m2 x (by simp [hx, hqx])⟩

/-- The quantizer after QNEXT is not 0. -/
theorem nextQ_ne_zero {l : List Nat} (hl : Config.LegalLadder l) (q : Nat) : BitVec.ofNat 5 (nextQ l q) ≠ 0 := by
  intro h
  have h0 := congrArg BitVec.toNat h
  rw [BitVec.toNat_ofNat, show (0 : BitVec 5).toNat = 0 from rfl] at h0
  by_cases hq : q < 31
  · have := hl.2.1 _ (nextQ_spec hl hq).1
    omega
  · simp [nextQ, show 31 ≤ q by omega] at h0

/-! ### The predictor -/

/-- The residual clamp is the clamp to ±2047 (43 R176). -/
theorem clampResidual_eq (r : Int) : clampResidual r = min (max r (-2047)) 2047 := by
  simp only [clampResidual]
  split
  · rename_i h
    rcases lt_trichotomy r 0 with h1 | h1 | h1
    · rw [abs_of_neg h1] at h; rw [Int.sign_eq_neg_one_of_neg h1]; omega
    · subst h1; simp at h
    · rw [abs_of_pos h1] at h; rw [Int.sign_eq_one_of_pos h1]; omega
  · rename_i h
    have := abs_le.1 (by omega : |r| ≤ 2047)
    omega

/-- A block is predicted vertically or horizontally (43 R176). -/
theorem predDir_cases (s : State) (j : MbBlk) : predDir s j = .vert ∨ predDir s j = .horz := by
  simp only [predDir]
  split
  · exact .inl rfl
  · exact .inr rfl

/-- The flags ACDCPRED writes are consistent (43 R186). -/
theorem acdcFlags_predOk (s : State) : PredOk (acdcFlags s) := by
  have hp : ∀ j : MbBlk, (acdcFlags s).pdir[j] = predDir s j := fun j => by simp [acdcFlags]
  refine ⟨fun h => ⟨?_, fun j => by rw [hp]; exact predDir_cases s j⟩, fun h => ?_⟩
  · have h : acApplied s = true := h
    simp only [acdcFlags, h, if_true]
  · have h : acApplied s = false := h
    apply Vector.ext
    intro i hi
    simp [acdcFlags, h]

/-- Every command keeps the prediction flags consistent (43 R186). -/
theorem effect_predOk {i : Instr} {s s' : State} (h : effect i s = .ok s') (hp : PredOk s.flags) :
    PredOk s'.flags := by
  cases i <;> simp only [effect] at h
  case acdcpred =>
    obtain ⟨-, h⟩ := withGrid_ok h
    obtain rfl := Except.ok.inj h
    exact acdcFlags_predOk s
  case mbbegin =>
    obtain ⟨-, h⟩ := withGrid_ok h
    split at h
    · cases h
    · obtain rfl := Except.ok.inj h
      exact ⟨fun h => Bool.noConfusion h, fun _ => rfl⟩
  case putbits =>
    split at h
    · cases h
    · obtain ⟨-, -, rfl⟩ := guardedWrite_ok h; exact hp
  case putzero => obtain ⟨-, -, rfl⟩ := guardedWrite_ok h; exact hp
  case mvset => obtain ⟨-, h⟩ := withGrid_ok h; obtain rfl := Except.ok.inj h; exact hp
  case mvset4 => obtain ⟨-, h⟩ := withGrid_ok h; obtain rfl := Except.ok.inj h; exact hp
  case mvpred => obtain ⟨-, h⟩ := withGrid_ok h; obtain rfl := Except.ok.inj h; exact hp
  case padbyte =>
    split at h
    · cases h
    · obtain rfl := Except.ok.inj h; exact hp
  case finish => split at h <;> (obtain rfl := Except.ok.inj h; exact hp)
  case qdelta =>
    split at h
    · obtain rfl := Except.ok.inj h; exact hp
    · cases h
  all_goals obtain rfl := Except.ok.inj h; exact hp

/-- Different t have different candidate positions. -/
theorem candPos_inj {s : State} {j : MbBlk} {t t' : Fin 7} (h : candPos s j t = candPos s j t') : t = t' := by
  unfold candPos at h
  split at h <;> (simp only [rowPos, colPos, Fin.mk.injEq] at h; exact Fin.ext (by omega))

theorem candIndex_candPos (s : State) (j : MbBlk) (t : Fin 7) : candIndex s j (candPos s j t) = some t := by
  unfold candIndex
  rcases h : (List.finRange 7).find? (fun u => decide (candPos s j u = candPos s j t)) with _ | u
  · rw [List.find?_eq_none] at h
    exact absurd (h t (List.mem_finRange t)) (by simp)
  · have := List.find?_some h
    simp at this
    rw [candPos_inj this]

theorem candIndex_none {s : State} {j : MbBlk} {i : Fin 64} (h : ∀ t, candPos s j t ≠ i) :
    candIndex s j i = none := by
  unfold candIndex
  rw [List.find?_eq_none]
  intro t _; simp [h t]

/-- A median of s16 values is one. -/
theorem median3_range (a b c : Coef) :
    -32768 ≤ median3 a.toInt b.toInt c.toInt ∧ median3 a.toInt b.toInt c.toInt ≤ 32767 := by
  have := BitVec.le_toInt a
  have := BitVec.toInt_lt (x := a)
  have := BitVec.le_toInt b
  have := BitVec.toInt_lt (x := b)
  have := BitVec.le_toInt c
  have := BitVec.toInt_lt (x := c)
  simp only [median3]; omega

end Sys2Proof.Machine
end

