-- ==== Sys2Proof/Laws/Memories.lean ====
section
/-! SUPPORT. Every operation on the three memories (the bitstream buffer, the history, the vector memory)
keeps their canonical form and their bounds: the commands, the host's writes, and reset. -/

namespace Sys2Proof.Machine

/-! ### Commands -/

/-- The current macroblock has an entry (10 R29). -/
theorem curMb_lt {s : State} (hg : GridOk s) (ho : s.grid.ok = true) : curMb s < s.cfg.maxMb := by
  obtain ⟨-, -, h3, h4, h5⟩ := hg.1 ho
  have h6 : (s.grid.mby.toNat + 1) * s.grid.mbw.toNat ≤ s.grid.mbh.toNat * s.grid.mbw.toNat :=
    Nat.mul_le_mul_right _ h5
  rw [Nat.succ_mul, Nat.mul_comm s.grid.mbh.toNat] at h6
  simp only [curMb]; omega

/-- A history write below MAX_MB with a quantizer in range keeps the history. -/
theorem histOk_write {s : State} (h : HistOk s) {m : Nat} (hm : m < s.cfg.maxMb) {e : HistEntry} (he : e.hq ≠ 0) :
    HistOk (s.writeHist m e) :=
  ⟨Sparse.write_wf h.1 m e, Sparse.write_all h.2 ⟨hm, he⟩⟩

/-- A vector write below MAX_MB keeps the vector memory. -/
theorem vectorsOk_write {s : State} (h : VectorsOk s) {m : Nat} (hm : m < s.cfg.maxMb) (k : SubIx) (v : MV) :
    VectorsOk (s.writeMv m k v) :=
  ⟨Sparse.write_wf h.1 _ v, Sparse.write_all h.2 (by have := k.isLt; show 4 * m + k.val < 4 * s.cfg.maxMb; omega)⟩

/-- MVSET4 is four vector writes. -/
theorem setAllMv_eq (s : State) (v : MV) : setAllMv s v =
    (((s.writeMv (curMb s) 0 v).writeMv (curMb s) 1 v).writeMv (curMb s) 2 v).writeMv (curMb s) 3 v := rfl

/-- An entry listed or not, its quantizer is in 1..31. -/
theorem histAt_hq {s : State} (h : HistOk s) (m : Nat) : (histAt s m).hq ≠ 0 := by
  rcases Sparse.read_mem (dflt := HistEntry.dflt) s.hist m with hd | hm
  · simp only [histAt, hd]; decide
  · exact (h.2 _ hm).2

/-- FRAMEBEGIN keeps the history. -/
theorem frameBegin_histOk {s : State} (h : HistOk s) : HistOk (frameBegin s) := by
  refine ⟨Sparse.mapAll_wf h.1, fun p hp => ?_⟩
  obtain ⟨v, hv, he, -⟩ := Sparse.mem_mapAll hp
  exact ⟨(h.2 _ hv).1, by rw [he]; exact (h.2 _ hv).2⟩

/-- FRAMEBEGIN's reads: `valid` cleared, the rest as before (44 R201). -/
theorem histAt_frameBegin {s : State} (h : HistOk s) (m : Nat) :
    histAt (frameBegin s) m = { histAt s m with valid := false } :=
  Sparse.read_mapAll (f := invalidate) rfl h.1 m

/-- No effect of a command breaks the bitstream's invariant. -/
theorem effect_packOk {i : Instr} {s s' : State} (h : effect i s = .ok s') (hp : PackOk s.cfg.bsCap s.strm) :
    PackOk s'.cfg.bsCap s'.strm := by
  rw [(effect_frame h).1]
  obtain ⟨⟨hk, ha, hl, hf⟩, hb⟩ := hp
  cases i <;> simp only [effect] at h
  case bsreset =>
    obtain rfl := Except.ok.inj h
    exact ⟨⟨by simp, by simp, by simp [streamLen], by simp⟩, hb⟩
  case mbbegin =>
    obtain ⟨-, h⟩ := withGrid_ok h
    split at h
    · cases h
    · obtain rfl := Except.ok.inj h; exact ⟨⟨hk, ha, hl, hf⟩, hb⟩
  case putbits nb v =>
    split at h
    · cases h
    · rename_i hn
      obtain ⟨g1, g2, rfl⟩ := guardedWrite_ok h
      obtain ⟨-, a2, a3, -, a5, a6, -, -, a9⟩ :=
        append_spec (v := v) (n := putWidth nb) hb.1 hk ha (by omega)
      exact ⟨⟨a5, a6, by rw [State.setStrm_strm, a2]; exact g2, by rw [State.setStrm_strm, a3, g1]; simp⟩,
        a9 _ hb hl⟩
  case putzero nz _ =>
    obtain ⟨g1, g2, rfl⟩ := guardedWrite_ok h
    obtain ⟨-, a2, a3, -, a5, a6, -, -, a9⟩ := appendZeros_spec (zeroWidth nz) hb.1 hk ha
    exact ⟨⟨a5, a6, by rw [State.setStrm_strm, a2]; exact g2, by rw [State.setStrm_strm, a3, g1]; simp⟩,
      a9 _ hb g2⟩
  case padbyte =>
    split at h
    · cases h
    · rename_i hfin
      obtain rfl := Except.ok.inj h
      have hp := padCount_le s.strm
      have hlen := (streamLen_pad s.strm).2
      obtain ⟨-, a2, a3, -, a5, a6, -, -, a9⟩ :=
        append_spec (v := 0) (n := padCount s.strm) hb.1 hk ha (by omega)
      refine ⟨⟨a5, a6, ?_, fun hf' => absurd (a3.symm.trans hf') hfin⟩, a9 _ hb hl⟩
      exact a2.le.trans (by omega)
  case finish =>
    split at h
    · obtain rfl := Except.ok.inj h; exact ⟨⟨hk, ha, hl, hf⟩, hb⟩
    · obtain rfl := Except.ok.inj h
      exact (finishStream_spec ⟨⟨hk, ha, hl, hf⟩, hb⟩).2.2.2.2.2.2
  case qdelta =>
    split at h
    · obtain rfl := Except.ok.inj h; exact ⟨⟨hk, ha, hl, hf⟩, hb⟩
    · cases h
  case acdcpred =>
    obtain ⟨-, h⟩ := withGrid_ok h
    obtain rfl := Except.ok.inj h
    have e : (acdcPredict s).strm = s.strm := by simp [acdcPredict]
    rw [e]; exact ⟨⟨hk, ha, hl, hf⟩, hb⟩
  case mvset =>
    obtain ⟨-, h⟩ := withGrid_ok h
    obtain rfl := Except.ok.inj h; exact ⟨⟨hk, ha, hl, hf⟩, hb⟩
  case mvset4 =>
    obtain ⟨-, h⟩ := withGrid_ok h
    obtain rfl := Except.ok.inj h; exact ⟨⟨hk, ha, hl, hf⟩, hb⟩
  case mvpred =>
    obtain ⟨-, h⟩ := withGrid_ok h
    obtain rfl := Except.ok.inj h; exact ⟨⟨hk, ha, hl, hf⟩, hb⟩
  case qintra d src role _ =>
    obtain rfl := Except.ok.inj h
    have e : (storeLevels s d 1 (qintraLevel s src role)).strm = s.strm := by simp [storeLevels]
    rw [e]; exact ⟨⟨hk, ha, hl, hf⟩, hb⟩
  case qinter d src _ =>
    obtain rfl := Except.ok.inj h
    have e : (storeLevels s d 0 (qinterLevel s src)).strm = s.strm := by simp [storeLevels]
    rw [e]; exact ⟨⟨hk, ha, hl, hf⟩, hb⟩
  all_goals obtain rfl := Except.ok.inj h; exact ⟨⟨hk, ha, hl, hf⟩, hb⟩

/-- No effect of a command breaks the history. -/
theorem effect_histOk {i : Instr} {s s' : State} (h : effect i s = .ok s') (hg : GridOk s) (hq : QuantOk s)
    (hh : HistOk s) : HistOk s' := by
  cases i <;> simp only [effect] at h
  case framebegin => obtain rfl := Except.ok.inj h; exact frameBegin_histOk hh
  case acdcpred =>
    obtain ⟨ho, h⟩ := withGrid_ok h
    obtain rfl := Except.ok.inj h
    have := histOk_write hh (curMb_lt hg ho) (e := acdcEntry s) hq
    exact ⟨by simpa [acdcPredict, State.writeHist] using this.1,
      by simpa [acdcPredict, State.writeHist] using this.2⟩
  case mbbegin =>
    obtain ⟨-, h⟩ := withGrid_ok h
    split at h
    · cases h
    · obtain rfl := Except.ok.inj h; exact hh
  case putbits =>
    split at h
    · cases h
    · obtain ⟨-, -, rfl⟩ := guardedWrite_ok h; exact hh
  case putzero => obtain ⟨-, -, rfl⟩ := guardedWrite_ok h; exact hh
  case padbyte =>
    split at h
    · cases h
    · obtain rfl := Except.ok.inj h; exact hh
  case finish => split at h <;> (obtain rfl := Except.ok.inj h; exact hh)
  case qdelta =>
    split at h
    · obtain rfl := Except.ok.inj h; exact hh
    · cases h
  case mvset => obtain ⟨-, h⟩ := withGrid_ok h; obtain rfl := Except.ok.inj h; exact hh
  case mvset4 => obtain ⟨-, h⟩ := withGrid_ok h; obtain rfl := Except.ok.inj h; exact hh
  case mvpred => obtain ⟨-, h⟩ := withGrid_ok h; obtain rfl := Except.ok.inj h; exact hh
  case qintra d src role _ =>
    obtain rfl := Except.ok.inj h
    simpa [storeLevels, HistOk] using hh
  case qinter d src _ =>
    obtain rfl := Except.ok.inj h
    simpa [storeLevels, HistOk] using hh
  all_goals obtain rfl := Except.ok.inj h; exact hh

/-- No effect of a command breaks the vector memory. -/
theorem effect_vectorsOk {i : Instr} {s s' : State} (h : effect i s = .ok s') (hg : GridOk s)
    (hv : VectorsOk s) : VectorsOk s' := by
  cases i <;> simp only [effect] at h
  case framebegin =>
    obtain rfl := Except.ok.inj h
    exact ⟨⟨List.Pairwise.nil, fun p hp => absurd hp List.not_mem_nil⟩, fun p hp => absurd hp List.not_mem_nil⟩
  case acdcpred =>
    obtain ⟨-, h⟩ := withGrid_ok h
    obtain rfl := Except.ok.inj h
    simpa [acdcPredict, VectorsOk] using hv
  case mbbegin =>
    obtain ⟨-, h⟩ := withGrid_ok h
    split at h
    · cases h
    · obtain rfl := Except.ok.inj h; exact hv
  case putbits =>
    split at h
    · cases h
    · obtain ⟨-, -, rfl⟩ := guardedWrite_ok h; exact hv
  case putzero => obtain ⟨-, -, rfl⟩ := guardedWrite_ok h; exact hv
  case padbyte =>
    split at h
    · cases h
    · obtain rfl := Except.ok.inj h; exact hv
  case finish => split at h <;> (obtain rfl := Except.ok.inj h; exact hv)
  case qdelta =>
    split at h
    · obtain rfl := Except.ok.inj h; exact hv
    · cases h
  case mvset =>
    obtain ⟨ho, h⟩ := withGrid_ok h
    obtain rfl := Except.ok.inj h
    exact vectorsOk_write hv (curMb_lt hg ho) _ _
  case mvset4 =>
    obtain ⟨ho, h⟩ := withGrid_ok h
    obtain rfl := Except.ok.inj h
    have hm := curMb_lt hg ho
    rw [setAllMv_eq]
    exact vectorsOk_write (vectorsOk_write (vectorsOk_write (vectorsOk_write hv hm _ _) hm _ _) hm _ _) hm _ _
  case mvpred => obtain ⟨-, h⟩ := withGrid_ok h; obtain rfl := Except.ok.inj h; exact hv
  case qintra d src role _ =>
    obtain rfl := Except.ok.inj h
    simpa [storeLevels, VectorsOk] using hv
  case qinter d src _ =>
    obtain rfl := Except.ok.inj h
    simpa [storeLevels, VectorsOk] using hv
  all_goals obtain rfl := Except.ok.inj h; exact hv

/-! ### The host's writes -/

/-- A word write below BS_CAP, for a capacity and an index that are multiples of 4 (20 R68). -/
theorem bsWriteWord_spec {m : Memory} (hm : Memory.wf m) (k : Nat) (v : Word) :
    Memory.wf (bsWriteWord m k v) ∧
    (∀ j < 4, Memory.read (bsWriteWord m k v) (k + j) = v.extractLsb' (8 * j) 8) ∧
    (∀ n, n < k ∨ k + 4 ≤ n → Memory.read (bsWriteWord m k v) n = Memory.read m n) ∧
    (∀ cap, BufferOk cap m → k < cap → k % 4 = 0 → cap % 4 = 0 → BufferOk cap (bsWriteWord m k v)) := by
  obtain ⟨f1, f2, f3, f4⟩ := Memory.foldl_write hm k (fun j => v.extractLsb' (8 * j) 8) 4
  exact ⟨f1, f2, f3, fun cap hc h1 h2 h3 => f4 cap hc (by omega)⟩

/-- The quantizer of a history entry the host writes stays in 1..31 (20 R66). -/
theorem histWrite_hq {e : HistEntry} (he : e.hq ≠ 0) (v : Word) (w : HistWord) : (histWrite e v w).hq ≠ 0 := by
  cases w with
  | head =>
    simp only [histWrite, hqOf]
    split
    · decide
    · assumption
  | dc j => exact he
  | row j t => exact he
  | col j t => exact he

/-! ### Reset -/

/-- The drawn buffer is canonical and within its capacity. -/
theorem drawBs_ok (cap : Nat) (d : ResetDraw) : BufferOk cap (drawBs cap d) := by
  have : ∀ (l : List (Nat × Byte)) (m : Memory), BufferOk cap m →
      BufferOk cap (l.foldl (fun m p => if p.1 < cap then Memory.write m p.1 p.2 else m) m) := by
    intro l
    induction l with
    | nil => exact fun m h => h
    | cons p l ih =>
      intro m h
      rw [List.foldl_cons]
      apply ih
      split
      · exact bufferOk_write h ‹_› _
      · exact h
  exact this _ _ ⟨⟨List.Pairwise.nil, by simp⟩, by simp⟩

/-- The drawn history is canonical, within MAX_MB, with quantizers in range and no entry valid. -/
theorem drawHist_ok (maxMb : Nat) (d : ResetDraw) :
    Sparse.wf HistEntry.dflt (drawHist maxMb d) ∧
    ∀ p ∈ drawHist maxMb d, (p.1 < maxMb ∧ p.2.hq ≠ 0) ∧ p.2.valid = false := by
  have hq : ∀ e, (drawEntry e).hq ≠ 0 := by
    intro e
    simp only [drawEntry]
    split
    · decide
    · assumption
  have : ∀ (l : List (Nat × HistEntry)) (h : List (Nat × HistEntry)),
      (Sparse.wf HistEntry.dflt h ∧ ∀ p ∈ h, (p.1 < maxMb ∧ p.2.hq ≠ 0) ∧ p.2.valid = false) →
      Sparse.wf HistEntry.dflt (l.foldl (fun l p => if p.1 < maxMb then
        Sparse.write HistEntry.dflt l p.1 (drawEntry p.2) else l) h) ∧
      ∀ p ∈ l.foldl (fun l p => if p.1 < maxMb then
        Sparse.write HistEntry.dflt l p.1 (drawEntry p.2) else l) h,
        (p.1 < maxMb ∧ p.2.hq ≠ 0) ∧ p.2.valid = false := by
    intro l
    induction l with
    | nil => exact fun h hh => hh
    | cons p l ih =>
      intro h hh
      rw [List.foldl_cons]
      apply ih
      split
      · exact ⟨Sparse.write_wf hh.1 _ _, Sparse.write_all hh.2 ⟨⟨‹_›, hq _⟩, rfl⟩⟩
      · exact hh
  exact this _ _ ⟨⟨List.Pairwise.nil, by simp⟩, by simp⟩

/-- What every reset leaves, under the draw it uses. -/
theorem hardReset_eq (s : State) : ∃ d, hardReset s =
    resetUnder d (s.setHost { s.host with draws := s.host.draws.tail }) := by
  unfold hardReset
  cases h : s.host.draws with
  | nil =>
    have : s.setHost { s.host with draws := [].tail } = s := by
      rw [List.tail_nil, ← h]; rfl
    exact ⟨⟨[], [], []⟩, by rw [this]⟩
  | cons d ds => exact ⟨d, rfl⟩

/-- The memories of the state after reset are canonical. -/
theorem reset_memories : Memory.wf State.reset.strm.bs ∧ HistOk State.reset ∧ VectorsOk State.reset := by
  refine ⟨⟨List.Pairwise.nil, ?_⟩, ⟨⟨List.Pairwise.nil, ?_⟩, ?_⟩, ⟨List.Pairwise.nil, ?_⟩, ?_⟩ <;>
    exact fun p hp => absurd hp List.not_mem_nil

end Sys2Proof.Machine
end

