-- ==== Sys2Proof/Laws/Mmio.lean ====
section
/-! SUPPORT. What each range of the address map locates (20 R61, R64 to R69), and that an aligned write
stays within the bitstream buffer. -/

namespace Sys2Proof.Machine

/-- The BLK window (20 R64). -/
theorem locate_blk (c : Config) (b : BlkIx) (i : Fin 64) :
    locate c (0x001000 + 0x100 * b.val + 4 * i.val) = .blk b i := by
  obtain ⟨b, hb⟩ := b
  obtain ⟨i, hi⟩ := i
  unfold locate
  repeat rw [if_neg (by omega)]
  rw [if_pos (by omega)]
  simp only [Fin.ofNat, Loc.blk.injEq, Fin.mk.injEq]; omega

/-- The intra weight window (20 R65). -/
theorem locate_wi (c : Config) (i : Fin 64) : locate c (0x002000 + 4 * i.val) = .wi i := by
  obtain ⟨i, hi⟩ := i
  unfold locate
  repeat rw [if_neg (by omega)]
  rw [if_pos (by omega)]
  simp only [Fin.ofNat, Loc.wi.injEq, Fin.mk.injEq]; omega

/-- The inter weight window (20 R65). -/
theorem locate_wp (c : Config) (i : Fin 64) : locate c (0x002100 + 4 * i.val) = .wp i := by
  obtain ⟨i, hi⟩ := i
  unfold locate
  repeat rw [if_neg (by omega)]
  rw [if_pos (by omega)]
  simp only [Fin.ofNat, Loc.wp.injEq, Fin.mk.injEq]; omega

/-- The vector window (20 R67). -/
theorem locate_mv (c : Config) (m : Nat) (k : SubIx) (h : m < c.maxMb) (h2 : c.maxMb ≤ 8192) :
    locate c (0x800000 + 16 * m + 4 * k.val) = .mv m k := by
  obtain ⟨k, hk⟩ := k
  unfold locate
  repeat rw [if_neg (by omega)]
  rw [if_pos (by omega), if_pos (by omega)]
  simp only [Fin.ofNat, Loc.mv.injEq, Fin.mk.injEq]; omega

/-- The bitstream window (20 R68). -/
theorem locate_bs (c : Config) (k : Nat) (h : k < c.bsCap) : locate c (0xC00000 + k) = .bs k := by
  unfold locate
  repeat rw [if_neg (by omega)]
  rw [if_pos (by omega), Nat.add_sub_cancel_left]

/-- The history window: word w of entry m (20 R66). -/
theorem locate_hist (c : Config) (m w : Nat) (h : m < c.maxMb) (h2 : c.maxMb ≤ 8192) (hw : w < 128) :
    locate c (0x400000 + 0x200 * m + 4 * w) =
      ((histWord w).map (Loc.hist m)).getD .unmapped := by
  have e1 : (0x400000 + 0x200 * m + 4 * w - 0x400000) / 0x200 = m := by omega
  have e2 : (0x400000 + 0x200 * m + 4 * w - 0x400000) % 0x200 / 4 = w := by omega
  unfold locate
  repeat rw [if_neg (by omega)]
  rw [if_pos (by omega), e1, e2, if_pos h]
  cases histWord w <;> rfl

/-- An offset in the register range locates the register the map lists there (10 R22 to R40). -/
theorem locate_reg {c : Config} {n : Nat} {r : Reg} (h : regMap[n]? = some r) : locate c (4 * n) = .reg r := by
  obtain ⟨hn, -⟩ := List.getElem?_eq_some_iff.1 h
  rw [show regMap.length = 28 from rfl] at hn
  unfold locate
  rw [if_pos (by omega), Nat.mul_div_cancel_left n (by decide), h]

/-- The words of a history entry (20 R66). -/
theorem histWord_dc : ∀ j : MbBlk, histWord (16 * (j.val + 1)) = some (.dc j) := by decide +kernel
theorem histWord_row : ∀ (j : MbBlk) (t : Fin 7), histWord (16 * (j.val + 1) + (t.val + 1)) = some (.row j t) := by
  decide +kernel
theorem histWord_col : ∀ (j : MbBlk) (t : Fin 7), histWord (16 * (j.val + 1) + (t.val + 8)) = some (.col j t) := by
  decide +kernel
theorem histWord_reserved : ∀ w : Fin 128, (0 < w.val ∧ w.val < 16) ∨ 112 ≤ w.val ∨ w.val % 16 = 15 →
    histWord w.val = none := by decide +kernel

/-- Every located entry lies within its memory. -/
theorem locate_bound {c : Config} {off : Nat} {l : Loc} (h : locate c off = l) :
    (∀ m w, l = .hist m w → m < c.maxMb) ∧ (∀ m k, l = .mv m k → m < c.maxMb) ∧
    (∀ k, l = .bs k → k < c.bsCap ∧ off = 0xC00000 + k) := by
  unfold locate at h
  repeat' split at h
  all_goals subst h
  all_goals refine ⟨fun m w e => ?_, fun m k e => ?_, fun k e => ?_⟩ <;> injection e <;> omega

/-- A weight as stored: the low byte, 0 stored as 1 (10 R42). -/
theorem weightOf_toNat (v : Word) : (weightOf v).toNat = if v.toNat % 256 = 0 then 1 else v.toNat % 256 := by
  have h : (v.setWidth 8 : Byte).toNat = v.toNat % 256 := by simp
  simp only [weightOf]
  by_cases hh : (v.setWidth 8 : Byte) = 0
  · rw [if_pos hh]; rw [hh] at h; rw [if_pos (by simpa using h.symm)]; rfl
  · rw [if_neg hh, h, if_neg]
    intro h0; apply hh; apply BitVec.eq_of_toNat_eq; rw [h, h0]; rfl

/-- A stored weight is not 0. -/
theorem weightOf_ne_zero (v : Word) : weightOf v ≠ 0 := by
  intro h
  have := weightOf_toNat v
  rw [h, show (0 : Byte).toNat = 0 from rfl] at this
  split at this <;> omega

/-- The clamp into 1..31 (10 R27). -/
theorem clampQ_toNat (v : Int) : ((clampQ v).toNat : Int) = min (max v 1) 31 := by
  simp only [clampQ, BitVec.toNat_ofInt, clampInt]; omega

/-- A clamped quantizer is not 0. -/
theorem clampQ_ne_zero (v : Int) : clampQ v ≠ 0 := by
  intro h
  have := clampQ_toNat v
  rw [h] at this
  simp at this; omega

end Sys2Proof.Machine
end

