-- ==== Sys2Proof/Laws/PerInstr.lean ====
section
/-! SUPPORT. The family CmdFields: the opcode, bit I and the reserved bits of the command word a command
encodes to, one lemma per constructor (30 R91, R101). -/

namespace Sys2Proof.Laws.CmdFields

/-- The command word holds the opcode and bit I in their places, every reserved bit of its format is 0,
and its operand bits are those of the command. -/
def Statement (i : Instr) : Prop :=
  opField i.cmdWord = i.mnemonic.opcode ∧ irqField i.cmdWord = i.irq ∧
  i.cmdWord &&& i.mnemonic.fmt.reserved = 0 ∧
  ∀ lo n, lo + n ≤ 25 → i.cmdWord.extractLsb' lo n = i.operandBits.extractLsb' lo n

/-- The command word as a number. -/
theorem cmdWord_toNat (i : Instr) : i.cmdWord.toNat =
    i.mnemonic.opcode.toNat * 2 ^ 26 + i.irq.toNat * 2 ^ 25 + i.operandBits.toNat := by
  unfold Instr.cmdWord
  simp only [BitVec.toNat_append, BitVec.toNat_ofBool]
  rw [← Nat.shiftLeft_add_eq_or_of_lt (by exact i.operandBits.isLt),
    ← Nat.shiftLeft_add_eq_or_of_lt (by cases i.irq <;> decide)]
  simp only [Nat.shiftLeft_eq]; omega

/-- The reserved bits of the command word are those of its operand bits. -/
theorem cmdWord_and_reserved (i : Instr) :
    i.cmdWord &&& i.mnemonic.fmt.reserved = i.operandBits.setWidth 32 &&& i.mnemonic.fmt.reserved := by
  have hr : i.mnemonic.fmt.reserved = i.mnemonic.fmt.reserved &&& 0x01FFFFFF#32 := by
    generalize i.mnemonic = m; cases m <;> decide
  rw [hr, BitVec.and_comm i.mnemonic.fmt.reserved, ← BitVec.and_assoc, ← BitVec.and_assoc]
  congr 1
  ext k hk
  simp only [Instr.cmdWord, BitVec.getElem_and, BitVec.getElem_append, BitVec.getElem_setWidth]
  by_cases hk2 : k < 25
  · simp [hk2, BitVec.getLsbD_eq_getElem]
  · have : (0x01FFFFFF#32)[k] = false := by
      have h25 : 25 ≤ k := by omega
      clear hr
      interval_cases k <;> simp
    simp [this]

/-- What holds of every command, given that its operand bits keep clear of the reserved bits. -/
theorem of_operandBits {i : Instr} (h : i.operandBits.setWidth 32 &&& i.mnemonic.fmt.reserved = 0) :
    Statement i := by
  have h1 := i.operandBits.isLt
  have h2 : i.irq.toNat < 2 := by cases i.irq <;> decide
  have h3 := i.mnemonic.opcode.isLt
  refine ⟨?_, ?_, by rw [cmdWord_and_reserved]; exact h, ?_⟩
  · apply BitVec.eq_of_toNat_eq
    simp only [opField, BitVec.extractLsb'_toNat, cmdWord_toNat, Nat.shiftRight_eq_div_pow]
    omega
  · simp only [irqField, BitVec.getLsbD, cmdWord_toNat, Nat.testBit, Nat.shiftRight_eq_div_pow]
    cases i.irq <;> simp <;> omega
  · intro lo n hle
    apply BitVec.eq_of_toNat_eq
    simp only [BitVec.extractLsb'_toNat, cmdWord_toNat, Nat.shiftRight_eq_div_pow]
    have e : 2 ^ 25 = 2 ^ lo * (2 ^ n * 2 ^ (25 - lo - n)) := by
      rw [← Nat.pow_add, ← Nat.pow_add]; congr 1; omega
    have : i.mnemonic.opcode.toNat * 2 ^ 26 + i.irq.toNat * 2 ^ 25 + i.operandBits.toNat =
        2 ^ lo * (2 ^ n * (2 ^ (25 - lo - n) * (i.mnemonic.opcode.toNat * 2 + i.irq.toNat))) +
          i.operandBits.toNat := by
      have : 2 ^ lo * (2 ^ n * (2 ^ (25 - lo - n) * (i.mnemonic.opcode.toNat * 2 + i.irq.toNat))) =
          2 ^ 25 * (i.mnemonic.opcode.toNat * 2 + i.irq.toNat) := by rw [e]; ring
      rw [this]; ring
    rw [this, Nat.mul_add_div (Nat.two_pow_pos _), Nat.mul_add_mod]

theorem nop (irq : Bool) (arg : Word) : Statement (.nop irq arg) := by
  apply of_operandBits; simp only [Instr.operandBits, Instr.mnemonic, Mnemonic.fmt, Fmt.reserved]; decide

theorem framebegin (irq : Bool) (arg : Word) : Statement (.framebegin irq arg) := by
  apply of_operandBits; simp only [Instr.operandBits, Instr.mnemonic, Mnemonic.fmt, Fmt.reserved]; decide

theorem mbbegin (irq : Bool) (x : BitVec 16) (y : BitVec 16) : Statement (.mbbegin irq x y) := by
  apply of_operandBits; simp only [Instr.operandBits, Instr.mnemonic, Mnemonic.fmt, Fmt.reserved]; decide

theorem bsreset (irq : Bool) (arg : Word) : Statement (.bsreset irq arg) := by
  apply of_operandBits; simp only [Instr.operandBits, Instr.mnemonic, Mnemonic.fmt, Fmt.reserved]; decide

theorem putbits (irq : Bool) (nb : BitVec 6) (value : Word) : Statement (.putbits irq nb value) := by
  apply of_operandBits; simp only [Instr.operandBits, Instr.mnemonic, Mnemonic.fmt, Fmt.reserved]; decide +revert

theorem putzero (irq : Bool) (nz : BitVec 8) (arg : Word) : Statement (.putzero irq nz arg) := by
  apply of_operandBits; simp only [Instr.operandBits, Instr.mnemonic, Mnemonic.fmt, Fmt.reserved]; decide +revert

theorem padbyte (irq : Bool) (arg : Word) : Statement (.padbyte irq arg) := by
  apply of_operandBits; simp only [Instr.operandBits, Instr.mnemonic, Mnemonic.fmt, Fmt.reserved]; decide

theorem finish (irq : Bool) (arg : Word) : Statement (.finish irq arg) := by
  apply of_operandBits; simp only [Instr.operandBits, Instr.mnemonic, Mnemonic.fmt, Fmt.reserved]; decide

theorem qset (irq : Bool) (v : BitVec 5) (arg : Word) : Statement (.qset irq v arg) := by
  apply of_operandBits; simp only [Instr.operandBits, Instr.mnemonic, Mnemonic.fmt, Fmt.reserved]; decide +revert

theorem qdelta (irq : Bool) (dq : BitVec 3) (arg : Word) : Statement (.qdelta irq dq arg) := by
  apply of_operandBits; simp only [Instr.operandBits, Instr.mnemonic, Mnemonic.fmt, Fmt.reserved]; decide +revert

theorem qnext (irq : Bool) (arg : Word) : Statement (.qnext irq arg) := by
  apply of_operandBits; simp only [Instr.operandBits, Instr.mnemonic, Mnemonic.fmt, Fmt.reserved]; decide

theorem qintra (irq : Bool) (d : BlkIx) (src : BlkIx) (role : Role) (arg : Word) : Statement (.qintra irq d src role arg) := by
  apply of_operandBits; simp only [Instr.operandBits, Instr.mnemonic, Mnemonic.fmt, Fmt.reserved]; cases role <;> decide +revert

theorem qinter (irq : Bool) (d : BlkIx) (src : BlkIx) (arg : Word) : Statement (.qinter irq d src arg) := by
  apply of_operandBits; simp only [Instr.operandBits, Instr.mnemonic, Mnemonic.fmt, Fmt.reserved]; decide +revert

theorem dqintra (irq : Bool) (d : BlkIx) (src : BlkIx) (role : Role) (arg : Word) : Statement (.dqintra irq d src role arg) := by
  apply of_operandBits; simp only [Instr.operandBits, Instr.mnemonic, Mnemonic.fmt, Fmt.reserved]; cases role <;> decide +revert

theorem dqinter (irq : Bool) (d : BlkIx) (src : BlkIx) (arg : Word) : Statement (.dqinter irq d src arg) := by
  apply of_operandBits; simp only [Instr.operandBits, Instr.mnemonic, Mnemonic.fmt, Fmt.reserved]; decide +revert

theorem cbpcalc (irq : Bool) (mode : CbpMode) (arg : Word) : Statement (.cbpcalc irq mode arg) := by
  apply of_operandBits; simp only [Instr.operandBits, Instr.mnemonic, Mnemonic.fmt, Fmt.reserved]; cases mode <;> decide

theorem fdct (irq : Bool) (d : BlkIx) (src : BlkIx) (arg : Word) : Statement (.fdct irq d src arg) := by
  apply of_operandBits; simp only [Instr.operandBits, Instr.mnemonic, Mnemonic.fmt, Fmt.reserved]; decide +revert

theorem idct (irq : Bool) (d : BlkIx) (src : BlkIx) (arg : Word) : Statement (.idct irq d src arg) := by
  apply of_operandBits; simp only [Instr.operandBits, Instr.mnemonic, Mnemonic.fmt, Fmt.reserved]; decide +revert

theorem copy (irq : Bool) (d : BlkIx) (src : BlkIx) (arg : Word) : Statement (.copy irq d src arg) := by
  apply of_operandBits; simp only [Instr.operandBits, Instr.mnemonic, Mnemonic.fmt, Fmt.reserved]; decide +revert

theorem acdcpred (irq : Bool) (arg : Word) : Statement (.acdcpred irq arg) := by
  apply of_operandBits; simp only [Instr.operandBits, Instr.mnemonic, Mnemonic.fmt, Fmt.reserved]; decide

theorem mvset (irq : Bool) (k : SubIx) (x : BitVec 16) (y : BitVec 16) : Statement (.mvset irq k x y) := by
  apply of_operandBits; simp only [Instr.operandBits, Instr.mnemonic, Mnemonic.fmt, Fmt.reserved]; decide +revert

theorem mvset4 (irq : Bool) (x : BitVec 16) (y : BitVec 16) : Statement (.mvset4 irq x y) := by
  apply of_operandBits; simp only [Instr.operandBits, Instr.mnemonic, Mnemonic.fmt, Fmt.reserved]; decide

theorem mvpred (irq : Bool) (k : SubIx) (arg : Word) : Statement (.mvpred irq k arg) := by
  apply of_operandBits; simp only [Instr.operandBits, Instr.mnemonic, Mnemonic.fmt, Fmt.reserved]; decide +revert

end Sys2Proof.Laws.CmdFields
end

