-- ==== Sys2Proof/Tests/Slice0.lean ====
section
/-! SUPPORT. Tests with the expected values of spec/95_test_vectors.md (their ids stand in the docstrings),
and for each obligation with hypotheses a state and operands that meet them. -/

namespace Sys2Proof.Tests

set_option Elab.async false

open Sys2Proof Sys2Proof.Machine

/-! ### Well-formedness -/

/-- QDELTA's delta is -2..2: 3 and -4 are refused, -2 and 2 are not (30 R95). -/
theorem test_wf_qdelta : Instr.wf (.qdelta false 3 0) = false ∧ Instr.wf (.qdelta false 4 0) = false ∧
    Instr.wf (.qdelta false 5 0) = false ∧ Instr.wf (.qdelta false 2 0) = true ∧
    Instr.wf (.qdelta false 6 0) = true := by decide

/-- PUTBITS writes at most 32 bits: 33 and 63 are refused, 0 and 32 are not (30 R98). -/
theorem test_wf_putbits : Instr.wf (.putbits false 33 1) = false ∧ Instr.wf (.putbits false 63 1) = false ∧
    Instr.wf (.putbits false 32 1) = true ∧ Instr.wf (.putbits false 0 1) = true := by decide

/-! ### Decoding: the words of 95, section 2.1, written out from 30 R91 to R98 -/

/-- E-1 to E-4. -/
theorem test_decode_control :
    decode 0x00000000 7 = .ok (.nop false 7) ∧ decode 0x02000000 0 = .ok (.nop true 0) ∧
    decode 0x04000000 0 = .ok (.framebegin false 0) ∧
    decode 0x08000000 0x00010002 = .ok (.mbbegin false 2 1) := by decide

/-- E-5 to E-8, and PADBYTE. -/
theorem test_decode_packer :
    decode 0x10000000 0 = .ok (.bsreset false 0) ∧
    decode 0x14000020 0x12345678 = .ok (.putbits false 32 0x12345678) ∧
    decode 0x180000FF 0 = .ok (.putzero false 255 0) ∧ decode 0x1C000000 0 = .ok (.padbyte false 0) ∧
    decode 0x22000000 0 = .ok (.finish true 0) := by decide

/-- E-9 to E-16, with QINTER and DQINTER. -/
theorem test_decode_quantizer :
    decode 0x4000001F 0 = .ok (.qset false 31 0) ∧ decode 0x44000006 0 = .ok (.qdelta false (-2) 0) ∧
    decode 0x48000000 0 = .ok (.qnext false 0) ∧ decode 0x4A000000 0 = .ok (.qnext true 0) ∧
    decode 0x4C000100 0 = .ok (.qintra false 0 0 .chroma 0) ∧
    decode 0x4C000155 0 = .ok (.qintra false 5 5 .chroma 0) ∧
    decode 0b010100_0_00000000000000000_0001_0010#32 0 = .ok (.qinter false 1 2 0) ∧
    decode 0x54000080 0 = .ok (.dqintra false 8 0 .luma 0) ∧
    decode 0x540001C4 0 = .ok (.dqintra false 12 4 .chroma 0) ∧
    decode 0b010110_0_00000000000000000_1111_0011#32 0 = .ok (.dqinter false 15 3 0) ∧
    decode 0x5C000001 0 = .ok (.cbpcalc false .intra 0) ∧
    decode 0x5C000000 0 = .ok (.cbpcalc false .inter 0) := by decide

/-- E-17 to E-23. -/
theorem test_decode_transform_predictor :
    decode 0x80000010 0 = .ok (.fdct false 1 0 0) ∧ decode 0x84000088 0 = .ok (.idct false 8 8 0) ∧
    decode 0x88000080 0 = .ok (.copy false 8 0 0) ∧ decode 0x88000008 0 = .ok (.copy false 0 8 0) ∧
    decode 0xC2000000 0 = .ok (.acdcpred true 0) ∧
    decode 0xC4000002 0x0008FFFE = .ok (.mvset false 2 (-2) 8) ∧
    decode 0xC8000000 0xFFFE0004 = .ok (.mvset4 false 4 (-2)) ∧
    decode 0xCC000003 0 = .ok (.mvpred false 3 0) := by decide

/-- E-24 to E-27: unassigned opcodes before reserved bits. -/
theorem test_decode_faults :
    decode 0x0C000000 0 = .error .illegalOpcode ∧ decode 0x0DFFFFFF 0 = .error .illegalOpcode ∧
    decode 0x80000100 0 = .error .reservedField ∧ decode 0x40000020 0 = .error .reservedField ∧
    decode 0xFC000000 0 = .error .illegalOpcode := by decide

/-- The words of 95, section 2.1, encode back. -/
theorem test_encode : encode (.putbits false 32 0x12345678) = (0x14000020, 0x12345678) ∧
    encode (.dqintra false 12 4 .chroma 0) = (0x540001C4, 0) ∧ encode (.qdelta true (-2) 0) = (0x46000006, 0) ∧
    encode (.mvset false 2 (-2) 8) = (0xC4000002, 0x0008FFFE) := by decide

/-- The host's reading of a table word. -/
theorem test_decodeTableWord : decodeTableWord 32 0x80000010 = some (.fdct false 1 0 0) ∧
    decodeTableWord 64 0x0001000208000000 = some (.mbbegin false 2 1) ∧
    decodeTableWord 32 0x0C000000 = none := by decide

/-! ### Small states -/

/-- The state after a command. -/
def ran (i : Instr) (s : State) : State :=
  match exec i s with
  | .next t => t
  | .fault _ => s
  | .refused _ => s

/-- A block from its coefficients other than 0. -/
def blockOf (l : List (Nat × Int)) : Block :=
  Vector.ofFn (fun i : Fin 64 => BitVec.ofInt 16 ((l.lookup i.val).getD 0))

/-- The state after reset with one block and a quantizer. -/
def blk0 (b : Block) (q : BitVec 5) : State := (State.reset.setBlk 0 b).setQ q

/-- A block as integers. -/
def ints (s : State) (b : BlkIx) : List Int := (List.finRange 64).map (fun i => coef s b i)

/-- 64 integers from those other than 0. -/
def sparseInts (l : List (Nat × Int)) : List Int := (List.range 64).map (fun i => (l.lookup i).getD 0)

/-- A small configuration: a queue of 2, 6 macroblocks, 8 bytes of bitstream. -/
def small : Config := { Config.reference with cmdqDepth := 2, maxMb := 6, bsCap := 8 }

/-- The small configuration after reset, with a 3 x 2 grid at (1, 1). -/
def grid32 : State := { State.resetOf small with grid := ⟨3, 2, 1, 1, true⟩ }

/-- A stream of `k` flushed bytes AB, then `n` bits of `a`, in the small configuration. -/
def stream (k n a : Nat) (fin : Bool) : State :=
  (State.resetOf small).setStrm ⟨(List.range k).map (fun j => (j, 0xAB)), k, BitVec.ofNat 64 a, n, fin⟩

/-- One block other than 0 in the history. -/
def histBlk : HistBlock := ⟨704, #v[-18, 0, -1, 0, 0, 0, 0], #v[5, 0, 0, 0, 0, 0, 7]⟩

/-- An entry that is valid. -/
def histEntry : HistEntry := ⟨true, 4, Vector.replicate 6 histBlk⟩

/-- The 3 x 2 grid with one valid history entry above the current macroblock and two vectors. -/
def neighbours : State := { grid32 with hist := [(1, histEntry)], mvmem := [(12, ⟨5, -1⟩), (15, ⟨-2, 8⟩)] }

/-! ### Control commands -/

/-- E-2, 60 R220: NOP.I sets DONE alone. -/
theorem test_nop : ran (.nop true 0) State.reset = { State.reset with irqPend := 0b0001 } ∧
    ran (.nop false 0) State.reset = State.reset := ⟨rfl, rfl⟩

/-- C-7. -/
theorem test_framebegin : (ran (.framebegin false 0) neighbours).mvmem = [] ∧
    (histAt (ran (.framebegin false 0) neighbours) 1) = { histEntry with valid := false } := by decide +kernel

/-- C-4: a row outside the grid. C-5: the grid check comes first. -/
theorem test_mbbegin : (ran (.mbbegin false 2 1) grid32).grid = ⟨3, 2, 2, 1, true⟩ ∧
    (ran (.mbbegin false 0 2) grid32).flt = ⟨true, some .badOperand, 0x08000000, 0x00020000⟩ ∧
    (ran (.mbbegin false 5 5) State.reset).flt.code = some .noGrid := by decide +kernel

/-- 44 R202: the flags are cleared. -/
theorem test_mbbegin_flags : (ran (.mbbegin false 0 0)
    { grid32 with flags := { grid32.flags with sat := true, qsum := 9 } }).flags = MbFlags.clear := by decide +kernel

/-! ### Bit packer -/

/-- 40 R113. -/
theorem test_bsreset : (ran (.bsreset false 0) (stream 2 3 5 true)).strm =
    { (stream 2 3 5 true).strm with bspos := 0, acc := 0, accn := 0, bsfin := false } := by decide +kernel

/-- B-1: the second write flushes the first four bytes. -/
theorem test_putbits : (ran (.putbits false 32 0x9ABCDEF0) (ran (.putbits false 32 0x12345678) State.reset)).strm =
    ⟨[(0, 0x12), (1, 0x34), (2, 0x56), (3, 0x78)], 4, 0x9ABCDEF0, 32, false⟩ := by decide +kernel

/-- B-2 and B-4, B-14. -/
theorem test_putbits_narrow : (ran (.putbits false 0 0xFFFFFFFF) State.reset).strm = State.reset.strm ∧
    (ran (.putbits false 3 0xFD) State.reset).strm = ⟨[], 0, 0b101, 3, false⟩ ∧
    (ran (.putbits false 40 1) (stream 0 0 0 true)).flt.code = some .badOperand := by decide +kernel

/-- B-11 and B-13. -/
theorem test_putzero : (ran (.putzero false 40 0) (State.reset.setStrm ⟨[], 0, 0, 60, false⟩)).strm =
      ⟨[], 7, 0, 44, false⟩ ∧
    (ran (.putzero false 33 0) { State.reset with cfg := { small with bsCap := 4 } }).flt =
      ⟨true, some .bsOverflow, 0x18000021, 0⟩ := by decide +kernel

/-- B-6 and B-10. -/
theorem test_padbyte : streamLen (ran (.padbyte false 0) (stream 0 13 5 false)).strm = 16 ∧
    (ran (.padbyte false 0) (stream 0 0 0 true)).flt.code = some .bsFinished := by decide +kernel

/-- B-7, B-8 and B-9. -/
theorem test_finish :
    (ran (.finish false 0) (ran (.putbits false 3 5) State.reset)).strm = ⟨[(0, 0xA0)], 1, 0, 0, true⟩ ∧
    (ran (.finish false 0) (ran (.finish false 0) (ran (.putbits false 5 0x1F) State.reset))).strm =
      ⟨[(0, 0xF8)], 1, 0, 0, true⟩ ∧
    (ran (.finish false 0) State.reset).strm = ⟨[], 0, 0, 0, true⟩ := by decide +kernel

/-! ### Quantizer -/

/-- Q-L4. -/
theorem test_qset : (ran (.qset false 0 0) State.reset).q = 1 ∧ (ran (.qset false 31 0) State.reset).q = 31 := by
  decide +kernel

/-- Q-L3. -/
theorem test_qdelta : (ran (.qdelta false (-2) 0) State.reset).q = 1 ∧
    (ran (.qdelta false 2 0) (State.reset.setQ 30)).q = 31 ∧
    (ran (.qdelta false (-1) 0) (State.reset.setQ 9)).q = 8 := by decide +kernel

/-- E-28: a delta of 3 faults and Q stays. -/
theorem test_qdelta_fault : (ran (.qdelta false 3 0) (State.reset.setQ 9)).q = 9 ∧
    (ran (.qdelta false 3 0) (State.reset.setQ 9)).flt = ⟨true, some .badOperand, 0x44000003, 0⟩ := by decide +kernel

/-- Q-L2. -/
theorem test_qnext : (ran (.qnext false 0) (State.reset.setQ 9)).q = 10 ∧
    (ran (.qnext false 0) (State.reset.setQ 25)).q = 28 ∧ (ran (.qnext false 0) (State.reset.setQ 29)).q = 31 ∧
    (ran (.qnext false 0) (State.reset.setQ 31)).q = 31 := by decide +kernel

/-- The level of coefficient n and SAT after QINTRA 1, 0 on one coefficient x. -/
def qintraOf (n : Nat) (x : Int) (q : BitVec 5) (r : Role) : Int × Bool :=
  let t := ran (.qintra false 1 0 r 0) (blk0 (blockOf [(n, x)]) q)
  (coef t 1 (Fin.ofNat 64 n), t.flags.sat)

/-- Q-F1 to Q-F10. -/
theorem test_qintra_dc : qintraOf 0 (-12) 4 .luma = (-2, false) ∧ qintraOf 0 4 4 .luma = (1, false) ∧
    qintraOf 0 2047 1 .luma = (256, true) ∧ qintraOf 0 (-2048) 1 .luma = (-256, false) ∧
    qintraOf 0 2047 31 .luma = (45, true) ∧ qintraOf 0 2047 31 .chroma = (82, true) ∧
    qintraOf 0 (-2048) 7 .luma = (-146, false) ∧ qintraOf 0 1000 25 .chroma = (53, false) := by decide +kernel

/-- Q-F11 to Q-F18, Q-F34 and Q-F35. -/
theorem test_qintra_ac : qintraOf 5 7 4 .luma = (0, false) ∧ qintraOf 5 (-8) 4 .luma = (-1, false) ∧
    qintraOf 5 15 4 .luma = (1, false) ∧ qintraOf 5 100 4 .luma = (12, false) ∧
    qintraOf 5 (-2048) 4 .luma = (-256, false) ∧ qintraOf 5 32767 1 .luma = (2047, true) ∧
    qintraOf 5 32767 31 .luma = (528, true) := by decide +kernel

/-- The level of coefficient n and SAT after QINTER 1, 0 on one coefficient x. -/
def qinterOf (n : Nat) (x : Int) (q : BitVec 5) : Int × Bool :=
  let t := ran (.qinter false 1 0 0) (blk0 (blockOf [(n, x)]) q)
  (coef t 1 (Fin.ofNat 64 n), t.flags.sat)

/-- Q-F19 to Q-F33. -/
theorem test_qinter : qinterOf 0 9 4 = (0, false) ∧ qinterOf 0 (-10) 4 = (-1, false) ∧ qinterOf 3 17 4 = (1, false) ∧
    qinterOf 3 18 4 = (2, false) ∧ qinterOf 3 (-2048) 4 = (-255, false) ∧ qinterOf 3 48 31 = (0, false) ∧
    qinterOf 3 2047 31 = (32, false) := by decide +kernel

/-- QSUM leaves out the intra DC and counts every inter level (10 R34). -/
theorem test_qsum : (ran (.qintra false 0 0 .luma 0) (blk0 (blockOf [(0, 80), (9, -16)]) 4)).flags.qsum = 2 ∧
    (ran (.qinter false 0 0 0) (blk0 (blockOf [(0, 18), (9, -18)]) 4)).flags.qsum = 4 := by decide +kernel

/-- Q-D2, Q-D3, Q-D4 and Q-D6. -/
theorem test_dqintra :
    ints (ran (.dqintra false 1 0 .luma 0) (blk0 (blockOf [(0, 1), (63, 5)]) 4)) 1 = sparseInts [(0, 8), (63, 41)] ∧
    coef (ran (.dqintra false 1 0 .luma 0) (blk0 (blockOf [(63, -12)]) 4)) 1 63 = -95 ∧
    coef (ran (.dqintra false 1 0 .luma 0) (blk0 (blockOf [(0, -2047)]) 31)) 1 0 = -2048 := by decide +kernel

/-- Q-D7 and Q-D8. -/
theorem test_dqintra_ac :
    coef (ran (.dqintra false 1 0 .luma 0) (blk0 (blockOf [(1, 2047)]) 31)) 1 1 = 2047 ∧
    coef (ran (.dqintra false 1 0 .luma 0) (blk0 (blockOf [(1, -2047)]) 31)) 1 1 = -2048 ∧
    coef (ran (.dqintra false 1 0 .luma 0) (blk0 (blockOf [(1, -2047)]) 31)) 1 63 = 1 := by decide +kernel

/-- Q-D9 to Q-D13. -/
theorem test_dqinter :
    coef (ran (.dqinter false 1 0 0) (blk0 (blockOf [(0, -1)]) 1)) 1 0 = -3 ∧
    ints (ran (.dqinter false 1 0 0) (blk0 (blockOf [(0, 1)]) 4)) 1 = sparseInts [(0, 12), (63, 1)] ∧
    coef (ran (.dqinter false 1 0 0) (blk0 (blockOf [(0, 2047)]) 31)) 1 0 = 2047 ∧
    coef (ran (.dqinter false 1 0 0) (blk0 (blockOf [(63, 1)]) 2)) 1 63 = 7 := by decide +kernel

/-- The blocks of Q-C1. -/
def cbpState : State :=
  (((State.reset.setBlk 0 (blockOf [(0, 5)])).setBlk 3 (blockOf [(63, -1)])).setBlk 5 (blockOf [(8, 2)])).setBlk 6
    (blockOf [(1, 9)])

/-- Q-C1. -/
theorem test_cbpcalc : (ran (.cbpcalc false .intra 0) cbpState).flags.cbp = 0b101000 ∧
    (ran (.cbpcalc false .inter 0) cbpState).flags.cbp = 0b101001 := by decide +kernel

/-! ### Transform -/

/-- T-5: row 0, column 0 and three more coefficients. -/
theorem test_fdct :
    let t := ran (.fdct false 1 0 0) (blk0 (blockOf [(0, 255)]) 1)
    (List.finRange 8).map (fun c => coef t 1 (rcIndex 0 c)) = [32, 44, 42, 37, 32, 25, 17, 9] ∧
    (List.finRange 8).map (fun r => coef t 1 (rcIndex r 0)) = [32, 44, 42, 37, 32, 25, 17, 9] ∧
    coef t 1 9 = 61 ∧ coef t 1 63 = 2 := by decide +kernel

/-- T-6: the horizontal ramp, rows and columns not exchanged. -/
theorem test_fdct_ramp :
    let t := ran (.fdct false 1 0 0) (blk0 (Vector.ofFn fun i : Fin 64 => BitVec.ofNat 16 (100 + 8 * (i.val % 8))) 1)
    (List.finRange 8).map (fun c => coef t 1 (rcIndex 0 c)) = [1024, -146, 0, -15, 0, -5, 0, -1] ∧
    coef t 1 8 = 0 ∧ coef t 1 24 = 0 := by decide +kernel

/-- T-14 and T-13. -/
theorem test_idct :
    let t := ran (.idct false 1 0 0) (blk0 (blockOf [(1, 100)]) 1)
    (List.finRange 8).map (fun c => coef t 1 (rcIndex 6 c)) = [17, 15, 10, 3, -3, -10, -15, -17] ∧
    coef (ran (.idct false 1 0 0) (blk0 (blockOf [(0, 4)]) 1)) 1 63 = 1 := by decide +kernel

/-- T-10 and T-11. -/
theorem test_idct_clamp : coef (ran (.idct false 1 0 0) (blk0 (blockOf [(0, 2047)]) 1)) 1 7 = 255 ∧
    coef (ran (.idct false 0 0 0) (blk0 (blockOf [(0, -2048)]) 1)) 0 56 = -256 := by decide +kernel

/-- T-16. -/
theorem test_copy : coef (ran (.copy false 8 0 0) (blk0 (blockOf [(5, 7)]) 1)) 8 5 = 7 ∧
    coef (ran (.copy false 8 0 0) (blk0 (blockOf [(5, 7)]) 1)) 0 5 = 7 ∧
    coef (ran (.copy false 8 0 0) (blk0 (blockOf [(5, 7)]) 1)) 9 5 = 0 := by decide +kernel

/-! ### Predictor -/

/-- The levels of P2c's macroblock (0, 1), the row above it as P2c leaves it. -/
def p2c : State :=
  let flat : Block := blockOf [(0, 85)]
  let above : HistEntry := ⟨true, 4, (Vector.replicate 6 ⟨1024, Vector.replicate 7 0, Vector.replicate 7 0⟩).set 2
    ⟨704, #v[-18, 0, -1, 0, 0, 0, 0], Vector.replicate 7 0⟩⟩
  let chroma : Block := blockOf [(0, 108)]
  { State.reset with
    grid := ⟨1, 2, 0, 1, true⟩
    q := 6
    hist := [(0, above)]
    blk := (((((State.reset.blk.set 0 (blockOf [(0, 85), (1, -12), (3, -1)])).set 1 flat).set 2 flat).set 3 flat).set 4
      chroma).set 5 chroma }

/-- P2c: vertical prediction with a rescale from q = 4 to q = 6. -/
theorem test_acdcpred :
    coef (ran (.acdcpred false 0) p2c) 0 0 = 26 ∧ coef (ran (.acdcpred false 0) p2c) 0 1 = 0 ∧
    coef (ran (.acdcpred false 0) p2c) 2 1 = 12 ∧ coef (ran (.acdcpred false 0) p2c) 2 8 = 0 ∧
    (ran (.acdcpred false 0) p2c).flags.pdir = #v[.vert, .vert, .vert, .horz, .horz, .horz] ∧
    (ran (.acdcpred false 0) p2c).flags.acpred = true ∧ (ran (.acdcpred false 0) p2c).flags.cbp = 0b000100 := by
  decide +kernel

/-- C-6, and P-1. -/
theorem test_acdcpred_rules : (ran (.acdcpred false 0) State.reset).flt.code = some .noGrid ∧
    rescale (-18) 4 6 = -12 ∧ rescale (-1) 4 6 = -1 := by decide +kernel

/-- P3, step 4. -/
theorem test_mvset : (ran (.mvset false 3 (-2) 8) (ran (.mvset false 0 5 (-1)) grid32)).mvmem =
    [(16, ⟨5, -1⟩), (19, ⟨-2, 8⟩)] := by decide +kernel

/-- 43 R181: all four vectors. -/
theorem test_mvset4 : (ran (.mvset4 false 4 (-2)) grid32).mvmem =
    [(16, ⟨4, -2⟩), (17, ⟨4, -2⟩), (18, ⟨4, -2⟩), (19, ⟨4, -2⟩)] := by decide +kernel

/-- The vectors of P3 before step 5: (0, 1) is current. -/
def p3 : State := { State.reset with
  grid := ⟨3, 2, 0, 1, true⟩
  mvmem := [(0, ⟨4, -2⟩), (1, ⟨4, -2⟩), (2, ⟨4, -2⟩), (3, ⟨4, -2⟩), (4, ⟨6, 0⟩), (5, ⟨6, 0⟩), (6, ⟨6, 0⟩),
    (7, ⟨6, 0⟩), (12, ⟨5, -1⟩), (13, ⟨7, 1⟩), (14, ⟨3, 3⟩), (15, ⟨-2, 8⟩)] }

/-- P3, steps 5 to 8. -/
theorem test_mvpred : (ran (.mvpred false 0 0) p3).mvout = ⟨⟨4, 0⟩, 1, -1⟩ ∧
    (ran (.mvpred false 1 0) p3).mvout = ⟨⟨5, -1⟩, 2, 2⟩ ∧ (ran (.mvpred false 2 0) p3).mvout = ⟨⟨5, 0⟩, -2, 3⟩ ∧
    (ran (.mvpred false 3 0) p3).mvout = ⟨⟨5, 1⟩, -7, 7⟩ := by decide +kernel

/-- P3s: a lone candidate, MVP_SINGLE on and off. -/
theorem test_mvpred_single :
    let s : State := { p3 with grid := ⟨3, 2, 1, 0, true⟩ }
    (ran (.mvpred false 0 0) { s with cfg := { s.cfg with mvpSingle := true } }).mvout = ⟨⟨4, -2⟩, 2, 2⟩ ∧
    (ran (.mvpred false 0 0) s).mvout = ⟨⟨0, 0⟩, 6, 0⟩ := by decide +kernel

/-! ### The step and the host -/

/-- The state after a step. -/
def stepped (s : State) : State :=
  match step s with
  | .next t => t
  | .fault _ => s
  | .refused _ => s

/-- The command a table word places runs at the next step, from reset. -/
theorem test_withFetchWord : (stepped (State.reset.withFetchWord 32 0x40000009)).q = 9 ∧
    (stepped (State.reset.withFetchWord 32 0x40000009)).cq = [] ∧
    (stepped (State.reset.withFetchWord 64 0x0000000514000003)).strm = ⟨[], 0, 0b101, 3, false⟩ := by decide +kernel

/-- P5, its second command: the fault record, the halt and the queue; the step then waits. -/
theorem test_step_fault :
    let t := stepped { State.reset with cq := [⟨0x0C000000, 0⟩, ⟨0x48000000, 0⟩] }
    t.cq = [⟨0x48000000, 0⟩] ∧ t.flt = ⟨true, some .illegalOpcode, 0x0C000000, 0⟩ ∧ t.irqPend = 0b0010 ∧
    t.q = 1 ∧ (stepped t).cq = t.cq := by decide +kernel

/-- P5: CLRFLT resumes at the next command and leaves FAULT pending. -/
theorem test_clrflt :
    let s : State := { State.reset with
      cq := [⟨0x48000000, 0⟩]
      flt := ⟨true, some .illegalOpcode, 0x0C000000, 0⟩
      irqPend := 0b0010 }
    (mmioWrite s 0x014 2).flt = FaultRec.clear ∧ (mmioWrite s 0x014 2).irqPend = 0b0010 ∧
    (mmioWrite s 0x014 2).cq = [⟨0x48000000, 0⟩] ∧ (mmioWrite s 0x014 4).cq = [] ∧
    (mmioWrite s 0x014 4).flt.halted = true := by decide +kernel

/-- C-1 to C-3. -/
theorem test_mbdim : (mmioWrite State.reset 0x03C 0).irqPend = 0b0100 ∧
    (mmioWrite State.reset 0x03C 0).grid.ok = false ∧
    (mmioWrite State.reset 0x03C 0x20010001).irqPend = 0b0100 ∧
    (mmioWrite State.reset 0x03C 0x00400080).grid = ⟨128, 64, 0, 0, true⟩ := by decide +kernel

/-- C-8 and C-9. -/
theorem test_windows : mmioRead (mmioWrite State.reset 0x001000 0x0001FFFF) 0x001000 = 0xFFFFFFFF ∧
    mmioRead (mmioWrite State.reset 0x002004 0) 0x002004 = 1 ∧
    mmioRead (mmioWrite State.reset 0x002004 0x1FF) 0x002004 = 0xFF := by decide +kernel

/-- P1: the byte lanes of the bitstream window. -/
theorem test_bs_window : mmioRead (State.reset.setStrm ⟨[(0, 0xBA), (1, 0xBC), (2, 0x0D), (3, 0xEA)], 4, 0, 0, false⟩)
    0xC00000 = 0xEA0DBCBA ∧
    bsAt (mmioWrite State.reset 0xC00000 0xEA0DBCBA) 0 = 0xBA := by decide +kernel

/-- C-10 and C-11. -/
theorem test_accesses : mmioRead State.reset 0x000070 = 0 ∧
    hostAct State.reset (.read 0 .b2) = .fault (.busError 0 .b2) ∧
    hostAct State.reset (.read 2 .b4) = .fault (.busError 2 .b4) := by
  refine ⟨?_, ?_, ?_⟩ <;> rfl

/-- 10 R22, R23, R24 and R26: the constants and STATUS after reset. -/
theorem test_registers : mmioRead State.reset 0x000 = 0x48564451 ∧ mmioRead State.reset 0x004 = 0x00010000 ∧
    mmioRead State.reset 0x008 = 16 ∧ mmioRead State.reset 0x00C = 8192 ∧ mmioRead State.reset 0x010 = 0x400000 ∧
    mmioRead State.reset 0x018 = 0x00100000 := by decide +kernel

/-- 10 R33: PDIR[j] at [2j+1:2j] and ACDIR[j] at [2j+17:2j+16], 1 vertical and 2 horizontal, by hand. -/
theorem test_pred :
    let d : Vector Dir 6 := #v[.vert, .none, .none, .none, .none, .horz]
    mmioRead (State.reset.setFlags ⟨false, true, 0, d, d, 0⟩) 0x048 = 0x08010801 := by decide +kernel

/-- C-12, with a queue of 2. -/
theorem test_cmdovf :
    let t := mmioWrite { State.resetOf small with cq := [⟨0, 0⟩, ⟨0, 0⟩] } 0x034 5
    t.cq = [⟨0, 0⟩, ⟨0, 0⟩] ∧ t.irqPend = 0b1000 := by decide +kernel

/-- 10 R25: SRST acts alone. -/
theorem test_srst :
    let t := mmioWrite { grid32 with q := 9, cq := [⟨0, 0⟩] } 0x014 7
    t.q = 1 ∧ t.cq = [] ∧ t.grid = ⟨0, 0, 0, 0, false⟩ ∧ t.cfg = small := by decide +kernel

/-- 60 R224: the line follows the enabled pending bits, and a write of 1 clears a pending bit. -/
theorem test_irq : irqLine { State.reset with irqPend := 0b0101, irqEn := 0b0100 } = true ∧
    irqLine { State.reset with irqPend := 0b0001, irqEn := 0b0100 } = false ∧
    (mmioWrite { State.reset with irqPend := 0b0111 } 0x020 0b0011).irqPend = 0b0100 := by decide +kernel

/-- The agent the schedule names goes when both can (20 R71). -/
theorem test_schedule :
    let s : State := { State.reset with cq := [⟨0x40000009, 0⟩], host := ⟨[.write 0x030 .b4 7], [], [.host], []⟩ }
    (stepped s).arg = 7 ∧ (stepped s).q = 1 ∧ (stepped s).host = ⟨[], [.written], [], []⟩ ∧
    (stepped { s with host := { s.host with sched := [] } }).q = 9 := by decide +kernel

/-! ### Witnesses: states and operands that meet the hypotheses of each obligation, clause by clause, at the
boundaries of their ranges -/

theorem witness_EncodeOfDecodeIsIdentity : decode 0x540001C4 9 = .ok (.dqintra false 12 4 .chroma 9) := by decide

theorem witness_WordDecodesToRow : (0x4A000000 : Word) &&& Mnemonic.qnext.maskBits = Mnemonic.qnext.matchBits := by
  decide

theorem witness_UnassignedOpcodesAreIllegal : opField 0x0C000000 = 0x03#6 ∧ opField 0x24000000 = 0x09#6 ∧
    opField 0x3C000000 = 0x0F#6 ∧ opField 0x60000000 = 0x18#6 ∧ opField 0x7C000000 = 0x1F#6 ∧
    opField 0x8C000000 = 0x23#6 ∧ opField 0xBC000000 = 0x2F#6 ∧ opField 0xD0000000 = 0x34#6 ∧
    opField 0xFFFFFFFF = 0x3F#6 := by decide

/-- An unassigned opcode; a set reserved bit; an ill-formed and a well-formed command. -/
theorem witness_CommandChecksComeInOrder : (∀ m ∈ Mnemonic.all, m.opcode ≠ opField 0x0DFFFFFF) ∧
    (Mnemonic.fdct.opcode = opField 0x80000100 ∧ (0x80000100 : Word) &&& Mnemonic.fdct.fmt.reserved ≠ 0) ∧
    (Mnemonic.qdelta.opcode = opField 0x44000003 ∧ (0x44000003 : Word) &&& Mnemonic.qdelta.fmt.reserved = 0 ∧
      (Instr.qdelta false 3 0).wf = false) ∧
    (Mnemonic.putbits.opcode = opField 0x14000020 ∧ (0x14000020 : Word) &&& Mnemonic.putbits.fmt.reserved = 0) := by
  decide

/-- The host's side when it waits, and when the schedule names an agent. -/
def hosted (sched : List Agent) : HostPort := ⟨[.write 0x030 .b4 7], [], sched, []⟩

theorem witness_StepRunsDecodedCommand :
    let s : State := { State.reset with cq := [⟨0x40000009, 0⟩, ⟨0, 0⟩] }
    s.flt.halted = false ∧ s.host.agenda = [] ∧ decode 0x40000009 0 = .ok (.qset false 9 0) ∧
    decode 0x0C000000 0 = .error .illegalOpcode ∧ (hosted []).sched.headD .engine = .engine ∧
    (hosted [.engine]).sched.headD .engine = .engine := by decide +kernel

theorem witness_StepTakesHostActionOrIsIdle :
    (State.reset.setHost (hosted [])).host.agenda = [.write 0x030 .b4 7] ∧ State.reset.cq = [] ∧
    { State.reset with flt := ⟨true, some .noGrid, 0, 0⟩ }.flt.halted = true ∧
    (hosted [.host]).sched.head? = some .host ∧ State.reset.host.agenda = [] := by decide +kernel

theorem witness_FaultsArePrecise :
    let s : State := { State.reset with cq := [⟨0x0C000000, 5⟩, ⟨0x48000000, 0⟩] }
    s.flt.halted = false ∧ s.host.agenda = [] ∧ step s = .next (stepped s) ∧ (stepped s).flt.halted = true :=
  ⟨rfl, rfl, rfl, rfl⟩

theorem witness_CompletionSetsDone : exec (.qset true 9 0) State.reset = .next (ran (.qset true 9 0) State.reset) ∧
    State.reset.flt.halted = false ∧ (ran (.qset true 9 0) State.reset).flt.halted = false := ⟨rfl, rfl, rfl⟩

theorem witness_CommandsKeepTablesLatchAndQueue :
    exec (.copy false 1 0 0) State.reset = .next (ran (.copy false 1 0 0) State.reset) := rfl

theorem witness_OnlyNamedCommandsWrite :
    (ran (.qset false 9 0) State.reset).q ≠ State.reset.q ∧ (ran (.mbbegin false 2 1) grid32).grid ≠ grid32.grid := by
  decide +kernel

theorem witness_SaturationFlagIsSticky :
    (ran (.qintra false 0 0 .luma 0) (blk0 (blockOf [(0, 2047)]) 1)).flags.sat = true ∧
    (blk0 (blockOf [(0, 2047)]) 1).flags.sat = false ∧
    (ran (.mbbegin false 0 0) { grid32 with flags := { grid32.flags with sat := true } }).flags.sat = false := by
  decide +kernel

/-- The bitstream states of the packer's clauses: 60 and 0 bits with room, full to the last bit, finished. -/
theorem witness_stream : (∀ st ∈ [stream 0 60 1 false, stream 1 5 21 false, stream 4 32 9 false, stream 8 0 0 false,
    stream 8 0 0 true, stream 0 0 0 false, stream 0 63 1 false],
    StreamOk small.bsCap st.strm ∧ BufferOk small.bsCap st.strm.bs) := by decide +kernel

/-- Width 32 is accepted and 33 is not; 32 bits fit after 32 and not after 33; 60 + 3 does not flush and 60 + 4
does. -/
theorem witness_PutbitsAppendsLowBits : (32 < (33 : BitVec 6).toNat ∧ (32 : BitVec 6).toNat ≤ 32) ∧
    (stream 8 0 0 true).strm.bsfin = true ∧
    streamLen (stream 4 0 0 false).strm + 32 ≤ 8 * small.bsCap ∧ 8 * small.bsCap < streamLen (stream 4 1 0 false).strm + 32 ∧
    streamLen (stream 0 60 1 false).strm + 4 ≤ 8 * small.bsCap ∧
    (stream 0 60 1 false).strm.accn + 4 > 63 ∧ (stream 0 60 1 false).strm.accn + 3 ≤ 63 := by decide +kernel

theorem witness_PutzeroAppendsZeros : streamLen (stream 0 0 0 false).strm + (64 : BitVec 8).toNat ≤ 8 * small.bsCap ∧
    8 * small.bsCap < streamLen (stream 0 0 0 false).strm + (65 : BitVec 8).toNat ∧
    (stream 0 0 0 true).strm.bsfin = true := by decide +kernel

/-- The cursor of PUTZERO 40 from ACCN = 60 (B-11), and of PUTZERO 64, whose last piece is empty. -/
theorem test_appendCursor :
    (List.replicate (40 / 32) 32 ++ [40 % 32]).foldl appendCursor (0, 60) = (7, 44) ∧
    (List.replicate (64 / 32) 32 ++ [64 % 32]).foldl appendCursor (0, 0) = (4, 32) := by decide

theorem witness_PadbyteAndFinish : (stream 1 5 21 false).strm.bsfin = false ∧ (stream 8 0 0 false).strm.bsfin = false ∧
    (stream 8 0 0 true).strm.bsfin = true := by decide +kernel

theorem witness_FlushedBytesAreFinal : (Instr.putbits false 32 7).mnemonic ≠ .bsreset ∧
    StreamOk small.bsCap (stream 1 5 21 false).strm ∧ BufferOk small.bsCap (stream 1 5 21 false).strm.bs ∧
    0 < (stream 1 5 21 false).strm.bspos := by decide +kernel

/-- Widths 1 and 32, and a run that fills the buffer to its last bit. -/
def puts : List (BitVec 6 × Word) := [(1, 1), (32, 0xDEADBEEF), (31, 5)]

theorem witness_BitstreamRoundTrip : BufferOk small.bsCap (stream 1 5 21 false).strm.bs ∧
    (puts.all fun p => 1 ≤ p.1.toNat && p.1.toNat ≤ 32) = true ∧
    (puts.map fun p => p.1.toNat).sum ≤ 8 * small.bsCap := by decide +kernel

theorem witness_FramebeginClearsFrameState : HistOk neighbours ∧ (histAt neighbours 1).valid = true := by
  decide +kernel

/-- No grid; x and y just outside; the last column and row. -/
theorem witness_MbbeginChecksThenSetsPosition : State.reset.grid.ok = false ∧ grid32.grid.ok = true ∧
    grid32.grid.mbw.toNat ≤ (3 : BitVec 16).toNat ∧ grid32.grid.mbh.toNat ≤ (2 : BitVec 16).toNat ∧
    (2 : BitVec 16).toNat < grid32.grid.mbw.toNat ∧ (1 : BitVec 16).toNat < grid32.grid.mbh.toNat := by decide +kernel

theorem witness_NoGridFaults : State.reset.grid.ok = false ∧ (Instr.mvpred true 3 0).mnemonic = .mvpred ∧
    (Instr.mbbegin false 0 0).mnemonic = .mbbegin ∧ (Instr.acdcpred false 0).mnemonic = .acdcpred ∧
    (Instr.mvset false 0 0 0).mnemonic = .mvset ∧ (Instr.mvset4 false 0 0).mnemonic = .mvset4 := by decide +kernel

theorem witness_QsetAndQdeltaClamp : (0b010 : BitVec 3) ≠ 0b011 ∧ (0b010 : BitVec 3) ≠ 0b100 ∧
    (0b010 : BitVec 3) ≠ 0b101 ∧ (0b110 : BitVec 3) ≠ 0b101 ∧ (0b110 : BitVec 3) ≠ 0b011 ∧
    (0b110 : BitVec 3) ≠ 0b100 := by decide

theorem witness_Qnext : Config.LegalLadder Config.reference.qladder ∧ QuantOk State.reset ∧
    (State.reset.setQ 31).q.toNat = 31 ∧ (State.reset.setQ 30).q.toNat < 31 := by decide +kernel

theorem witness_LadderRetryTerminates : Config.LegalLadder State.reset.cfg.qladder ∧ QuantOk State.reset ∧
    runCmds (List.replicate 1 (.qnext false 0)) State.reset = .next (ran (.qnext false 0) State.reset) ∧
    (ran (.qnext false 0) State.reset).q.toNat ≠ 31 :=
  ⟨by decide, by decide, rfl, by decide⟩

/-- The threshold 2 q from both sides, and both signs (41 R134, R135). -/
theorem witness_quantizers :
    let s := blk0 (blockOf [(1, 7), (2, 8), (3, -8), (4, 10), (5, 9)]) 4
    |coef s 0 1| < 2 * (s.q.toNat : Int) ∧ 2 * (s.q.toNat : Int) ≤ |coef s 0 2| ∧ coef s 0 3 < 0 ∧
    |coef s 0 5| - (s.q.toNat : Int) / 2 < 2 * (s.q.toNat : Int) ∧
    2 * (s.q.toNat : Int) ≤ |coef s 0 4| - (s.q.toNat : Int) / 2 := by decide +kernel

theorem witness_inverseQuantizers :
    let s := blk0 (blockOf [(1, 1), (2, -1)]) 4
    0 < coef s 0 1 ∧ coef s 0 2 < 0 ∧ coef s 0 3 = 0 := by decide +kernel

theorem witness_FlatBlockHasOnlyDc : |(-255 : Int)| ≤ 255 ∧
    (∀ i, coef (blk0 (Vector.replicate 64 (-255)) 1) 0 i = -255) ∧
    exec (.fdct false 1 0 0) (blk0 (Vector.replicate 64 (-255)) 1) =
      .next (ran (.fdct false 1 0 0) (blk0 (Vector.replicate 64 (-255)) 1)) :=
  ⟨by decide, by decide +kernel, rfl⟩

/-- Inside and valid; inside and not valid; just outside on each side. -/
theorem witness_NeighbourTables : (histAt neighbours 1).valid = true ∧ (histAt neighbours 0).valid = false ∧
    insideGrid neighbours.grid 1 0 = true ∧ insideGrid neighbours.grid 2 1 = true ∧
    insideGrid neighbours.grid (-1) 0 = false ∧ insideGrid neighbours.grid 3 0 = false ∧
    insideGrid neighbours.grid 0 (-1) = false ∧ insideGrid neighbours.grid 0 2 = false := by decide +kernel

/-- ACDCPRED, MVSET and MVPRED: a grid with its memories, and consistent prediction flags. -/
theorem witness_predictor : PredOk neighbours.flags ∧ neighbours.grid.ok = true ∧ HistOk neighbours ∧ VectorsOk neighbours ∧
    (curMb neighbours = 4) ∧
    PredOk ⟨false, true, 0, Vector.replicate 6 .vert, Vector.replicate 6 .vert, 0⟩ := by decide +kernel

theorem witness_MedianIsMiddleValue : p3.grid.ok = true ∧ p3.cfg.mvpSingle = false := by decide +kernel

/-- One candidate inside, and more than one. -/
theorem witness_MvpredTakesMedian :
    let s : State := { p3 with grid := ⟨3, 2, 1, 0, true⟩, cfg := { small with mvpSingle := true } }
    s.cfg.mvpSingle = true ∧ (mvCand s 0).c1.inside.toNat + (mvCand s 0).c2.inside.toNat +
      (mvCand s 0).c3.inside.toNat = 1 ∧
    (mvCand s 1).c1.inside.toNat + (mvCand s 1).c2.inside.toNat + (mvCand s 1).c3.inside.toNat = 1 ∧
    (mvCand p3 0).c2.inside.toNat + (mvCand p3 0).c3.inside.toNat = 2 := by decide +kernel

theorem witness_HostAccesses : (0x000004 : BitVec 24).toNat % 4 = 0 ∧ (0xFFFFFE : BitVec 24).toNat % 4 ≠ 0 ∧
    AccessSize.b1 ≠ .b4 ∧ AccessSize.b8 ≠ .b4 := by decide

/-- The largest grid accepted, one macroblock more, and an empty side. -/
theorem witness_MbdimWrite : (1 ≤ (3 : BitVec 16).toNat ∧ 1 ≤ (2 : BitVec 16).toNat ∧
    (3 : BitVec 16).toNat * (2 : BitVec 16).toNat ≤ small.maxMb) ∧
    ¬(1 ≤ (7 : BitVec 16).toNat ∧ 1 ≤ (1 : BitVec 16).toNat ∧
      (7 : BitVec 16).toNat * (1 : BitVec 16).toNat ≤ small.maxMb) ∧ ¬1 ≤ (0 : BitVec 16).toNat := by decide

theorem witness_CommandWrites : [(⟨0, 0⟩ : Cmd)].length < small.cmdqDepth ∧
    small.cmdqDepth ≤ [(⟨0, 0⟩ : Cmd), ⟨0, 0⟩].length := by decide

theorem witness_CtrlWrite : (7 : Word).getLsbD 0 = true ∧ (6 : Word).getLsbD 0 = false := by decide

theorem witness_StatusFields : QueueOk { State.resetOf small with cq := [⟨0, 0⟩, ⟨0, 0⟩] } ∧
    QueueOk (State.resetOf { small with cmdqDepth := 255 }) := by decide

/-- The last entry and the last word of each window. -/
theorem witness_Windows : 5 < small.maxMb ∧ small.maxMb ≤ 8192 ∧ VectorsOk neighbours ∧ HistOk neighbours ∧
    4 < small.bsCap ∧ small.bsCap ≤ 4194304 ∧ Memory.wf (stream 8 0 0 true).strm.bs ∧
    8191 < State.reset.cfg.maxMb := by decide +kernel

theorem witness_UnmappedOffsets : 0x400000 + 0x200 * small.maxMb ≤ 0x400C00 ∧
    0x800000 + 16 * small.maxMb ≤ 0x800060 ∧ 0xC00000 + small.bsCap ≤ 0xFFFFFC ∧ 0xFFFFFC < 2 ^ 24 := by decide

/-- Unmapped offsets at the ends of each range. -/
theorem witness_unmapped_locations :
    (∀ off ∈ [0x70, 0xFFC, 0x2200, 0x3FFFFC, 0x400C00, 0x7FFFFC, 0x800060, 0x820000, 0xBFFFFC, 0xC00008, 0xFFFFFC],
      locate small off = .unmapped) ∧
    locate small 0x6C = .reg .bsAccHi ∧ locate small 0x1FFC = .blk 15 63 ∧ locate small 0x21FC = .wp 63 ∧
    locate small 0x400A00 = .hist 5 .head ∧ locate small 0x80005C = .mv 5 3 ∧ locate small 0xC00004 = .bs 4 := by
  decide +kernel

/-- The parameters at the ends of their ranges, each fault code, and a stream with bits in the accumulator. -/
theorem witness_RegistersRead : small.cmdqDepth ≤ 255 ∧ Config.reference.maxMb ≤ 8192 ∧
    Config.reference.bsCap ≤ 4194304 ∧ State.reset.flt.code = none ∧
    (∀ c ∈ [FaultCode.illegalOpcode, .reservedField, .badOperand, .noGrid, .bsFinished, .bsOverflow],
      (faulted c (.nop false 0) State.reset).flt.code = some c) ∧
    StreamOk small.bsCap (stream 1 5 21 false).strm ∧ small.bsCap ≤ 4194304 := by decide +kernel

theorem witness_StepKeepsInvariant : State.Inv (State.reset.withFetchWord 32 0x40000009) ∧
    step (State.reset.withFetchWord 32 0x40000009) = .next (stepped (State.reset.withFetchWord 32 0x40000009)) := by
  refine ⟨⟨by decide, by decide, ⟨by decide, by decide⟩, by decide, by decide, by decide +kernel, by decide,
    by decide, by decide, by decide, by decide +kernel⟩, rfl⟩

end Sys2Proof.Tests
end

/-! The invariant of the machine (10_state.md): what kind of change each command's effect makes, said once;
the invariant kept by each effect, each register and window write, reset, and so by every step. -/

namespace Sys2Proof.Machine

/-! ### The change a command makes -/

/-- The kinds of change a command's effect makes, with the rows of 30 R100 that alone make them. -/
inductive Change (s : State) : Mnemonic → State → Prop where
  | same (m : Mnemonic) : Change s m s
  | frame : Change s .framebegin (frameBegin s)
  | position {x y : BitVec 16} (hok : s.grid.ok = true) (hx : x.toNat < s.grid.mbw.toNat)
      (hy : y.toNat < s.grid.mbh.toNat) : Change s .mbbegin (mbBegin x y s)
  | stream (m : Mnemonic) (st : Stream) : Change s m (s.setStrm st)
  | quantizer {m : Mnemonic} {v : BitVec 5} (hm : m = .qset ∨ m = .qdelta ∨ m = .qnext)
      (hv : Config.LegalLadder s.cfg.qladder → v ≠ 0) : Change s m (s.setQ v)
  | levels {m : Mnemonic} (hm : m = .qintra ∨ m = .qinter) (d : BlkIx) (lo : Nat) (f : Fin 64 → Level) :
      Change s m (storeLevels s d lo f)
  | block (m : Mnemonic) (d : BlkIx) (b : Block) : Change s m (s.setBlk d b)
  | pattern (m : Mnemonic) (c : BitVec 6) : Change s m (s.setFlags { s.flags with cbp := c })
  | predict : Change s .acdcpred (acdcPredict s)
  | vectors (m : Mnemonic) (l : List (Nat × MV)) : Change s m (s.setMvmem l)
  | motion (m : Mnemonic) (o : MvOut) : Change s m (s.setMvout o)

/-- Every effect is one of these changes, made by its command's row. -/
theorem effect_change {i : Instr} {s s' : State} (h : effect i s = .ok s') : Change s i.mnemonic s' := by
  cases i <;> simp only [effect] at h
  case nop => obtain rfl := Except.ok.inj h; exact .same _
  case framebegin => obtain rfl := Except.ok.inj h; exact .frame
  case mbbegin x y =>
    obtain ⟨hok, h⟩ := withGrid_ok h
    split at h
    · cases h
    · obtain rfl := Except.ok.inj h
      exact .position hok (by omega) (by omega)
  case bsreset => obtain rfl := Except.ok.inj h; exact .stream _ _
  case putbits =>
    split at h
    · cases h
    · obtain ⟨-, -, rfl⟩ := guardedWrite_ok h; exact .stream _ _
  case putzero => obtain ⟨-, -, rfl⟩ := guardedWrite_ok h; exact .stream _ _
  case padbyte =>
    split at h
    · cases h
    · obtain rfl := Except.ok.inj h; exact .stream _ _
  case finish =>
    split at h
    · obtain rfl := Except.ok.inj h; exact .same _
    · obtain rfl := Except.ok.inj h; exact .stream _ _
  case qset => obtain rfl := Except.ok.inj h; exact .quantizer (.inl rfl) fun _ => clampQ_ne_zero _
  case qdelta =>
    split at h
    · obtain rfl := Except.ok.inj h
      exact .quantizer (.inr (.inl rfl)) fun _ => clampQ_ne_zero _
    · cases h
  case qnext =>
    obtain rfl := Except.ok.inj h
    exact .quantizer (.inr (.inr rfl)) fun hl => nextQ_ne_zero hl _
  case qintra => obtain rfl := Except.ok.inj h; exact .levels (.inl rfl) _ _ _
  case qinter => obtain rfl := Except.ok.inj h; exact .levels (.inr rfl) _ _ _
  case cbpcalc => obtain rfl := Except.ok.inj h; exact .pattern _ _
  case acdcpred =>
    obtain ⟨-, h⟩ := withGrid_ok h
    obtain rfl := Except.ok.inj h; exact .predict
  case mvset =>
    obtain ⟨-, h⟩ := withGrid_ok h
    obtain rfl := Except.ok.inj h; exact .vectors _ _
  case mvset4 =>
    obtain ⟨-, h⟩ := withGrid_ok h
    obtain rfl := Except.ok.inj h; exact .vectors _ _
  case mvpred =>
    obtain ⟨-, h⟩ := withGrid_ok h
    obtain rfl := Except.ok.inj h; exact .motion _ _
  all_goals obtain rfl := Except.ok.inj h; exact .block _ _ _

@[simp] theorem frameBegin_q (s : State) : (frameBegin s).q = s.q := rfl
@[simp] theorem frameBegin_grid (s : State) : (frameBegin s).grid = s.grid := rfl
@[simp] theorem frameBegin_flags (s : State) : (frameBegin s).flags = s.flags := rfl
@[simp] theorem mbBegin_q (x y : BitVec 16) (s : State) : (mbBegin x y s).q = s.q := rfl
@[simp] theorem mbBegin_grid (x y : BitVec 16) (s : State) :
    (mbBegin x y s).grid = { s.grid with mbx := x, mby := y } := rfl
@[simp] theorem mbBegin_flags (x y : BitVec 16) (s : State) : (mbBegin x y s).flags = MbFlags.clear := rfl
@[simp] theorem storeLevels_q (s : State) (d : BlkIx) (lo : Nat) (f : Fin 64 → Level) :
    (storeLevels s d lo f).q = s.q := by simp [storeLevels]
@[simp] theorem storeLevels_grid (s : State) (d : BlkIx) (lo : Nat) (f : Fin 64 → Level) :
    (storeLevels s d lo f).grid = s.grid := by simp [storeLevels]
@[simp] theorem storeLevels_sat (s : State) (d : BlkIx) (lo : Nat) (f : Fin 64 → Level) :
    (storeLevels s d lo f).flags.sat = (s.flags.sat || anySat f) := by simp [storeLevels, MbFlags.raiseSat]
@[simp] theorem acdcFlags_sat (s : State) : (acdcFlags s).sat = (s.flags.sat || residualSat s) := rfl

/-- What an effect does to Q: only the three quantizer commands write it, and never 0 (10 R27, 41 R130). -/
theorem Change.q_cases {s s' : State} {m : Mnemonic} (h : Change s m s') :
    s'.q = s.q ∨ ((m = .qset ∨ m = .qdelta ∨ m = .qnext) ∧ (Config.LegalLadder s.cfg.qladder → s'.q ≠ 0)) := by
  cases h with
  | quantizer hm hv => exact .inr ⟨hm, hv⟩
  | _ => exact .inl (by simp)

/-- What an effect does to the grid: only MBBEGIN moves the position, to one inside the grid (10 R29). -/
theorem Change.grid_cases {s s' : State} {m : Mnemonic} (h : Change s m s') :
    s'.grid = s.grid ∨ (m = .mbbegin ∧ s.grid.ok = true ∧ ∃ x y : BitVec 16, x.toNat < s.grid.mbw.toNat ∧
      y.toNat < s.grid.mbh.toNat ∧ s'.grid = { s.grid with mbx := x, mby := y }) := by
  cases h with
  | position hok hx hy => exact .inr ⟨rfl, hok, _, _, hx, hy, rfl⟩
  | _ => exact .inl (by simp)

/-- What an effect does to SAT: the forward quantizers and ACDCPRED may raise it, MBBEGIN clears it (10 R30). -/
theorem Change.sat_cases {s s' : State} {m : Mnemonic} (h : Change s m s') :
    s'.flags.sat = s.flags.sat ∨ (m = .mbbegin ∧ s'.flags.sat = false) ∨
    ((m = .qintra ∨ m = .qinter ∨ m = .acdcpred) ∧ ∃ b, s'.flags.sat = (s.flags.sat || b)) := by
  cases h with
  | position => exact .inr (.inl ⟨rfl, rfl⟩)
  | levels hm d lo f => exact .inr (.inr ⟨by tauto, _, storeLevels_sat s d lo f⟩)
  | predict => exact .inr (.inr ⟨by tauto, _, by rw [acdcPredict_flags, acdcFlags_sat]⟩)
  | _ => exact .inl (by simp)

/-! ### The invariant through a command -/

/-- The fields the invariant does not speak of can change freely. -/
theorem State.inv_setBlk {s : State} {d : BlkIx} {b : Block} (h : s.Inv) : (s.setBlk d b).Inv := h
theorem State.inv_setIrqEn {s : State} {v : BitVec 4} (h : s.Inv) : (s.setIrqEn v).Inv := h
theorem State.inv_setIrqPend {s : State} {v : BitVec 4} (h : s.Inv) : (s.setIrqPend v).Inv := h
theorem State.inv_setArg {s : State} {v : Word} (h : s.Inv) : (s.setArg v).Inv := h
theorem State.inv_setHost {s : State} {v : HostPort} (h : s.Inv) : (s.setHost v).Inv := h

theorem State.inv_setQ {s : State} {v : BitVec 5} (h : s.Inv) (hv : v ≠ 0) : (s.setQ v).Inv := by
  obtain ⟨hcfg, -, hrest⟩ := h
  exact ⟨hcfg, hv, hrest⟩

theorem State.inv_setGrid {s : State} {g : Grid} (h : s.Inv) (hg : GridOk (s.setGrid g)) : (s.setGrid g).Inv := by
  obtain ⟨hcfg, hq, -, hrest⟩ := h
  exact ⟨hcfg, hq, hg, hrest⟩

theorem State.inv_setBs {s : State} {m : Memory} (h : s.Inv) (hm : BufferOk s.cfg.bsCap m) :
    (s.setStrm { s.strm with bs := m }).Inv := by
  obtain ⟨hcfg, hq, hg, hs, -, hrest⟩ := h
  exact ⟨hcfg, hq, hg, hs, hm, hrest⟩

theorem State.inv_setWi {s : State} {v : Vector Byte 64} (h : s.Inv) (hv : ∀ i : Fin 64, v[i] ≠ 0) :
    (s.setWi v).Inv := by
  obtain ⟨hcfg, hq, hg, hs, hb, ⟨-, hwp⟩, hrest⟩ := h
  exact ⟨hcfg, hq, hg, hs, hb, ⟨hv, hwp⟩, hrest⟩

theorem State.inv_setWp {s : State} {v : Vector Byte 64} (h : s.Inv) (hv : ∀ i : Fin 64, v[i] ≠ 0) :
    (s.setWp v).Inv := by
  obtain ⟨hcfg, hq, hg, hs, hb, ⟨hwi, -⟩, hrest⟩ := h
  exact ⟨hcfg, hq, hg, hs, hb, ⟨hwi, hv⟩, hrest⟩

theorem State.inv_writeHist {s : State} {m : Nat} {e : HistEntry} (h : s.Inv) (hm : m < s.cfg.maxMb)
    (he : e.hq ≠ 0) : (s.writeHist m e).Inv := by
  obtain ⟨hcfg, hq, hg, hs, hb, hw, hh, hrest⟩ := h
  exact ⟨hcfg, hq, hg, hs, hb, hw, histOk_write hh hm he, hrest⟩

theorem State.inv_writeMv {s : State} {m : Nat} {k : SubIx} {v : MV} (h : s.Inv) (hm : m < s.cfg.maxMb) :
    (s.writeMv m k v).Inv := by
  obtain ⟨hcfg, hq, hg, hs, hb, hw, hh, hv, hrest⟩ := h
  exact ⟨hcfg, hq, hg, hs, hb, hw, hh, vectorsOk_write hv hm k v, hrest⟩

theorem State.inv_setCq {s : State} {l : List Cmd} (h : s.Inv) (hl : l.length ≤ s.cfg.cmdqDepth) :
    (s.setCq l).Inv := by
  obtain ⟨hcfg, hq, hg, hs, hb, hw, hh, hv, -, hrest⟩ := h
  exact ⟨hcfg, hq, hg, hs, hb, hw, hh, hv, hl, hrest⟩

theorem State.inv_setFlt {s : State} {f : FaultRec} (h : s.Inv) (hf : FaultOk (s.setFlt f)) : (s.setFlt f).Inv := by
  obtain ⟨hcfg, hq, hg, hs, hb, hw, hh, hv, hcq, -, hp⟩ := h
  exact ⟨hcfg, hq, hg, hs, hb, hw, hh, hv, hcq, hf, hp⟩

/-- Setting interrupt bits keeps the invariant. -/
theorem State.inv_pend {s : State} {bits : BitVec 4} (h : s.Inv) : (s.pend bits).Inv := State.inv_setIrqPend h

theorem commit_inv {s : State} (irq : Bool) (h : s.Inv) : (commit irq s).Inv := by
  rw [commit_eq]; exact State.inv_setIrqPend h

/-- A fault taken is recorded with its code (60 R211). -/
theorem takeFault_inv {s : State} (c : FaultCode) (cmd arg : Word) (h : s.Inv) : (takeFault c cmd arg s).Inv :=
  State.inv_pend (State.inv_setFlt h ⟨fun _ => nofun, nofun⟩)

/-- CTRL.CLRFLT leaves a clear record (60 R215). -/
theorem clearFault_inv {s : State} (h : s.Inv) : (clearFault s).Inv :=
  State.inv_setFlt h ⟨nofun, fun _ => rfl⟩

/-- A position inside the grid keeps the grid valid (10 R29). -/
theorem Change.gridOk {s s' : State} {m : Mnemonic} (h : Change s m s') (hcfg : s'.cfg = s.cfg) (hg : GridOk s) :
    GridOk s' := by
  obtain he | ⟨-, hok, x, y, hx, hy, he⟩ := h.grid_cases
  · simpa only [GridOk, he, hcfg] using hg
  · obtain ⟨hw, hh, hle, -, -⟩ := hg.1 hok
    simp only [GridOk, he, hcfg]
    exact ⟨fun _ => ⟨hw, hh, hle, hx, hy⟩, fun hno => absurd (hok.symm.trans hno) nofun⟩

/-- No effect of a command breaks the invariant. -/
theorem effect_inv {i : Instr} {s s' : State} (h : effect i s = .ok s') (hs : s.Inv) : s'.Inv := by
  obtain ⟨hcfg, hq, hg, hst, hb, hw, hh, hv, hcq, hf, hp⟩ := hs
  have hc := effect_change h
  obtain ⟨ecfg, ewi, ewp, -, -, eflt, -, ecq, -⟩ := effect_frame h
  have hq' : QuantOk s' := by
    obtain he | ⟨-, hne⟩ := hc.q_cases
    · rw [QuantOk, he]; exact hq
    · obtain ⟨-, -, -, hladder, -, -⟩ := hcfg
      exact hne hladder
  obtain ⟨hst', hb'⟩ := effect_packOk h ⟨hst, hb⟩
  exact ⟨by rwa [ecfg], hq', hc.gridOk ecfg hg, hst', hb', by rwa [WeightsOk, ewi, ewp],
    effect_histOk h hg hq hh, effect_vectorsOk h hg hv, by rwa [QueueOk, ecq, ecfg],
    by rwa [FaultOk, eflt], effect_predOk h hp⟩

theorem exec_inv {i : Instr} {s t : State} (h : exec i s = .next t) (hs : s.Inv) : t.Inv := by
  obtain ⟨s', he, rfl⟩ | ⟨c, -, rfl⟩ := exec_cases h
  · exact commit_inv _ (effect_inv he hs)
  · exact takeFault_inv _ _ _ hs

/-- The engine step keeps the invariant (44 R203). -/
theorem engineStep_inv {s t : State} (h : engineStep s = .next t) (hs : s.Inv) : t.Inv := by
  unfold engineStep at h
  split at h
  · cases h; exact hs
  · rename_i c rest hcq
    have hlen : rest.length ≤ s.cfg.cmdqDepth := by
      obtain ⟨-, -, -, -, -, -, -, -, hq, -⟩ := hs
      rw [QueueOk, hcq, List.length_cons] at hq; omega
    have hrest : (s.setCq rest).Inv := State.inv_setCq hs hlen
    unfold runCmd at h
    split at h
    · cases h; exact takeFault_inv _ _ _ hrest
    · exact exec_inv h hrest

/-! ### The invariant through a reset -/

/-- Both weight tables hold 16 in every place after a reset (10 R47). -/
theorem resetOf_weights (c : Config) (i : Fin 64) : (State.resetOf c).wi[i] = 16 ∧ (State.resetOf c).wp[i] = 16 :=
  ⟨Vector.getElem_replicate i.isLt, Vector.getElem_replicate i.isLt⟩

/-- The state after power-on meets the invariant in every legal configuration (10 R47). -/
theorem resetOf_inv {c : Config} (hc : c.Legal) : (State.resetOf c).Inv := by
  have hw : WeightsOk (State.resetOf c) :=
    ⟨fun i => by rw [(resetOf_weights c i).1]; decide, fun i => by rw [(resetOf_weights c i).2]; decide⟩
  refine ⟨hc, (by decide : (1 : BitVec 5) ≠ 0), ⟨nofun, fun _ => rfl⟩,
    ⟨Nat.zero_le _, (by decide : 0 < 2 ^ 0), Nat.zero_le _, nofun⟩, ?_, hw, ?_, ?_, Nat.zero_le _,
    ⟨nofun, fun _ => rfl⟩, ⟨nofun, fun _ => rfl⟩⟩ <;>
    exact ⟨⟨List.Pairwise.nil, nofun⟩, nofun⟩

/-- So does a reset under any draw (70 R240). -/
theorem resetUnder_inv {s : State} (d : ResetDraw) (hc : s.cfg.Legal) : (resetUnder d s).Inv := by
  obtain ⟨-, hq, hg, hst, -, hw, -, hrest⟩ := resetOf_inv hc
  obtain ⟨hwf, hall⟩ := drawHist_ok s.cfg.maxMb d
  exact ⟨hc, hq, hg, hst, drawBs_ok _ d, hw, ⟨hwf, fun p hp => (hall p hp).1⟩, hrest⟩

theorem hardReset_inv {s : State} (hs : s.Inv) : (hardReset s).Inv := by
  obtain ⟨d, hd⟩ := hardReset_eq s
  obtain ⟨hcfg, -⟩ := hs
  rw [hd]; exact resetUnder_inv d hcfg

/-! ### The invariant through a host action -/

theorem writeCtrl_inv {s : State} (v : Word) (hs : s.Inv) : (writeCtrl s v).Inv := by
  have hflush : (if v.getLsbD 2 then s.setCq [] else s).Inv := by
    split
    · exact State.inv_setCq hs (Nat.zero_le _)
    · exact hs
  unfold writeCtrl
  split
  · exact hardReset_inv hs
  · dsimp only
    split
    · exact clearFault_inv hflush
    · exact hflush

theorem writeMbdim_inv {s : State} (v : Word) (hs : s.Inv) : (writeMbdim s v).Inv := by
  unfold writeMbdim
  split
  · rename_i h
    obtain ⟨hw, hh, hle⟩ := h
    exact State.inv_setGrid hs ⟨fun _ => ⟨hw, hh, hle, hw, hh⟩, nofun⟩
  · exact State.inv_pend hs

theorem writeCmd_inv {s : State} (v : Word) (hs : s.Inv) : (writeCmd s v).Inv := by
  unfold writeCmd
  split
  · exact State.inv_setCq hs (by rw [List.length_append, List.length_singleton]; omega)
  · exact State.inv_pend hs

theorem regWrite_inv {s : State} (v : Word) (r : Reg) (hs : s.Inv) : (regWrite s v r).Inv := by
  cases r
  case ctrl => exact writeCtrl_inv v hs
  case irqEn => exact State.inv_setIrqEn hs
  case irqPend => exact State.inv_setIrqPend hs
  case arg => exact State.inv_setArg hs
  case cmd => exact writeCmd_inv v hs
  case q => exact State.inv_setQ hs (clampQ_ne_zero _)
  case mbdim => exact writeMbdim_inv v hs
  all_goals exact hs

/-- A stored weight is in 1..255, and so are the others (10 R42). -/
theorem weights_set {w : Vector Byte 64} (h : ∀ i : Fin 64, w[i] ≠ 0) (j : Fin 64) (v : Word) :
    ∀ i : Fin 64, (w.set j (weightOf v))[i] ≠ 0 := by
  intro i
  rw [Fin.getElem_fin, Vector.getElem_set]
  split
  · exact weightOf_ne_zero v
  · exact h i

/-- A write of an aligned word keeps the invariant. -/
theorem mmioWrite_inv {s : State} {off : Nat} (v : Word) (hoff : off % 4 = 0) (hs : s.Inv) :
    (mmioWrite s off v).Inv := by
  have hs0 := hs
  obtain ⟨⟨-, -, ⟨-, -, hcap⟩, -⟩, -, -, -, hb, ⟨hwi, hwp⟩, hh, -⟩ := hs0
  obtain ⟨hhist, hmv, hbs⟩ := locate_bound (c := s.cfg) (off := off) rfl
  cases hl : locate s.cfg off <;> simp only [mmioWrite, hl]
  case reg r => exact regWrite_inv v r hs
  case blk => exact State.inv_setBlk hs
  case wi i => exact State.inv_setWi hs (weights_set hwi i v)
  case wp i => exact State.inv_setWp hs (weights_set hwp i v)
  case hist m w => exact State.inv_writeHist hs (hhist m w hl) (histWrite_hq (histAt_hq hh m) v w)
  case mv m k => exact State.inv_writeMv hs (hmv m k hl)
  case bs k =>
    obtain ⟨hk, rfl⟩ := hbs k hl
    obtain ⟨-, -, -, hbuf⟩ := bsWriteWord_spec hb.1 k v
    exact State.inv_setBs hs (hbuf _ hb hk (by omega) hcap)
  case unmapped => exact hs

/-- An accepted access is aligned (20 R62). -/
theorem accessOk_aligned {off : BitVec 24} {size : AccessSize} (h : accessOk off size = true) :
    off.toNat % 4 = 0 := by
  simp only [accessOk, Bool.and_eq_true, decide_eq_true_eq] at h
  exact h.2

theorem hostAct_inv {s t : State} {a : HostAction} (h : hostAct s a = .next t) (hs : s.Inv) : t.Inv := by
  cases a <;> simp only [hostAct] at h
  case read off size =>
    split at h
    · cases h; exact State.inv_setHost hs
    · cases h
  case write off size v =>
    split at h
    · rename_i hok
      cases h; exact State.inv_setHost (mmioWrite_inv v (accessOk_aligned hok) hs)
    · cases h
  case reset => cases h; exact hardReset_inv hs

theorem hostStep_inv {s t : State} (h : hostStep s = .next t) (hs : s.Inv) : t.Inv := by
  unfold hostStep at h
  split at h
  · cases h; exact hs
  · exact hostAct_inv h (State.inv_setHost hs)

/-- Settles O59: whichever agent goes, its step keeps the invariant. -/
theorem stepKeepsInvariant : Obligations.StepKeepsInvariant := by
  unfold Obligations.StepKeepsInvariant
  intro s t hs h
  have hpop : s.popSched.Inv := State.inv_setHost hs
  unfold step stepOnce at h
  split at h
  · cases h; exact hs
  · exact engineStep_inv h hs
  · exact hostStep_inv h hs
  · split at h
    · exact engineStep_inv h hpop
    · exact hostStep_inv h hpop

/-- Settles O58: the reference configuration is legal. -/
theorem resetMeetsInvariant : Obligations.ResetMeetsInvariant :=
  resetOf_inv (by decide)

/-- Settles O12: neither an effect nor a fault touches them. -/
theorem commandsKeepTablesLatchAndQueue : Obligations.CommandsKeepTablesLatchAndQueue := by
  unfold Obligations.CommandsKeepTablesLatchAndQueue
  intro i s t h
  obtain ⟨s', he, rfl⟩ | ⟨c, -, rfl⟩ := exec_cases h
  · obtain ⟨ecfg, ewi, ewp, eirqEn, -, -, earg, ecq, ehost⟩ := effect_frame he
    simp [ecfg, ewi, ewp, eirqEn, earg, ecq, ehost]
  · exact ⟨rfl, rfl, rfl, rfl, rfl, rfl, rfl⟩

/-- Settles O14: a fault leaves the flags, and an effect changes SAT as its kind says. -/
theorem saturationFlagIsSticky : Obligations.SaturationFlagIsSticky := by
  unfold Obligations.SaturationFlagIsSticky
  intro i s t h
  obtain ⟨s', he, rfl⟩ | ⟨c, -, rfl⟩ := exec_cases h
  · rw [commit_flags]
    obtain e | ⟨hm, e⟩ | ⟨hm, b, e⟩ := (effect_change he).sat_cases
    · exact ⟨fun h0 h1 => by simp [e, h0] at h1, fun h1 h0 => by simp [e, h1] at h0⟩
    · exact ⟨fun _ h1 => by simp [e] at h1, fun _ _ => hm⟩
    · exact ⟨fun _ _ => hm, fun h1 h0 => by simp [e, h1] at h0⟩
  · exact ⟨fun h0 h1 => absurd (h0.symm.trans h1) nofun, fun h1 h0 => absurd (h0.symm.trans h1) nofun⟩

end Sys2Proof.Machine

/-! ## Reset and the host's registers (10_state.md R22 to R47, 70 R240)

What a reset leaves, and the register map as the host reads and writes it: a lemma that takes an offset to the
register there, then one per register or field. -/

namespace Sys2Proof.Machine

/-! ### Reset -/

@[simp] theorem resetUnder_cfg (d : ResetDraw) (s : State) : (resetUnder d s).cfg = s.cfg := by
  unfold resetUnder; rfl
@[simp] theorem resetUnder_host (d : ResetDraw) (s : State) : (resetUnder d s).host = s.host := by
  unfold resetUnder; rfl

/-- No entry is valid after a reset, and every quantizer in the history is in its domain (10 R43, R47). -/
theorem histAt_resetUnder (d : ResetDraw) (s : State) (m : Nat) :
    (histAt (resetUnder d s) m).valid = false ∧ (histAt (resetUnder d s) m).hq ≠ 0 := by
  obtain he | hm := Sparse.read_mem (dflt := HistEntry.dflt) (resetUnder d s).hist m
  · rw [histAt, he]; decide
  · obtain ⟨⟨-, hq⟩, hv⟩ := (drawHist_ok s.cfg.maxMb d).2 _ hm
    exact ⟨hv, hq⟩

/-- Settles O56: every reset is a reset under some draw, and the draw reaches unspecified contents only. -/
theorem resetLeavesSpecifiedValues : Obligations.ResetLeavesSpecifiedValues := by
  unfold Obligations.ResetLeavesSpecifiedValues
  intro s
  obtain ⟨d, hd⟩ := hardReset_eq s
  rw [hd]
  refine ⟨rfl, rfl, rfl, rfl, rfl, rfl, rfl, rfl, rfl, rfl, rfl, rfl, rfl, resetOf_weights s.cfg, fun m => ?_,
    fun _ _ => rfl, resetUnder_cfg d _, resetUnder_host d _⟩
  obtain ⟨hv, hq⟩ := histAt_resetUnder d (s.setHost { s.host with draws := s.host.draws.tail }) m
  exact ⟨hv, Nat.pos_of_ne_zero fun h0 => hq (BitVec.eq_of_toNat_eq h0)⟩

/-! ### The register map -/

/-- A read at a register's offset reads that register. -/
theorem mmioRead_reg (s : State) (n : Nat) {r : Reg} (h : regMap[n]? = some r) :
    mmioRead s (4 * n) = regRead s r := by
  rw [mmioRead, locate_reg h]

/-- A write at a register's offset writes that register. -/
theorem mmioWrite_reg (s : State) (v : Word) (n : Nat) {r : Reg} (h : regMap[n]? = some r) :
    mmioWrite s (4 * n) v = regWrite s v r := by
  rw [mmioWrite, locate_reg h]

theorem xField_halves (hi lo : BitVec 16) : xField (hi ++ lo) = lo := BitVec.extractLsb'_append_eq_right

theorem yField_halves (hi lo : BitVec 16) : yField (hi ++ lo) = hi := BitVec.extractLsb'_append_eq_left

/-- Settles O48: the two branches of the MBDIM write, its read, and the grid a reset leaves. -/
theorem mbdimWriteIsAcceptedOrRejected : Obligations.MbdimWriteIsAcceptedOrRejected := by
  unfold Obligations.MbdimWriteIsAcceptedOrRejected
  intro s w h
  have hwrite : mmioWrite s 0x03C (h ++ w) = writeMbdim s (h ++ w) := mmioWrite_reg s _ 15 rfl
  rw [hwrite, writeMbdim, xField_halves, yField_halves]
  refine ⟨fun hok => ?_, fun hno => ?_, mmioRead_reg s 15 rfl, ?_⟩
  · rw [if_pos hok]; rfl
  · rw [if_neg hno]; rfl
  · obtain ⟨d, hd⟩ := hardReset_eq s
    rw [hd]; rfl

/-- Settles O49: the two branches of the CMD write. -/
theorem commandWritesQueueInOrder : Obligations.CommandWritesQueueInOrder := by
  unfold Obligations.CommandWritesQueueInOrder
  intro s v
  have hwrite : mmioWrite s 0x034 v = writeCmd s v := mmioWrite_reg s v 13 rfl
  rw [hwrite, writeCmd]
  refine ⟨mmioWrite_reg s v 12 rfl, mmioRead_reg s 12 rfl, mmioRead_reg s 13 rfl, fun hroom => ?_, fun hfull => ?_⟩
  · rw [if_pos hroom]; rfl
  · rw [if_neg (by omega)]; rfl

/-- Settles O50: CTRL's three bits, SRST before the other two. -/
theorem ctrlWriteActsByField : Obligations.CtrlWriteActsByField := by
  unfold Obligations.CtrlWriteActsByField
  intro s v
  have hwrite : mmioWrite s 0x014 v = writeCtrl s v := mmioWrite_reg s v 5 rfl
  rw [hwrite, writeCtrl]
  refine ⟨mmioRead_reg s 5 rfl, fun hrst => if_pos hrst, fun hrst => ?_⟩
  rw [hrst]
  cases v.getLsbD 1 <;> cases v.getLsbD 2 <;> rfl

/-- A bit vector is 0 exactly when no bit of it is set. -/
theorem ne_zero_iff_exists_bit {n : Nat} (x : BitVec n) : x ≠ 0 ↔ ∃ b : Nat, b < n ∧ x.getLsbD b = true := by
  constructor
  · intro h
    by_contra hno
    push Not at hno
    exact h (BitVec.eq_of_getLsbD_eq fun b hb => by simpa using hno b hb)
  · rintro ⟨b, -, hb⟩ rfl
    simp at hb

/-- Settles O51: bit by bit. -/
theorem interruptRegistersAndLine : Obligations.InterruptRegistersAndLine := by
  unfold Obligations.InterruptRegistersAndLine
  intro s v
  have hen : mmioRead s 0x01C = s.irqEn.setWidth 32 := mmioRead_reg s 7 rfl
  have hpend : mmioRead s 0x020 = s.irqPend.setWidth 32 := mmioRead_reg s 8 rfl
  refine ⟨mmioWrite_reg s v 7 rfl, ?_, ?_, ⟨_, mmioWrite_reg s v 8 rfl, fun b hb => ?_⟩, ?_⟩
  · rw [hen, BitVec.toNat_setWidth_of_le (by decide)]
  · rw [hpend, BitVec.toNat_setWidth_of_le (by decide)]
  · simp [hb]
  · rw [irqLine, decide_eq_true_iff, ne_zero_iff_exists_bit]
    simp only [BitVec.getLsbD_and, Bool.and_eq_true]

/-! ### STATUS -/

/-- A bit of a number is read by division. -/
theorem testBit_of_div_mod {v k : Nat} {b : Bool} (h : v / 2 ^ k % 2 = b.toNat) : v.testBit k = b := by
  rw [Nat.testBit_eq_decide_div_mod_eq, h]; cases b <;> rfl

/-- STATUS as a number: it does not wrap for a queue within its depth. -/
theorem statusWord_toNat {s : State} (hd : s.cfg.cmdqDepth ≤ 255) (hq : QueueOk s) :
    (statusWord s).toNat = (busy s).toNat + 2 * s.flt.halted.toNat + 4 * s.flags.sat.toNat +
      8 * s.flags.acpred.toNat + 16 * s.strm.bsfin.toNat + 32 * s.grid.ok.toNat +
      2 ^ 8 * s.cq.length + 2 ^ 16 * (s.cfg.cmdqDepth - s.cq.length) := by
  have := (busy s).toNat_le
  have := s.flt.halted.toNat_le
  have := s.flags.sat.toNat_le
  have := s.flags.acpred.toNat_le
  have := s.strm.bsfin.toNat_le
  have := s.grid.ok.toNat_le
  rw [statusWord, BitVec.toNat_ofNat, Nat.mod_eq_of_lt]
  omega

/-- Settles O52: each field by division of the number STATUS holds. -/
theorem statusFieldsReadTheState : Obligations.StatusFieldsReadTheState := by
  unfold Obligations.StatusFieldsReadTheState
  intro s hd hq
  have hread : mmioRead s 0x018 = statusWord s := mmioRead_reg s 6 rfl
  rw [hread]
  have hv := statusWord_toNat hd hq
  have := (busy s).toNat_le
  have := s.flt.halted.toNat_le
  have := s.flags.sat.toNat_le
  have := s.flags.acpred.toNat_le
  have := s.strm.bsfin.toNat_le
  have := s.grid.ok.toNat_le
  have hfree : (statusWord s).toNat / 2 ^ 16 = s.cfg.cmdqDepth - s.cq.length := by omega
  have htop : (statusWord s).toNat / 2 ^ 24 = 0 := by omega
  dsimp only
  simp only [BitVec.getLsbD, BitVec.extractLsb'_toNat, Nat.shiftRight_eq_div_pow]
  refine ⟨testBit_of_div_mod (b := busy s) ?_, testBit_of_div_mod ?_, testBit_of_div_mod ?_, testBit_of_div_mod ?_,
    testBit_of_div_mod ?_, testBit_of_div_mod ?_, ?_, ?_, ?_, ?_⟩ <;> omega

/-! ### The reference configuration -/

/-- The DC scalers of the reference configuration are its two columns (41 R132). -/
theorem dcScaler_reference {q : Nat} (h1 : 1 ≤ q) (h2 : q ≤ 31) :
    dcScaler Config.reference q .luma = dcLumaRef q ∧ dcScaler Config.reference q .chroma = dcChromaRef q := by
  have hq : q - 1 < 31 := by omega
  have e : q - 1 + 1 = q := by omega
  constructor <;> simp [dcScaler, Config.reference, List.getD, hq, e]

/-- Settles O57: the fields of the reset state by computation, the DC scalers by their columns. -/
theorem resetStateHasSpecifiedValues : Obligations.ResetStateHasSpecifiedValues := by
  unfold Obligations.ResetStateHasSpecifiedValues
  have hdc : ∀ q, 1 ≤ q → q ≤ 31 → dcScaler State.reset.cfg q .luma = dcLumaRef q ∧
      dcScaler State.reset.cfg q .chroma = dcChromaRef q := fun q => dcScaler_reference
  refine ⟨rfl, rfl, rfl, fun q h1 h2 => ?_, fun q h1 h2 => ?_, fun q h1 h2 => ?_, fun q h1 h2 => ?_, rfl, rfl, rfl,
    rfl, rfl, rfl, rfl, rfl, rfl, rfl, resetOf_weights _, fun _ => rfl, fun _ _ => rfl, mmioRead_reg _ 0 rfl,
    mmioRead_reg _ 1 rfl, mmioRead_reg _ 2 rfl, mmioRead_reg _ 3 rfl, mmioRead_reg _ 4 rfl, mmioRead_reg _ 6 rfl⟩ <;>
    obtain ⟨hl, hc⟩ := hdc q (by omega) (by omega)
  all_goals
    rw [hl, hc, dcLumaRef, dcChromaRef]
    constructor <;> split_ifs <;> omega

/-! ### PRED -/

theorem dirCode_le (d : Dir) : dirCode d ≤ 2 := by cases d <;> decide

/-- The six codes written out. -/
theorem dirBits_eq (v : Vector Dir 6) : dirBits v = dirCode v[0] + 4 * dirCode v[1] + 16 * dirCode v[2] +
    64 * dirCode v[3] + 256 * dirCode v[4] + 1024 * dirCode v[5] := by
  simp [dirBits, List.finRange_succ]; ring

/-- Two bits for each of the six directions, and no more (10 R33). -/
theorem dirBits_digits (v : Vector Dir 6) :
    dirBits v < 2 ^ 12 ∧ ∀ j : MbBlk, dirBits v / 2 ^ (2 * j.val) % 4 = dirCode v[j] := by
  have := dirCode_le v[0]
  have := dirCode_le v[1]
  have := dirCode_le v[2]
  have := dirCode_le v[3]
  have := dirCode_le v[4]
  have := dirCode_le v[5]
  rw [dirBits_eq]
  refine ⟨by omega, fun j => ?_⟩
  fin_cases j <;> simp <;> omega

/-- PRED as a number: PDIR in the low half and ACDIR in the high half. -/
theorem predWord_toNat (f : MbFlags) : (predWord f).toNat = dirBits f.pdir + 2 ^ 16 * dirBits f.acdir := by
  have := (dirBits_digits f.pdir).1
  have := (dirBits_digits f.acdir).1
  rw [predWord, BitVec.toNat_ofNat, Nat.mod_eq_of_lt (by omega)]

/-- A bit field of a word is a number's digits. -/
theorem extractLsb'_eq_ofNat {w lo n d : Nat} {x : BitVec w} (h : x.toNat / 2 ^ lo % 2 ^ n = d) :
    x.extractLsb' lo n = BitVec.ofNat n d := by
  apply BitVec.eq_of_toNat_eq
  rw [BitVec.extractLsb'_toNat, Nat.shiftRight_eq_div_pow, h, BitVec.toNat_ofNat, ← h, Nat.mod_mod]

/-- Field j of PDIR and of ACDIR, and the bits between and above them (10 R33). -/
theorem predWord_fields (f : MbFlags) :
    (∀ j : MbBlk, (predWord f).extractLsb' (2 * j.val) 2 = BitVec.ofNat 2 (dirCode f.pdir[j]) ∧
      (predWord f).extractLsb' (2 * j.val + 16) 2 = BitVec.ofNat 2 (dirCode f.acdir[j])) ∧
    (predWord f).extractLsb' 12 4 = 0 ∧ (predWord f).extractLsb' 28 4 = 0 := by
  obtain ⟨hp, hpj⟩ := dirBits_digits f.pdir
  obtain ⟨ha, haj⟩ := dirBits_digits f.acdir
  have hw := predWord_toNat f
  have hmid : (predWord f).toNat / 2 ^ 12 = 2 ^ 4 * dirBits f.acdir := by omega
  have htop : (predWord f).toNat / 2 ^ 28 = 0 := by omega
  have hhigh : (predWord f).toNat / 2 ^ 16 = dirBits f.acdir := by omega
  refine ⟨fun j => ⟨extractLsb'_eq_ofNat ?_, extractLsb'_eq_ofNat ?_⟩, extractLsb'_eq_ofNat (d := 0) ?_,
    extractLsb'_eq_ofNat (d := 0) ?_⟩
  · rw [← hpj j, hw]
    fin_cases j <;> simp <;> omega
  · rw [← haj j, Nat.add_comm (2 * j.val), Nat.pow_add, ← Nat.div_div_eq_div_mul, hhigh]; rfl
  · rw [hmid, Nat.mul_mod_right]
  · rw [htop, Nat.zero_mod]

/-! ### Read-only registers -/

/-- The registers a write acts on (10 R25, R27, R28, R37, R39, R40). -/
def Reg.writable (r : Reg) : Bool := r ∈ [.ctrl, .irqEn, .irqPend, .arg, .cmd, .q, .mbdim]

theorem regWrite_of_not_writable (s : State) (v : Word) {r : Reg} (h : r.writable = false) : regWrite s v r = s := by
  cases r
  case ctrl | irqEn | irqPend | arg | cmd | q | mbdim => exact absurd h (by decide)
  all_goals rfl

/-- The offsets of the read-only registers (10 R22 to R24, R26, R29, R32 to R36, R38). -/
def readOnlyOffsets : List Nat :=
  [0x000, 0x004, 0x008, 0x00C, 0x010, 0x018, 0x024, 0x028, 0x02C, 0x040, 0x044, 0x048, 0x04C, 0x050, 0x054, 0x058,
   0x05C, 0x060, 0x064, 0x068, 0x06C]

theorem readOnlyOffsets_not_writable : ∀ off ∈ readOnlyOffsets,
    4 * (off / 4) = off ∧ ∃ r ∈ regMap, regMap[off / 4]? = some r ∧ r.writable = false := by decide

theorem mmioWrite_readOnly (s : State) (v : Word) {off : Nat} (h : off ∈ readOnlyOffsets) : mmioWrite s off v = s := by
  obtain ⟨hoff, r, -, hr, hro⟩ := readOnlyOffsets_not_writable off h
  rw [← hoff, mmioWrite_reg s v _ hr, regWrite_of_not_writable s v hro]

/-! ### What the registers read -/

/-- A register that holds a number below 2^32 reads it. -/
theorem mmioRead_reg_toNat (s : State) (n : Nat) {r : Reg} {k : Nat} (h : regMap[n]? = some r)
    (hr : regRead s r = BitVec.ofNat 32 k) (hk : k < 2 ^ 32) : (mmioRead s (4 * n)).toNat = k := by
  rw [mmioRead_reg s n h, hr, BitVec.toNat_ofNat, Nat.mod_eq_of_lt hk]

/-- A register that holds a narrower field reads it zero-extended. -/
theorem mmioRead_reg_setWidth (s : State) (n : Nat) {r : Reg} {w : Nat} {x : BitVec w} (h : regMap[n]? = some r)
    (hr : regRead s r = x.setWidth 32) (hw : w ≤ 32) : (mmioRead s (4 * n)).toNat = x.toNat := by
  rw [mmioRead_reg s n h, hr, BitVec.toNat_setWidth_of_le hw]

/-- FAULT_CODE reads the code of the recorded fault, 0 for none (60 R212). -/
theorem mmioRead_faultCode {s : State} {c : Option FaultCode} (h : s.flt.code = c) :
    mmioRead s 0x024 = (c.map faultByte).elim 0 (BitVec.setWidth 32) := by
  have hread : mmioRead s 0x024 = regRead s .faultCode := mmioRead_reg s 9 rfl
  rw [hread, regRead, h]
  cases c <;> rfl

/-- The cursors of a stream that meets its invariant fit their registers (10 R36). -/
theorem mmioRead_cursors {s : State} (hs : StreamOk s.cfg.bsCap s.strm) (hcap : s.cfg.bsCap ≤ 4194304) :
    (mmioRead s 0x05C).toNat = 8 * s.strm.bspos + s.strm.accn ∧ (mmioRead s 0x060).toNat = s.strm.bspos ∧
    (mmioRead s 0x064).toNat = s.strm.accn := by
  obtain ⟨-, -, hlen, -⟩ := hs
  rw [streamLen] at hlen
  exact ⟨mmioRead_reg_toNat s 23 rfl rfl (by omega), mmioRead_reg_toNat s 24 rfl rfl (by omega),
    mmioRead_reg_toNat s 25 rfl rfl (by omega)⟩

/-- The two halves of the accumulator (10 R36). -/
theorem mmioRead_acc (s : State) : mmioRead s 0x06C ++ mmioRead s 0x068 = s.strm.acc := by
  have hlo : mmioRead s 0x068 = s.strm.acc.extractLsb' 0 32 := mmioRead_reg s 26 rfl
  have hhi : mmioRead s 0x06C = s.strm.acc.extractLsb' 32 32 := mmioRead_reg s 27 rfl
  rw [hlo, hhi, BitVec.extractLsb'_append_extractLsb'_eq_extractLsb' (by decide)]
  exact BitVec.extractLsb'_eq_self

/-- Settles O60: register by register. -/
theorem registersReadTheStateAndIgnoreWrites : Obligations.RegistersReadTheStateAndIgnoreWrites := by
  unfold Obligations.RegistersReadTheStateAndIgnoreWrites
  intro s v
  have hpred : mmioRead s 0x048 = predWord s.flags := mmioRead_reg s 18 rfl
  obtain ⟨hdir, hmid, htop⟩ := predWord_fields s.flags
  have hq := clampQ_toNat v.toNat
  refine ⟨mmioRead_reg s 0 rfl, mmioRead_reg s 1 rfl, fun h => mmioRead_reg_toNat s 2 rfl rfl (by omega),
    fun h => mmioRead_reg_toNat s 3 rfl rfl (by omega), fun h => mmioRead_reg_toNat s 4 rfl rfl (by omega),
    ⟨mmioRead_faultCode, mmioRead_faultCode, mmioRead_faultCode, mmioRead_faultCode, mmioRead_faultCode,
      mmioRead_faultCode, mmioRead_faultCode⟩,
    mmioRead_reg s 10 rfl, mmioRead_reg s 11 rfl, mmioRead_reg_setWidth s 14 rfl rfl (by decide),
    ⟨clampQ v.toNat, mmioWrite_reg s v 14 rfl, by omega⟩, mmioRead_reg s 16 rfl,
    mmioRead_reg_setWidth s 17 rfl rfl (by decide), fun j => ?_, by rw [hpred, hmid], by rw [hpred, htop],
    mmioRead_reg s 19 rfl, mmioRead_reg s 20 rfl, mmioRead_reg s 21 rfl, mmioRead_reg s 22 rfl, mmioRead_cursors,
    mmioRead_acc s, fun _ => mmioWrite_readOnly s v⟩
  obtain ⟨hp, ha⟩ := hdir j
  rw [hpred, hp, ha]
  exact ⟨by cases s.flags.pdir[j] <;> rfl, by cases s.flags.acdir[j] <;> rfl⟩

end Sys2Proof.Machine

/-! ## The host's steps and the memory windows (20_memory.md R60 to R73)

Whose step it is and which accesses are done; then the address map window by window, each as a lemma about the
read and one about the write, and what a write leaves of the sparse memories behind them. -/

namespace Sys2Proof.Machine

/-! ### The host's step -/

/-- The engine cannot go: the queue is empty or it is halted (44 R203). -/
theorem engineReady_eq_false_iff (s : State) : engineReady s = false ↔ s.cq = [] ∨ s.flt.halted = true := by
  rw [engineReady, Bool.and_eq_false_iff, Bool.not_eq_false', Bool.not_eq_false', List.isEmpty_iff]
  exact or_comm

theorem hostStep_nil {s : State} (h : s.host.agenda = []) : hostStep s = .next s := by
  rw [hostStep, h]

theorem hostStep_cons {s : State} {a : HostAction} {rest : List HostAction} (h : s.host.agenda = a :: rest) :
    hostStep s = hostAct (s.setHost { s.host with agenda := rest }) a := by
  rw [hostStep, h]

/-- While the engine cannot go, every step is the host's; with nothing on its agenda that step is idle. -/
theorem step_eq_hostStep {s : State} (h : engineReady s = false) : step s = hostStep s := by
  rw [step, stepOnce, h]
  cases hh : hostReady s with
  | true => rfl
  | false =>
    rw [hostReady, Bool.not_eq_false', List.isEmpty_iff] at hh
    exact (hostStep_nil hh).symm

/-- Where both agents can go and the schedule names the host, the step is the host's (20 R71). -/
theorem step_eq_hostStep_popSched {s : State} (he : engineReady s = true) (hh : hostReady s = true)
    (hs : schedHead s = .host) : step s = hostStep s.popSched := by
  rw [step, stepOnce, he, hh]
  dsimp only
  rw [hs]

/-- Settles O8: with the engine unable to go the step is the host's, idle on an empty agenda; with both able to
go the schedule decides. -/
theorem stepTakesHostActionOrIsIdle : Obligations.StepTakesHostActionOrIsIdle := by
  unfold Obligations.StepTakesHostActionOrIsIdle
  refine ⟨fun s a rest ha => ⟨fun hno => ?_, fun hcq hrun hsched => ?_⟩, fun s ha hno => ?_⟩
  · rw [step_eq_hostStep ((engineReady_eq_false_iff s).2 hno), hostStep_cons ha]; rfl
  · have he : engineReady s = true := by
      rw [← Bool.not_eq_false, engineReady_eq_false_iff]
      simp [hcq, hrun]
    have hh : hostReady s = true := by rw [hostReady, ha]; rfl
    have hs : schedHead s = .host := by rw [schedHead, List.headD_eq_head?_getD, hsched]; rfl
    rw [step_eq_hostStep_popSched he hh hs, hostStep_cons (s := s.popSched) ha]; rfl
  · rw [step_eq_hostStep ((engineReady_eq_false_iff s).2 hno), hostStep_nil ha]

/-- The accesses the block accepts (20 R62). -/
theorem accessOk_iff (off : BitVec 24) (size : AccessSize) :
    accessOk off size = true ↔ size = .b4 ∧ off.toNat % 4 = 0 := by
  rw [accessOk, Bool.and_eq_true, decide_eq_true_iff, decide_eq_true_iff]

/-- Settles O47: the two branches of an access. -/
theorem hostAccessesReadWithoutEffectOrAreRefused : Obligations.HostAccessesReadWithoutEffectOrAreRefused := by
  unfold Obligations.HostAccessesReadWithoutEffectOrAreRefused
  intro s off size v
  refine ⟨fun hsize hoff => ?_, fun hbad => ?_⟩
  · have hok : accessOk off size = true := (accessOk_iff off size).2 ⟨hsize, hoff⟩
    exact ⟨if_pos hok, if_pos hok⟩
  · have hno : ¬accessOk off size = true := by
      rwa [accessOk_iff, not_and_or]
    exact ⟨if_neg hno, if_neg hno⟩

/-! ### Unmapped offsets -/

theorem mmioRead_unmapped {s : State} {off : Nat} (h : locate s.cfg off = .unmapped) : mmioRead s off = 0 := by
  rw [mmioRead, h]

theorem mmioWrite_unmapped {s : State} {off : Nat} (h : locate s.cfg off = .unmapped) (v : Word) :
    mmioWrite s off v = s := by
  rw [mmioWrite, h]

/-- Above the last register (20 R61). -/
theorem locate_above_registers (c : Config) {off : Nat} (h1 : 0x70 ≤ off) (h2 : off < 0x1000) :
    locate c off = .unmapped := by
  have hnone : regMap[off / 4]? = none := List.getElem?_eq_none (by rw [show regMap.length = 28 from rfl]; omega)
  rw [locate, if_pos h2, hnone]

/-- Between the weight tables and the history (20 R61). -/
theorem locate_above_weights (c : Config) {off : Nat} (h1 : 0x2200 ≤ off) (h2 : off < 0x400000) :
    locate c off = .unmapped := by
  unfold locate
  repeat rw [if_neg (by omega)]
  rw [if_pos h2]

/-- History entries at or beyond MAX_MB (20 R69). -/
theorem locate_above_history {c : Config} {off : Nat} (h1 : 0x400000 + 0x200 * c.maxMb ≤ off)
    (h2 : off < 0x800000) : locate c off = .unmapped := by
  unfold locate
  repeat rw [if_neg (by omega)]
  rw [if_pos h2, if_neg (by omega)]

/-- Vector entries at or beyond MAX_MB, and the space above the largest vector memory (20 R61, R69). -/
theorem locate_above_vectors {c : Config} {off : Nat} (h0 : 0x800000 ≤ off)
    (h1 : 0x800000 + 16 * c.maxMb ≤ off ∨ 0x820000 ≤ off) (h2 : off < 0xC00000) : locate c off = .unmapped := by
  unfold locate
  repeat rw [if_neg (by omega)]
  by_cases hv : off < 0x820000
  · rw [if_pos hv, if_neg (by omega)]
  · rw [if_neg hv, if_pos h2]

/-- Bitstream bytes at or beyond BS_CAP (20 R69). -/
theorem locate_above_bitstream {c : Config} {off : Nat} (h : 0xC00000 + c.bsCap ≤ off) :
    locate c off = .unmapped := by
  unfold locate
  repeat rw [if_neg (by omega)]

/-- Settles O55: range by range. -/
theorem unmappedOffsetsAreInert : Obligations.UnmappedOffsetsAreInert := by
  unfold Obligations.UnmappedOffsetsAreInert
  intro s off v _ hrange
  have hl : locate s.cfg off = .unmapped := by
    obtain ⟨h1, h2⟩ | ⟨h1, h2⟩ | ⟨h1, h2⟩ | ⟨h1, h0, h2⟩ | ⟨h1, h2⟩ | h := hrange
    · exact locate_above_registers _ h1 h2
    · exact locate_above_weights _ h1 h2
    · exact locate_above_history h1 h2
    · exact locate_above_vectors h0 (.inl h1) h2
    · exact locate_above_vectors (by omega) (.inr h1) h2
    · exact locate_above_bitstream h
  exact ⟨mmioRead_unmapped hl, mmioWrite_unmapped hl v⟩

/-! ### The block, weight, vector and bitstream windows -/

theorem mvAt_writeMv_same {s : State} (h : VectorsOk s) (m : Nat) (k : SubIx) (v : MV) :
    mvAt (s.writeMv m k v) m k = v := Sparse.read_write_same h.1 _ v

/-- Two vectors of the memory never share a key. -/
theorem mvAt_writeMv_ne (s : State) {m m' : Nat} {k k' : SubIx} (hne : (m', k') ≠ (m, k)) (v : MV) :
    mvAt (s.writeMv m k v) m' k' = mvAt s m' k' := by
  refine Sparse.read_write_ne (fun hkey => hne ?_) v
  have hm : m' = m := by omega
  have hk : k' = k := Fin.ext (by omega)
  rw [hm, hk]

/-- The BLK window (20 R64). -/
theorem blkWindow (s : State) (v : Word) (b : BlkIx) (i : Fin 64) :
    mmioWrite s (0x001000 + 0x100 * b.val + 4 * i.val) v = s.setBlk b (s.blk[b].set i (v.setWidth 16)) ∧
    mmioRead s (0x001000 + 0x100 * b.val + 4 * i.val) = (s.blk[b][i]).signExtend 32 := by
  rw [mmioWrite, mmioRead, locate_blk]
  exact ⟨rfl, rfl⟩

/-- The intra weight window (20 R65). -/
theorem wiWindow (s : State) (v : Word) (i : Fin 64) :
    mmioWrite s (0x002000 + 4 * i.val) v = s.setWi (s.wi.set i (weightOf v)) ∧
    mmioRead s (0x002000 + 4 * i.val) = (s.wi[i]).setWidth 32 := by
  rw [mmioWrite, mmioRead, locate_wi]
  exact ⟨rfl, rfl⟩

/-- The inter weight window (20 R65). -/
theorem wpWindow (s : State) (v : Word) (i : Fin 64) :
    mmioWrite s (0x002100 + 4 * i.val) v = s.setWp (s.wp.set i (weightOf v)) ∧
    mmioRead s (0x002100 + 4 * i.val) = (s.wp[i]).setWidth 32 := by
  rw [mmioWrite, mmioRead, locate_wp]
  exact ⟨rfl, rfl⟩

/-- The vector window (20 R67). -/
theorem mvWindow (s : State) (v : Word) {m : Nat} (k : SubIx) (hm : m < s.cfg.maxMb) (hmax : s.cfg.maxMb ≤ 8192) :
    mmioWrite s (0x800000 + 16 * m + 4 * k.val) v = s.writeMv m k ⟨xField v, yField v⟩ ∧
    mmioRead s (0x800000 + 16 * m + 4 * k.val) = (mvAt s m k).y ++ (mvAt s m k).x := by
  rw [mmioWrite, mmioRead, locate_mv _ m k hm hmax]
  exact ⟨rfl, rfl⟩

/-- The bitstream window (20 R68). -/
theorem bsWindow (s : State) (v : Word) {k : Nat} (hk : k < s.cfg.bsCap) :
    mmioWrite s (0xC00000 + k) v = s.setStrm { s.strm with bs := bsWriteWord s.strm.bs k v } ∧
    mmioRead s (0xC00000 + k) = bsAt s (k + 3) ++ bsAt s (k + 2) ++ bsAt s (k + 1) ++ bsAt s k := by
  rw [mmioWrite, mmioRead, locate_bs _ k hk]
  exact ⟨rfl, rfl⟩

/-- Settles O53: window by window; the vector and bitstream contents by the laws of the sparse memories. -/
theorem windowWritesReadBack : Obligations.WindowWritesReadBack := by
  unfold Obligations.WindowWritesReadBack
  intro s v
  refine ⟨blkWindow s v, fun i => ?_, fun m k hm hmax hv => ?_, fun k hk _ _ hwf => ?_⟩
  · obtain ⟨hwi, hri⟩ := wiWindow s v i
    obtain ⟨hwp, hrp⟩ := wpWindow s v i
    exact ⟨weightOf v, weightOf_toNat v, hwi, hri, hwp, hrp⟩
  · obtain ⟨hw, hr⟩ := mvWindow s v k hm hmax
    rw [hw]
    exact ⟨rfl, mvAt_writeMv_same hv m k _, fun _ _ hne => mvAt_writeMv_ne s hne _, hr⟩
  · obtain ⟨hw, hr⟩ := bsWindow s v hk
    obtain ⟨-, hbytes, hothers, -⟩ := bsWriteWord_spec hwf k v
    rw [hw]
    exact ⟨rfl, hbytes, hothers, hr⟩

/-! ### The history window -/

theorem histAt_writeHist_same {s : State} (h : HistOk s) (m : Nat) (e : HistEntry) :
    histAt (s.writeHist m e) m = e := Sparse.read_write_same h.1 m e

theorem histAt_writeHist_ne (s : State) {m m' : Nat} (hne : m' ≠ m) (e : HistEntry) :
    histAt (s.writeHist m e) m' = histAt s m' := Sparse.read_write_ne hne e

/-- Only the first 112 words of an entry hold a field (20 R66). -/
theorem histWord_lt {w : Nat} {x : HistWord} (h : histWord w = some x) : w < 112 := by
  by_contra hw
  rw [histWord, if_neg (by omega), if_neg (by omega)] at h
  cases h

section
variable {s : State} {m off : Nat} (hm : m < s.cfg.maxMb) (hmax : s.cfg.maxMb ≤ 8192)
include hm hmax

/-- A word that holds a field locates it (20 R66). -/
theorem locate_histField {w : Nat} {x : HistWord} (hoff : off = 0x400000 + 0x200 * m + 4 * w)
    (hx : histWord w = some x) : locate s.cfg off = .hist m x := by
  have := histWord_lt hx
  rw [hoff, locate_hist _ m w hm hmax (by omega), hx]; rfl

theorem mmioWrite_histField {w : Nat} {x : HistWord} (hoff : off = 0x400000 + 0x200 * m + 4 * w)
    (hx : histWord w = some x) (v : Word) : mmioWrite s off v = s.writeHist m (histWrite (histAt s m) v x) := by
  rw [mmioWrite, locate_histField hm hmax hoff hx]

/-- A word that holds a field reads it, and a write changes it in its entry. -/
theorem histField_readBack (hh : HistOk s) {w : Nat} {x : HistWord} (hoff : off = 0x400000 + 0x200 * m + 4 * w)
    (hx : histWord w = some x) (v : Word) :
    mmioRead s off = histRead (histAt s m) x ∧
    histAt (mmioWrite s off v) m = histWrite (histAt s m) v x := by
  rw [mmioWrite_histField hm hmax hoff hx, mmioRead, locate_histField hm hmax hoff hx]
  exact ⟨rfl, histAt_writeHist_same hh m _⟩

/-- A reserved word reads 0 and ignores a write (20 R66). -/
theorem histReserved_inert {w : Nat} (hw : w < 128) (hnone : histWord w = none) (v : Word) :
    mmioRead s (0x400000 + 0x200 * m + 4 * w) = 0 ∧ mmioWrite s (0x400000 + 0x200 * m + 4 * w) v = s := by
  have hl : locate s.cfg (0x400000 + 0x200 * m + 4 * w) = .unmapped := by
    rw [locate_hist _ m w hm hmax hw, hnone]; rfl
  exact ⟨mmioRead_unmapped hl, mmioWrite_unmapped hl v⟩

/-- A write to any word of an entry changes the history alone, and no other entry of it. -/
theorem mmioWrite_hist_frame {w : Nat} (hw : w < 128) (v : Word) :
    let t := mmioWrite s (0x400000 + 0x200 * m + 4 * w) v
    t = { s with hist := t.hist } ∧ ∀ m', m' ≠ m → histAt t m' = histAt s m' := by
  cases hx : histWord w with
  | some x =>
    rw [mmioWrite_histField hm hmax rfl hx]
    exact ⟨rfl, fun _ hne => histAt_writeHist_ne s hne _⟩
  | none =>
    rw [(histReserved_inert hm hmax hw hx v).2]
    exact ⟨rfl, fun _ _ => rfl⟩

end

/-- Settles O54: each word by the field it holds, the reserved ones by holding none. -/
theorem historyWindowReadsBack : Obligations.HistoryWindowReadsBack := by
  unfold Obligations.HistoryWindowReadsBack
  intro s m v hm hmax hh
  dsimp only
  have hfield (off : Nat) {w : Nat} {x : HistWord} (hx : histWord w = some x)
      (hoff : off = 0x400000 + 0x200 * m + 4 * w) := histField_readBack hm hmax hh hoff hx v
  refine ⟨?_, fun j => ?_, fun w hw => ?_⟩
  · obtain ⟨hread, hwrite⟩ := hfield (0x400000 + 0x200 * m) (w := 0) rfl rfl
    exact ⟨hread, hqOf v, rfl, hwrite⟩
  · obtain ⟨hread, hwrite⟩ := hfield (0x400000 + 0x200 * m + 64 * (j.val + 1)) (histWord_dc j) (by omega)
    refine ⟨hread, hwrite, fun n => ?_⟩
    obtain ⟨hrowRead, hrowWrite⟩ :=
      hfield (0x400000 + 0x200 * m + 64 * (j.val + 1) + 4 * (n.val + 1)) (histWord_row j n) (by omega)
    obtain ⟨hcolRead, hcolWrite⟩ :=
      hfield (0x400000 + 0x200 * m + 64 * (j.val + 1) + 4 * (n.val + 8)) (histWord_col j n) (by omega)
    exact ⟨hrowRead, hrowWrite, hcolRead, hcolWrite⟩
  · obtain ⟨hframe, hothers⟩ := mmioWrite_hist_frame hm hmax hw v
    exact ⟨hframe, hothers, fun hres => histReserved_inert hm hmax hw (histWord_reserved ⟨w, hw⟩ hres) v⟩

end Sys2Proof.Machine

/-! ## Decoding and encoding (30_encoding.md R90 to R103)

The opcode table as a map both ways, what `decode` answers, and the two round trips: the fields a format reads
are the ones the encoder writes, and a word with every reserved bit 0 holds nothing else. -/

namespace Sys2Proof

open Laws Sys2Proof.Machine

/-! ### The opcode table -/

theorem Mnemonic.mem_all (m : Mnemonic) : m ∈ Mnemonic.all := by cases m <;> decide

/-- No two rows share an opcode (30 R100). -/
theorem Mnemonic.opcode_injective : Function.Injective Mnemonic.opcode := by
  have hrows : ∀ m ∈ Mnemonic.all, ∀ m' ∈ Mnemonic.all, m.opcode = m'.opcode → m = m' := by decide
  exact fun m m' => hrows m m.mem_all m' m'.mem_all

theorem Mnemonic.ofOpcode_eq_some {op : BitVec 6} {m : Mnemonic} :
    Mnemonic.ofOpcode op = some m ↔ m.opcode = op := by
  constructor
  · intro h
    simpa using List.find?_some h
  · rintro rfl
    cases h : Mnemonic.ofOpcode m.opcode with
    | none => simpa using List.find?_eq_none.1 h m m.mem_all
    | some m' => exact congrArg some (opcode_injective (by simpa using List.find?_some h))

theorem Mnemonic.ofOpcode_eq_none {op : BitVec 6} :
    Mnemonic.ofOpcode op = none ↔ ∀ m : Mnemonic, m.opcode ≠ op := by
  rw [Option.eq_none_iff_forall_ne_some]
  exact forall_congr' fun m => not_congr ofOpcode_eq_some

/-! ### What `decode` answers -/

/-- With an assigned opcode the reserved bits alone decide (30 R99). -/
theorem decode_of_opcode {cmd : Word} {m : Mnemonic} (h : m.opcode = opField cmd) (arg : Word) :
    decode cmd arg =
      if cmd &&& m.fmt.reserved = 0 then .ok (m.build cmd arg) else .error .reservedField := by
  rw [decode, Mnemonic.ofOpcode_eq_some.2 h]

theorem decode_eq_illegalOpcode {cmd arg : Word} :
    decode cmd arg = .error .illegalOpcode ↔ ∀ m : Mnemonic, m.opcode ≠ opField cmd := by
  constructor
  · intro h m hm
    rw [decode_of_opcode hm] at h
    split at h <;> cases h
  · intro h
    rw [decode, Mnemonic.ofOpcode_eq_none.2 h]

/-- The words that decode are those with an assigned opcode and every reserved bit 0. -/
theorem decode_eq_ok {cmd arg : Word} {i : Instr} :
    decode cmd arg = .ok i ↔
      ∃ m : Mnemonic, m.opcode = opField cmd ∧ cmd &&& m.fmt.reserved = 0 ∧ m.build cmd arg = i := by
  constructor
  · intro h
    have hop : ∃ m : Mnemonic, m.opcode = opField cmd := by
      by_contra hnone
      rw [decode_eq_illegalOpcode.2 (not_exists.1 hnone)] at h
      cases h
    obtain ⟨m, hm⟩ := hop
    rw [decode_of_opcode hm] at h
    split at h
    · exact ⟨m, hm, ‹_›, Except.ok.inj h⟩
    · cases h
  · rintro ⟨m, hm, hres, rfl⟩
    rw [decode_of_opcode hm, if_pos hres]

@[simp] theorem mnemonic_build (cmd arg : Word) (m : Mnemonic) : (m.build cmd arg).mnemonic = m := by
  cases m <;> rfl

@[simp] theorem irq_build (cmd arg : Word) (m : Mnemonic) : (m.build cmd arg).irq = irqField cmd := by
  cases m <;> rfl

/-! ### The fields of a command's own words -/

/-- The command word of every command holds its opcode, bit I and operand bits, its reserved bits 0. -/
theorem cmdFields : ∀ i : Instr, CmdFields.Statement i
  | .nop .. => CmdFields.nop ..
  | .framebegin .. => CmdFields.framebegin ..
  | .mbbegin .. => CmdFields.mbbegin ..
  | .bsreset .. => CmdFields.bsreset ..
  | .putbits .. => CmdFields.putbits ..
  | .putzero .. => CmdFields.putzero ..
  | .padbyte .. => CmdFields.padbyte ..
  | .finish .. => CmdFields.finish ..
  | .qset .. => CmdFields.qset ..
  | .qdelta .. => CmdFields.qdelta ..
  | .qnext .. => CmdFields.qnext ..
  | .qintra .. => CmdFields.qintra ..
  | .qinter .. => CmdFields.qinter ..
  | .dqintra .. => CmdFields.dqintra ..
  | .dqinter .. => CmdFields.dqinter ..
  | .cbpcalc .. => CmdFields.cbpcalc ..
  | .fdct .. => CmdFields.fdct ..
  | .idct .. => CmdFields.idct ..
  | .copy .. => CmdFields.copy ..
  | .acdcpred .. => CmdFields.acdcpred ..
  | .mvset .. => CmdFields.mvset ..
  | .mvset4 .. => CmdFields.mvset4 ..
  | .mvpred .. => CmdFields.mvpred ..

section
variable (i : Instr)

theorem opField_cmdWord : opField i.cmdWord = i.mnemonic.opcode := (cmdFields i).1

theorem irqField_cmdWord : irqField i.cmdWord = i.irq := (cmdFields i).2.1

theorem cmdWord_reserved : i.cmdWord &&& i.mnemonic.fmt.reserved = 0 := (cmdFields i).2.2.1

/-- Below bit 25 the command word is the operand bits. -/
theorem extract_cmdWord (lo n : Nat) (hle : lo + n ≤ 25) :
    i.cmdWord.extractLsb' lo n = i.operandBits.extractLsb' lo n := (cmdFields i).2.2.2 lo n hle

theorem getLsbD_cmdWord {k : Nat} (hk : k < 25) : i.cmdWord.getLsbD k = i.operandBits.getLsbD k := by
  simpa using congrArg (·.getLsbD 0) (extract_cmdWord i k 1 hk)

theorem srcField_cmdWord : srcField i.cmdWord = (i.operandBits.extractLsb' 0 4).toFin := by
  rw [srcField, extract_cmdWord i 0 4 (by decide)]

theorem dstField_cmdWord : dstField i.cmdWord = (i.operandBits.extractLsb' 4 4).toFin := by
  rw [dstField, extract_cmdWord i 4 4 (by decide)]

theorem roleField_cmdWord {r : Role} (h : i.operandBits.getLsbD 8 = decide (r = .chroma)) :
    roleField i.cmdWord = r := by
  rw [roleField, getLsbD_cmdWord i (by decide), h]
  cases r <;> rfl

theorem vField_cmdWord : vField i.cmdWord = i.operandBits.extractLsb' 0 5 :=
  extract_cmdWord i 0 5 (by decide)

theorem dqField_cmdWord : dqField i.cmdWord = i.operandBits.extractLsb' 0 3 :=
  extract_cmdWord i 0 3 (by decide)

theorem modeField_cmdWord {m : CbpMode} (h : i.operandBits.getLsbD 0 = decide (m = .intra)) :
    modeField i.cmdWord = m := by
  rw [modeField, getLsbD_cmdWord i (by decide), h]
  cases m <;> rfl

theorem kField_cmdWord : kField i.cmdWord = (i.operandBits.extractLsb' 0 2).toFin := by
  rw [kField, extract_cmdWord i 0 2 (by decide)]

theorem nbField_cmdWord : nbField i.cmdWord = i.operandBits.extractLsb' 0 6 :=
  extract_cmdWord i 0 6 (by decide)

theorem nzField_cmdWord : nzField i.cmdWord = i.operandBits.extractLsb' 0 8 :=
  extract_cmdWord i 0 8 (by decide)

end

/-! ### The operand bits, written and read back -/

/-- An operand in the low bits reads back (30 R94, R95, R98). -/
theorem extract_setWidth {n : Nat} (hn : n ≤ 25) (x : BitVec n) : (x.setWidth 25).extractLsb' 0 n = x := by
  rw [BitVec.extractLsb'_setWidth_of_le (by omega), BitVec.extractLsb'_eq_self]

/-- The operand bits of `BB` with the role bit, as a number (30 R93). -/
theorem roleBit_add_bbBits_toNat (r : Role) (d src : BlkIx) :
    (roleBit r + bbBits d src).toNat = (if r = .chroma then 256 else 0) + 16 * d.val + src.val := by
  rw [BitVec.toNat_add, bbBits, BitVec.toNat_ofNat]
  cases r <;> simp [roleBit] <;> omega

theorem extract_src (r : Role) (d src : BlkIx) :
    ((roleBit r + bbBits d src).extractLsb' 0 4).toFin = src := by
  apply Fin.ext
  rw [BitVec.val_toFin, BitVec.extractLsb'_toNat, roleBit_add_bbBits_toNat]
  split <;> omega

theorem extract_dst (r : Role) (d src : BlkIx) :
    ((roleBit r + bbBits d src).extractLsb' 4 4).toFin = d := by
  apply Fin.ext
  rw [BitVec.val_toFin, BitVec.extractLsb'_toNat, roleBit_add_bbBits_toNat, Nat.shiftRight_eq_div_pow]
  split <;> omega

theorem getLsbD_role (r : Role) (d src : BlkIx) :
    (roleBit r + bbBits d src).getLsbD 8 = decide (r = .chroma) := by
  cases r <;> decide +revert

theorem getLsbD_mode (irq : Bool) (mode : CbpMode) (arg : Word) :
    (Instr.cbpcalc irq mode arg).operandBits.getLsbD 0 = decide (mode = .intra) := by
  cases mode <;> simp [Instr.operandBits]

/-- `BB` without the role bit writes what it writes with the role luma. -/
theorem bbBits_eq_luma (d src : BlkIx) : bbBits d src = roleBit .luma + bbBits d src :=
  (BitVec.zero_add _).symm

/-- A sub-block number reads back (30 R97). -/
theorem extract_subIx (k : SubIx) : ((BitVec.ofNat 25 k.val).extractLsb' 0 2).toFin = k := by
  decide +revert

theorem xField_append (x y : BitVec 16) : xField (y ++ x) = x := BitVec.extractLsb'_append_eq_right

theorem yField_append (x y : BitVec 16) : yField (y ++ x) = y := BitVec.extractLsb'_append_eq_left

theorem yField_append_xField (arg : Word) : yField arg ++ xField arg = arg :=
  (BitVec.extractLsb'_append_extractLsb'_eq_extractLsb' (len₂ := 16) rfl).trans BitVec.extractLsb'_eq_self

/-! ### Decoding what was encoded -/

/-- Reading a command's operands from its own two words gives the command. -/
theorem build_encode (i : Instr) : i.mnemonic.build i.cmdWord i.argWord = i := by
  cases i <;>
    simp only [Instr.mnemonic, Mnemonic.build, Instr.irq, Instr.operandBits, Instr.argWord,
      irqField_cmdWord, srcField_cmdWord, dstField_cmdWord, vField_cmdWord, dqField_cmdWord,
      kField_cmdWord, nbField_cmdWord, nzField_cmdWord, xField_append, yField_append]
  case putbits | putzero | qset | qdelta => rw [extract_setWidth (by decide)]
  case qintra | dqintra =>
    rw [extract_dst, extract_src]
    congr 1
    exact roleField_cmdWord _ (getLsbD_role ..)
  case qinter | dqinter | fdct | idct | copy => rw [bbBits_eq_luma, extract_dst, extract_src]
  case mvset | mvpred => rw [extract_subIx]
  case cbpcalc irq mode arg =>
    congr 1
    exact modeField_cmdWord _ (getLsbD_mode irq mode arg)

/-- Settles O1: the opcode names the row, the reserved bits are 0, and every field reads back. -/
theorem decodeOfEncodeIsIdentity : Obligations.DecodeOfEncodeIsIdentity := by
  unfold Obligations.DecodeOfEncodeIsIdentity
  exact fun i => decode_eq_ok.2
    ⟨i.mnemonic, (opField_cmdWord i).symm, cmdWord_reserved i, build_encode i⟩

/-! ### Encoding what was decoded -/

/-- How many low bits of the command word a format's operands fill (30 R92 to R98). -/
def Fmt.operandWidth : Fmt → Nat
  | .n => 0
  | .mb => 0
  | .bb => 8
  | .bbc => 9
  | .q5 => 5
  | .qd => 3
  | .m => 1
  | .k => 2
  | .p => 6
  | .z => 8

/-- The reserved bits are those from the operands up to bit 24 (30 R101). -/
theorem getLsbD_reserved (f : Fmt) :
    ∀ k < 32, f.reserved.getLsbD k = decide (f.operandWidth ≤ k ∧ k < 25) := by
  cases f <;> decide

/-- With the reserved bits 0, nothing but the operands stands below bit 25. -/
theorem mod_eq_of_reserved {cmd : Word} {f : Fmt} (h : cmd &&& f.reserved = 0) :
    cmd.toNat % 2 ^ 25 = cmd.toNat % 2 ^ f.operandWidth := by
  apply Nat.eq_of_testBit_eq
  intro k
  have hw : f.operandWidth ≤ 25 := by cases f <;> decide
  rw [Nat.testBit_mod_two_pow, Nat.testBit_mod_two_pow]
  by_cases hk : f.operandWidth ≤ k ∧ k < 25
  · have hbit : cmd.getLsbD k = false := by
      simpa [getLsbD_reserved f k (by omega), hk] using congrArg (·.getLsbD k) h
    rw [show cmd.toNat.testBit k = false from hbit]
    simp
  · have : decide (k < 25) = decide (k < f.operandWidth) := by
      rw [decide_eq_decide]; omega
    rw [this]

/-- An operand in the low bits, put back where it was read. -/
theorem setWidth_extract_toNat {n : Nat} (hn : n ≤ 25) (cmd : Word) :
    ((cmd.extractLsb' 0 n).setWidth 25).toNat = cmd.toNat % 2 ^ n := by
  rw [BitVec.toNat_setWidth_of_le hn, BitVec.extractLsb'_toNat, Nat.shiftRight_zero]

theorem srcField_val (cmd : Word) : (srcField cmd).val = cmd.toNat % 2 ^ 4 := by
  rw [srcField, BitVec.val_toFin, BitVec.extractLsb'_toNat, Nat.shiftRight_zero]

theorem dstField_val (cmd : Word) : (dstField cmd).val = cmd.toNat / 2 ^ 4 % 2 ^ 4 := by
  rw [dstField, BitVec.val_toFin, BitVec.extractLsb'_toNat, Nat.shiftRight_eq_div_pow]

theorem kField_val (cmd : Word) : (kField cmd).val = cmd.toNat % 2 ^ 2 := by
  rw [kField, BitVec.val_toFin, BitVec.extractLsb'_toNat, Nat.shiftRight_zero]

theorem roleBit_add_bbBits_fields (cmd : Word) :
    (roleBit (roleField cmd) + bbBits (dstField cmd) (srcField cmd)).toNat = cmd.toNat % 2 ^ 9 := by
  have hrole : (if roleField cmd = .chroma then 256 else 0) = 256 * (cmd.toNat / 2 ^ 8 % 2) := by
    rw [← Nat.toNat_testBit, roleField, BitVec.getLsbD]
    cases cmd.toNat.testBit 8 <;> rfl
  rw [roleBit_add_bbBits_toNat, hrole, dstField_val, srcField_val]
  omega

theorem bbBits_fields (cmd : Word) :
    (bbBits (dstField cmd) (srcField cmd)).toNat = cmd.toNat % 2 ^ 8 := by
  rw [bbBits_eq_luma, roleBit_add_bbBits_toNat, dstField_val, srcField_val, if_neg (by decide)]
  omega

theorem subIx_field (cmd : Word) : (BitVec.ofNat 25 (kField cmd).val).toNat = cmd.toNat % 2 ^ 2 := by
  rw [BitVec.toNat_ofNat, kField_val]
  omega

theorem modeBit_field (cmd arg : Word) :
    (Instr.cbpcalc (irqField cmd) (modeField cmd) arg).operandBits.toNat = cmd.toNat % 2 ^ 1 := by
  have hbit : cmd.toNat % 2 ^ 1 = (cmd.getLsbD 0).toNat := by
    rw [BitVec.getLsbD, Nat.toNat_testBit, Nat.pow_zero, Nat.div_one, Nat.pow_one]
  rw [hbit, modeField]
  cases cmd.getLsbD 0 <;> rfl

/-- The operands a row reads are the low bits of the command word. -/
theorem operandBits_build (cmd arg : Word) (m : Mnemonic) :
    (m.build cmd arg).operandBits.toNat = cmd.toNat % 2 ^ m.fmt.operandWidth := by
  cases m <;> simp only [Mnemonic.build, Instr.operandBits, Mnemonic.fmt, Fmt.operandWidth]
  case putbits | putzero | qset | qdelta => exact setWidth_extract_toNat (by decide) cmd
  case qintra | dqintra => exact roleBit_add_bbBits_fields cmd
  case qinter | dqinter | fdct | idct | copy => exact bbBits_fields cmd
  case mvset | mvpred => exact subIx_field cmd
  case cbpcalc => exact modeBit_field cmd arg
  all_goals exact (Nat.mod_one _).symm

theorem argWord_build (cmd arg : Word) (m : Mnemonic) : (m.build cmd arg).argWord = arg := by
  cases m
  case mbbegin | mvset | mvset4 => exact yField_append_xField arg
  all_goals rfl

/-- A row whose opcode the word holds and whose reserved bits it keeps 0 encodes back to the word. -/
theorem cmdWord_build {cmd : Word} {m : Mnemonic} (hop : m.opcode = opField cmd)
    (hres : cmd &&& m.fmt.reserved = 0) (arg : Word) : (m.build cmd arg).cmdWord = cmd := by
  apply BitVec.eq_of_toNat_eq
  have hirq : (irqField cmd).toNat = cmd.toNat / 2 ^ 25 % 2 := Nat.toNat_testBit ..
  rw [CmdFields.cmdWord_toNat, mnemonic_build, irq_build, operandBits_build, ← mod_eq_of_reserved hres,
    hop, hirq, opField, BitVec.extractLsb'_toNat, Nat.shiftRight_eq_div_pow]
  omega

/-- Settles O2: a word that decodes holds nothing but its opcode, bit I and the operands of its row. -/
theorem encodeOfDecodeIsIdentity : Obligations.EncodeOfDecodeIsIdentity := by
  unfold Obligations.EncodeOfDecodeIsIdentity
  intro cmd arg i h
  obtain ⟨m, hop, hres, rfl⟩ := decode_eq_ok.1 h
  exact ⟨cmdWord_build hop hres arg, argWord_build cmd arg m⟩

/-! ### Match and mask -/

/-- The mask of bits 31 to 26 keeps the opcode and clears the rest. -/
theorem and_opMask (cmd : Word) : cmd &&& 0xFC000000 = opField cmd ++ (0 : BitVec 26) := by
  have hmask : ∀ k < 32, (0xFC000000 : Word).getLsbD k = decide (26 ≤ k) := by decide
  apply BitVec.eq_of_getLsbD_eq
  intro k hk
  rw [BitVec.getLsbD_and, BitVec.getLsbD_append, hmask k hk, opField, BitVec.getLsbD_extractLsb']
  by_cases h : k < 26
  · simp [h]
  · have hsub : 26 + (k - 26) = k := by omega
    have hlt : k - 26 < 6 := by omega
    simp [h, hsub, hlt, Nat.le_of_not_lt h]

theorem matchBits_and_reserved (m : Mnemonic) : m.matchBits &&& m.fmt.reserved = 0 := by
  cases m <;> decide

theorem opField_matchBits (m : Mnemonic) : opField m.matchBits = m.opcode :=
  BitVec.extractLsb'_append_eq_left

theorem opField_and_maskBits (cmd : Word) (m : Mnemonic) : opField (cmd &&& m.maskBits) = opField cmd := by
  have hones : opField m.maskBits = BitVec.allOnes 6 := by cases m <;> decide
  rw [opField, BitVec.extractLsb'_and, ← opField, ← opField, hones, BitVec.and_allOnes]

theorem maskBits_and_reserved (m : Mnemonic) : m.maskBits &&& m.fmt.reserved = m.fmt.reserved := by
  cases m <;> decide

/-- A word matches a row when it holds the row's opcode and no reserved bit (30 R101). -/
theorem and_maskBits_eq_matchBits {cmd : Word} {m : Mnemonic} :
    cmd &&& m.maskBits = m.matchBits ↔ m.opcode = opField cmd ∧ cmd &&& m.fmt.reserved = 0 := by
  constructor
  · intro h
    constructor
    · rw [← opField_matchBits, ← h, opField_and_maskBits]
    · rw [← maskBits_and_reserved, ← BitVec.and_assoc, h, matchBits_and_reserved]
  · rintro ⟨hop, hres⟩
    rw [Mnemonic.maskBits, BitVec.and_or_distrib_left, hres, and_opMask, ← hop]
    exact BitVec.or_zero

/-- Settles O3: matching a row is holding its opcode and no reserved bit, which is to decode to the row. -/
theorem wordDecodesToRowExactlyWhenItMatches : Obligations.WordDecodesToRowExactlyWhenItMatches := by
  unfold Obligations.WordDecodesToRowExactlyWhenItMatches
  refine ⟨by decide, fun m => ⟨rfl, by cases m <;> decide⟩, fun cmd arg m => ?_⟩
  rw [and_maskBits_eq_matchBits]
  constructor
  · rintro ⟨hop, hres⟩
    exact ⟨_, decode_eq_ok.2 ⟨m, hop, hres, rfl⟩, mnemonic_build cmd arg m⟩
  · rintro ⟨i, hi, rfl⟩
    obtain ⟨m, hop, hres, rfl⟩ := decode_eq_ok.1 hi
    rw [mnemonic_build]
    exact ⟨hop, hres⟩

/-! ### The checks in order -/

/-- The operand-field check is the first of the two meanings it concerns (30 R99 step 3). -/
theorem effect_of_not_wf {i : Instr} (h : i.wf = false) (s : State) : effect i s = .error .badOperand := by
  cases i with
  | putbits irq nb v => exact if_pos (Nat.not_le.1 (of_decide_eq_false h))
  | qdelta irq dq arg => exact if_neg (of_decide_eq_false h)
  | _ => cases h

/-- Settles O5: `decode` makes the first two checks, and the meaning opens with the third. -/
theorem commandChecksComeInOrder : Obligations.CommandChecksComeInOrder := by
  unfold Obligations.CommandChecksComeInOrder
  intro cmd arg s
  refine ⟨fun hnone => ?_, fun m hop => ⟨fun hres => ?_, fun hres => ?_⟩⟩
  · rw [runCmd, decode_eq_illegalOpcode.2 hnone]; rfl
  · rw [runCmd, decode_of_opcode hop, if_neg hres]; rfl
  · have hdec : decode cmd arg = .ok (m.build cmd arg) := decode_eq_ok.2 ⟨m, hop, hres, rfl⟩
    refine ⟨_, hdec, mnemonic_build cmd arg m, by rw [runCmd, hdec], fun hwf => ?_⟩
    rw [exec_of_error (effect_of_not_wf hwf s), cmdWord_build hop hres, argWord_build]
    rfl

/-- Settles O4: the answer ILLEGAL_OPCODE depends on the opcode alone, and the table has 64 of them. -/
theorem unassignedOpcodesAreIllegal : Obligations.UnassignedOpcodesAreIllegal := by
  unfold Obligations.UnassignedOpcodesAreIllegal
  refine ⟨by decide, Mnemonic.mem_all, fun cmd arg => ?_⟩
  rw [decode_eq_illegalOpcode, ← Mnemonic.ofOpcode_eq_none]
  generalize opField cmd = op
  decide +revert

/-- Settles O6: each word is a closed term, decoded by evaluation. -/
theorem writtenWordsDecode : Obligations.WrittenWordsDecode := by
  unfold Obligations.WrittenWordsDecode
  decide

end Sys2Proof

/-! ## The bit packer (40_bitwriter.md R110 to R120)

One relation, `Appends`, says what every writing command makes of the stream: bits at its end, and no byte
touched but those it flushes. Each primitive meets it, it composes, and the commands' statements are read off. -/

namespace Sys2Proof.Machine

variable {cap : Nat} {st st' st'' : Stream} {l l' : List Bool}

/-! ### Bits appended to a stream -/

/-- `st'` is `st` with the bits `l` appended: only bytes flushed meanwhile differ, and the stream's invariant
holds of it (40 R110, R120). -/
structure Appends (cap : Nat) (st : Stream) (l : List Bool) (st' : Stream) : Prop where
  bits : streamBits st' = streamBits st ++ l
  bspos_le : st.bspos ≤ st'.bspos
  frame : ∀ k, k < st.bspos ∨ st'.bspos ≤ k → Memory.read st'.bs k = Memory.read st.bs k
  packOk : PackOk cap st'

theorem Appends.refl (h : PackOk cap st) : Appends cap st [] st where
  bits := (List.append_nil _).symm
  bspos_le := le_rfl
  frame := fun _ _ => rfl
  packOk := h

theorem Appends.trans (h : Appends cap st l st') (h' : Appends cap st' l' st'') :
    Appends cap st (l ++ l') st'' where
  bits := by rw [h'.bits, h.bits, List.append_assoc]
  bspos_le := h.bspos_le.trans h'.bspos_le
  frame := fun k hk => by
    have hle := h.bspos_le
    have hle' := h'.bspos_le
    rw [h'.frame k (by omega), h.frame k (by omega)]
  packOk := h'.packOk

theorem Appends.streamLen (h : Appends cap st l st') : streamLen st' = streamLen st + l.length := by
  rw [← streamBits_length, ← streamBits_length, h.bits, List.length_append]

@[simp] theorem append_bsfin (v : Word) (n : Nat) (st : Stream) : (append v n st).bsfin = st.bsfin := by
  unfold append; split <;> rfl

theorem append_bspos (v : Word) (n : Nat) (st : Stream) :
    (append v n st).bspos = st.bspos + if 63 < st.accn + n then st.accn / 8 else 0 := by
  unfold append; split <;> rfl

@[simp] theorem appendZeros_bsfin (n : Nat) (st : Stream) : (appendZeros n st).bsfin = st.bsfin := by
  unfold appendZeros
  induction zeroChunks n generalizing st with
  | nil => rfl
  | cons c cs ih => exact (ih _).trans (append_bsfin ..)

/-- APPEND meets the relation where CHECK_WRITE passes (40 R112, R118). -/
theorem append_appends (h : PackOk cap st) (hfin : st.bsfin = false) (v : Word) {n : Nat} (hn : n ≤ 32)
    (hroom : streamLen st + n ≤ 8 * cap) : Appends cap st (bitsMsb n v.toNat) (append v n st) := by
  obtain ⟨⟨hk, ha, hl, -⟩, hb⟩ := h
  obtain ⟨hbits, hlen, -, hpos, hk', ha', -, hframe, hbuf⟩ := append_spec (v := v) hb.1 hk ha hn
  exact {
    bits := hbits
    bspos_le := hpos ▸ Nat.le_add_right _ _
    frame := hframe
    packOk := ⟨⟨hk', ha', hlen ▸ hroom, fun h => by simp [hfin] at h⟩, hbuf cap hb hl⟩ }

/-- So does a run of zero bits (40 R115). -/
theorem appendZeros_appends (h : PackOk cap st) (hfin : st.bsfin = false) {n : Nat}
    (hroom : streamLen st + n ≤ 8 * cap) : Appends cap st (List.replicate n false) (appendZeros n st) := by
  obtain ⟨⟨hk, ha, -, -⟩, hb⟩ := h
  obtain ⟨hbits, hlen, -, hpos, hk', ha', -, hframe, hbuf⟩ := appendZeros_spec n hb.1 hk ha
  exact {
    bits := hbits
    bspos_le := hpos
    frame := hframe
    packOk := ⟨⟨hk', ha', hlen ▸ hroom, fun h => by simp [hfin] at h⟩, hbuf cap hb hroom⟩ }

/-- The padding never overflows, so PADBYTE makes no check of the capacity (40 R116). -/
theorem streamLen_add_padCount_le (h : PackOk cap st) : streamLen st + padCount st ≤ 8 * cap := by
  obtain ⟨⟨-, -, hl, -⟩, -⟩ := h
  have := (streamLen_pad st).2
  omega

theorem padToByte_appends (h : PackOk cap st) (hfin : st.bsfin = false) :
    Appends cap st (List.replicate (padCount st) false) (padToByte st) := by
  have hp := padCount_le st
  rw [← bitsMsb_zero]
  exact append_appends h hfin 0 (by omega) (streamLen_add_padCount_le h)

theorem finishStream_appends (h : PackOk cap st) :
    Appends cap st (List.replicate (padCount st) false) (finishStream st) := by
  obtain ⟨hbits, -, -, hpos, -, hframe, hok⟩ := finishStream_spec h
  exact ⟨hbits, by rw [hpos, streamLen]; omega, hframe, hok⟩

/-! ### The checks -/

theorem guardedWrite_of_finished {s : State} (h : s.strm.bsfin = true) (n : Nat) (st : Stream) :
    guardedWrite s n st = .error .bsFinished := by
  simp [guardedWrite, checkWrite, h]

theorem guardedWrite_of_overflow {s : State} (h : s.strm.bsfin = false) {n : Nat}
    (hn : 8 * s.cfg.bsCap < streamLen s.strm + n) (st : Stream) : guardedWrite s n st = .error .bsOverflow := by
  simp [guardedWrite, checkWrite, h, hn]

theorem guardedWrite_of_room {s : State} (h : s.strm.bsfin = false) {n : Nat}
    (hn : streamLen s.strm + n ≤ 8 * s.cfg.bsCap) (st : Stream) : guardedWrite s n st = .ok (s.setStrm st) := by
  simp [guardedWrite, checkWrite_none.2 ⟨h, hn⟩]

theorem effect_putbits {nb : BitVec 6} (h : nb.toNat ≤ 32) (irq : Bool) (v : Word) (s : State) :
    effect (.putbits irq nb v) s = guardedWrite s nb.toNat (append v nb.toNat s.strm) :=
  if_neg (Nat.not_lt.2 h)

theorem effect_putbits_of_room {nb : BitVec 6} {s : State} (h : nb.toNat ≤ 32) (hfin : s.strm.bsfin = false)
    (hroom : streamLen s.strm + nb.toNat ≤ 8 * s.cfg.bsCap) (irq : Bool) (v : Word) :
    effect (.putbits irq nb v) s = .ok (s.setStrm (append v nb.toNat s.strm)) := by
  rw [effect_putbits h, guardedWrite_of_room hfin hroom]

theorem effect_padbyte {s : State} (h : s.strm.bsfin = false) (irq : Bool) (arg : Word) :
    effect (.padbyte irq arg) s = .ok (s.setStrm (padToByte s.strm)) :=
  if_neg (Bool.eq_false_iff.1 h)

theorem effect_finish {s : State} (h : s.strm.bsfin = false) (irq : Bool) (arg : Word) :
    effect (.finish irq arg) s = .ok (s.setStrm (finishStream s.strm)) :=
  if_neg (Bool.eq_false_iff.1 h)

theorem effect_finish_of_finished {s : State} (h : s.strm.bsfin = true) (irq : Bool) (arg : Word) :
    effect (.finish irq arg) s = .ok s :=
  if_pos h

/-- A command whose effect is a new stream, run: a frame as the statements write it. -/
theorem exec_of_setStrm {i : Instr} {s : State} (h : effect i s = .ok (s.setStrm st)) :
    exec i s = .next { s with strm := st, irqPend := donePend i.irq s } := by
  rw [exec_of_ok h, commit_eq]; rfl

/-- That frame for a stream left unfinished, where the statements write BSFIN out. -/
theorem frame_of_unfinished (s : State) (p : BitVec 4) (h : st.bsfin = false) :
    { s with strm := st, irqPend := p } = { s with strm := { st with bsfin := false }, irqPend := p } := by
  rw [← h]

/-! ### The commands -/

/-- Settles O20: the effect is the cleared cursor, and the command has no check. -/
theorem bsresetClearsCursor : Obligations.BsresetClearsCursor := by
  unfold Obligations.BsresetClearsCursor
  exact fun irq arg s => exec_of_setStrm rfl

/-- Settles O21: the checks in order, then APPEND. -/
theorem putbitsAppendsLowBits : Obligations.PutbitsAppendsLowBits := by
  unfold Obligations.PutbitsAppendsLowBits
  intro irq nb v s hs hb
  refine ⟨fun hn => exec_of_error (if_pos hn), fun hn hfin => exec_of_error ?_,
    fun hn hfin hover => exec_of_error ?_, fun hn hfin hroom => ?_⟩
  · rw [effect_putbits hn, guardedWrite_of_finished hfin]
  · rw [effect_putbits hn, guardedWrite_of_overflow hfin hover]
  · have hexec := exec_of_setStrm (effect_putbits_of_room hn hfin hroom irq v)
    have happ := append_appends ⟨hs, hb⟩ hfin v hn hroom
    have hlen := happ.streamLen
    rw [bitsMsb_length] at hlen
    exact ⟨_, hexec, frame_of_unfinished s _ ((append_bsfin ..).trans hfin), happ.bits, append_bspos .., hlen,
      happ.packOk.1, happ.frame⟩

/-- Settles O22: CHECK_WRITE for all the bits, then the pieces. -/
theorem putzeroAppendsZeros : Obligations.PutzeroAppendsZeros := by
  unfold Obligations.PutzeroAppendsZeros
  intro irq nz arg s hs hb
  refine ⟨fun hfin => exec_of_error (guardedWrite_of_finished hfin ..),
    fun hfin hover => exec_of_error (guardedWrite_of_overflow hfin hover _), fun hfin hroom => ?_⟩
  have heffect : effect (.putzero irq nz arg) s = _ := guardedWrite_of_room hfin hroom (appendZeros nz.toNat s.strm)
  have happ := appendZeros_appends ⟨hs, hb⟩ hfin hroom
  have hlen := happ.streamLen
  rw [List.length_replicate] at hlen
  exact ⟨_, exec_of_setStrm heffect, frame_of_unfinished s _ ((appendZeros_bsfin ..).trans hfin), happ.bits, hlen,
    appendZeros_cursor _ hs.1, happ.packOk.1, happ.frame⟩

/-- Settles O23: the padding is PADBYTE's p, which ends the stream on a byte. -/
theorem padbyteEndsOnByteBoundary : Obligations.PadbyteEndsOnByteBoundary := by
  unfold Obligations.PadbyteEndsOnByteBoundary
  intro irq arg s hs hb
  refine ⟨fun hfin => exec_of_error (if_pos hfin), fun hfin => ?_⟩
  have hexec := exec_of_setStrm (effect_padbyte hfin irq arg)
  have happ := padToByte_appends ⟨hs, hb⟩ hfin
  have hlen := happ.streamLen
  rw [List.length_replicate] at hlen
  have hmod : streamLen (padToByte s.strm) % 8 = 0 := by rw [hlen]; exact (streamLen_pad _).1
  exact ⟨_, padCount s.strm, hexec, padCount_le _, frame_of_unfinished s _ ((append_bsfin ..).trans hfin), happ.bits,
    hlen, hmod, append_bspos .., happ.packOk.1, happ.frame⟩

/-- With nothing in the accumulator the stream is the flushed bytes. -/
theorem streamBits_of_accn_eq_zero (h : st.accn = 0) : streamBits st = byteBits st.bs 0 st.bspos := by
  rw [streamBits, h]; exact List.append_nil _

theorem finishStream_eq (h : PackOk cap st) :
    finishStream st = ⟨(finishStream st).bs, (streamLen st + 7) / 8, 0, 0, true⟩ := by
  obtain ⟨-, haccn, hacc, hpos, hfin, -⟩ := finishStream_spec h
  calc finishStream st
      = ⟨(finishStream st).bs, (finishStream st).bspos, (finishStream st).acc, (finishStream st).accn,
          (finishStream st).bsfin⟩ := rfl
    _ = ⟨(finishStream st).bs, (streamLen st + 7) / 8, 0, 0, true⟩ := by rw [hpos, hacc, haccn, hfin]

theorem byteBits_finishStream (h : PackOk cap st) :
    byteBits (finishStream st).bs 0 (finishStream st).bspos =
      streamBits st ++ List.replicate (padCount st) false := by
  obtain ⟨hbits, haccn, -⟩ := finishStream_spec h
  rw [← streamBits_of_accn_eq_zero haccn, hbits]

/-- Settles O24: pad and FLUSH, unless the stream is finished already. -/
theorem finishFlushesEverything : Obligations.FinishFlushesEverything := by
  unfold Obligations.FinishFlushesEverything
  intro irq arg s hs hb
  refine ⟨fun hfin => ?_, fun hfin => ?_⟩
  · rw [exec_of_ok (effect_finish_of_finished hfin irq arg), commit_eq]; rfl
  · have hexec := exec_of_setStrm (effect_finish hfin irq arg)
    have hok : PackOk s.cfg.bsCap s.strm := ⟨hs, hb⟩
    refine ⟨_, padCount s.strm, hexec, padCount_le _, ?_, byteBits_finishStream hok,
      (finishStream_appends hok).frame⟩
    rw [← finishStream_eq hok]; rfl

/-! ### Flushed bytes -/

/-- Outside the five rows of the bit packer no effect touches the stream. -/
theorem effect_strm_of_not_bitPacker {i : Instr} {s s' : State} (h : effect i s = .ok s')
    (hi : i.mnemonic ∉ [.bsreset, .putbits, .putzero, .padbyte, .finish]) : s'.strm = s.strm := by
  cases i <;> simp only [effect] at h
  case bsreset | putbits | putzero | padbyte | finish => simp [Instr.mnemonic] at hi
  case mbbegin =>
    obtain ⟨-, h⟩ := withGrid_ok h
    split at h
    · cases h
    · obtain rfl := Except.ok.inj h; simp [mbBegin]
  case qdelta =>
    split at h
    · obtain rfl := Except.ok.inj h; rfl
    · cases h
  case acdcpred | mvset | mvset4 | mvpred =>
    obtain ⟨-, h⟩ := withGrid_ok h
    obtain rfl := Except.ok.inj h
    simp [State.writeMv, setAllMv]
  all_goals obtain rfl := Except.ok.inj h; simp [frameBegin, storeLevels]

/-- Every effect but BSRESET's appends bits, or none, to the stream. -/
theorem effect_appends {i : Instr} {s s' : State} (h : effect i s = .ok s') (hi : i.mnemonic ≠ .bsreset)
    (hp : PackOk s.cfg.bsCap s.strm) : ∃ l, Appends s.cfg.bsCap s.strm l s'.strm := by
  cases i
  case bsreset => exact absurd rfl hi
  case putbits irq nb v =>
    simp only [effect] at h
    split at h
    · cases h
    · obtain ⟨hfin, hroom, rfl⟩ := guardedWrite_ok h
      exact ⟨_, append_appends hp hfin v (by omega) hroom⟩
  case putzero =>
    obtain ⟨hfin, hroom, rfl⟩ := guardedWrite_ok h
    exact ⟨_, appendZeros_appends hp hfin hroom⟩
  case padbyte =>
    simp only [effect] at h
    split at h
    · cases h
    · rename_i hfin
      obtain rfl := Except.ok.inj h
      exact ⟨_, padToByte_appends hp (Bool.eq_false_iff.2 hfin)⟩
  case finish =>
    simp only [effect] at h
    split at h
    · obtain rfl := Except.ok.inj h; exact ⟨_, .refl hp⟩
    · obtain rfl := Except.ok.inj h; exact ⟨_, finishStream_appends hp⟩
  all_goals exact ⟨[], by rw [effect_strm_of_not_bitPacker h (by simp [Instr.mnemonic])]; exact .refl hp⟩

/-- Settles O15: an effect appends, and a fault leaves the stream. -/
theorem flushedBytesAreFinal : Obligations.FlushedBytesAreFinal := by
  unfold Obligations.FlushedBytesAreFinal
  intro i s t hs hb hi h
  obtain ⟨s', he, rfl⟩ | ⟨c, -, rfl⟩ := exec_cases h
  · obtain ⟨l, happ⟩ := effect_appends he hi ⟨hs, hb⟩
    simp only [bsAt, commit_strm]
    exact ⟨happ.bspos_le, fun k hk => happ.frame k (.inl hk)⟩
  · exact ⟨le_rfl, fun k _ => rfl⟩

/-! ### The round trip (40 R119) -/

theorem runCmds_cons {i : Instr} {s t : State} (h : exec i s = .next t) (is : List Instr) :
    runCmds (i :: is) s = runCmds is t := by
  rw [runCmds, h]

theorem runCmds_append {is : List Instr} {s t : State} (h : runCmds is s = .next t) (js : List Instr) :
    runCmds (is ++ js) s = runCmds js t := by
  induction is generalizing s with
  | nil => obtain rfl := Host.Outcome.next.inj h; rfl
  | cons i is ih =>
    simp only [List.cons_append, runCmds] at h ⊢
    split at h
    · exact ih h
    · cases h
    · cases h

/-- PUTBITS after PUTBITS, while there is room: the low bits of each value in order. -/
theorem runCmds_putbits {ps : List (BitVec 6 × Word)} {s : State} (hok : PackOk s.cfg.bsCap s.strm)
    (hfin : s.strm.bsfin = false) (hw : ∀ p ∈ ps, p.1.toNat ≤ 32)
    (hroom : streamLen s.strm + (ps.map fun p => p.1.toNat).sum ≤ 8 * s.cfg.bsCap) :
    ∃ st, runCmds (ps.map fun p => .putbits false p.1 p.2) s = .next (s.setStrm st) ∧ st.bsfin = false ∧
      Appends s.cfg.bsCap s.strm (ps.flatMap fun p => bitsMsb p.1.toNat p.2.toNat) st := by
  induction ps generalizing s with
  | nil => exact ⟨s.strm, rfl, hfin, .refl hok⟩
  | cons p ps ih =>
    rw [List.map_cons, List.sum_cons] at hroom
    have hn : p.1.toNat ≤ 32 := hw p List.mem_cons_self
    have hexec := exec_of_ok (effect_putbits_of_room hn hfin (by omega) false p.2)
    have happ := append_appends hok hfin p.2 hn (by omega)
    have hlen := happ.streamLen
    rw [bitsMsb_length] at hlen
    obtain ⟨st, hrun, hfin', happ'⟩ := ih (s := s.setStrm (append p.2 p.1.toNat s.strm)) happ.packOk
      ((append_bsfin ..).trans hfin) (fun q hq => hw q (List.mem_cons_of_mem _ hq))
      (by rw [State.setStrm_strm, State.setStrm_cfg, hlen]; omega)
    exact ⟨st, (runCmds_cons hexec _).trans hrun, hfin', happ.trans happ'⟩

/-- The stream as BSRESET leaves it. -/
theorem packOk_empty {m : Memory} (h : BufferOk cap m) : PackOk cap ⟨m, 0, 0, 0, false⟩ :=
  ⟨⟨Nat.zero_le _, Nat.zero_lt_one, Nat.zero_le _, nofun⟩, h⟩

/-- The padding is what the stream's length lacks to a multiple of 8. -/
theorem padCount_eq (st : Stream) : padCount st = (8 - streamLen st % 8) % 8 := by
  simp only [padCount, streamLen]; omega

/-- PUTBITS after PUTBITS and then FINISH: the bytes read back as the whole stream, padded to a byte. -/
theorem runCmds_putbits_finish {ps : List (BitVec 6 × Word)} {s : State} (hok : PackOk s.cfg.bsCap s.strm)
    (hfin : s.strm.bsfin = false) (hw : ∀ p ∈ ps, p.1.toNat ≤ 32)
    (hroom : streamLen s.strm + (ps.map fun p => p.1.toNat).sum ≤ 8 * s.cfg.bsCap) :
    ∃ st, runCmds ((ps.map fun p => .putbits false p.1 p.2) ++ [.finish false 0]) s = .next (s.setStrm st) ∧
      byteBits st.bs 0 st.bspos =
        streamBits s.strm ++ (ps.flatMap fun p => bitsMsb p.1.toNat p.2.toNat) ++
        List.replicate ((8 - (streamLen s.strm + (ps.map fun p => p.1.toNat).sum) % 8) % 8) false := by
  obtain ⟨st, hputs, hfin', happ⟩ := runCmds_putbits hok hfin hw hroom
  have hfinish := exec_of_ok (effect_finish (s := s.setStrm st) hfin' false 0)
  have hlen := happ.streamLen
  simp only [List.length_flatMap, bitsMsb_length] at hlen
  refine ⟨finishStream st, ?_, ?_⟩
  · rw [runCmds_append hputs, runCmds_cons hfinish]; rfl
  · rw [byteBits_finishStream happ.packOk, happ.bits, padCount_eq, hlen]

/-- Settles O25: the run from the empty stream that BSRESET leaves. -/
theorem bitstreamRoundTrip : Obligations.BitstreamRoundTrip := by
  unfold Obligations.BitstreamRoundTrip
  intro s ps hb hw hroom
  obtain ⟨t, hrun, hbits⟩ := runCmds_putbits_finish (s := s.setStrm ⟨s.strm.bs, 0, 0, 0, false⟩)
    (packOk_empty hb) rfl (fun p hp => (hw p hp).2) ((Nat.zero_add _).trans_le hroom)
  have hempty : streamLen ⟨s.strm.bs, 0, 0, 0, false⟩ = 0 := rfl
  rw [State.setStrm_strm, hempty, Nat.zero_add] at hbits
  exact ⟨_, (runCmds_cons rfl _).trans hrun, rfl, hbits⟩

end Sys2Proof.Machine

/-! ## The quantizer (41_quantizer.md R130 to R143)

Each command's effect writes Q, the levels of a block with QSUM and SAT, a block alone, or the flags; what `exec`
then answers is said once for each of the four, and the statements are read off from the values written. -/

namespace Sys2Proof.Machine

/-! ### The commands that write Q -/

/-- Settles O13: a fault leaves both, and an effect writes them as its kind says. -/
theorem onlyNamedCommandsWriteQuantizerAndPosition : Obligations.OnlyNamedCommandsWriteQuantizerAndPosition := by
  unfold Obligations.OnlyNamedCommandsWriteQuantizerAndPosition
  intro i s t h
  obtain ⟨s', he, rfl⟩ | ⟨c, -, rfl⟩ := exec_cases h
  · rw [commit_q, commit_grid]
    constructor
    · intro hne
      obtain e | ⟨hm, -⟩ := (effect_change he).q_cases
      · exact absurd e hne
      · exact hm
    · intro hne
      obtain e | ⟨hm, -⟩ := (effect_change he).grid_cases
      · exact absurd e hne
      · exact hm
  · exact ⟨fun hne => absurd rfl hne, fun hne => absurd rfl hne⟩

/-- A command whose effect is a new quantizer, run: a frame as the statements write it. -/
theorem exec_of_setQ {i : Instr} {s : State} {v : BitVec 5} (h : effect i s = .ok (s.setQ v)) :
    exec i s = .next { s with q := v, irqPend := donePend i.irq s } := by
  rw [exec_of_ok h, commit_eq]; rfl

/-- The deltas QDELTA accepts, by their encodings (30 R95). -/
theorem deltaOperand_legal_iff (dq : BitVec 3) :
    (-2 ≤ deltaOperand dq ∧ deltaOperand dq ≤ 2) ↔ dq ≠ 0b011 ∧ dq ≠ 0b100 ∧ dq ≠ 0b101 := by
  decide +revert

theorem effect_qdelta_of_legal {dq : BitVec 3} (h : -2 ≤ deltaOperand dq ∧ deltaOperand dq ≤ 2) (irq : Bool)
    (arg : Word) (s : State) :
    effect (.qdelta irq dq arg) s = .ok (s.setQ (clampQ (s.q.toNat + deltaOperand dq))) :=
  if_pos h

theorem effect_qdelta_of_illegal {dq : BitVec 3} (h : ¬(-2 ≤ deltaOperand dq ∧ deltaOperand dq ≤ 2)) (irq : Bool)
    (arg : Word) (s : State) : effect (.qdelta irq dq arg) s = .error .badOperand :=
  if_neg h

/-- Settles O26: both commands store a clamped value, QDELTA after the check of its delta. -/
theorem qsetAndQdeltaClamp : Obligations.QsetAndQdeltaClamp := by
  unfold Obligations.QsetAndQdeltaClamp
  refine ⟨fun irq v arg s => ⟨_, exec_of_setQ rfl, rfl, ?_⟩, fun irq dq arg s => ⟨fun hdq => ?_, fun h3 h4 h5 => ?_⟩⟩
  · have := clampQ_toNat v.toNat
    show (clampQ v.toNat).toNat = _
    omega
  · refine exec_of_error (effect_qdelta_of_illegal (fun hlegal => ?_) irq arg s)
    obtain ⟨h3, h4, h5⟩ := (deltaOperand_legal_iff dq).1 hlegal
    exact hdq.elim h3 fun h => h.elim h4 h5
  · have hlegal := (deltaOperand_legal_iff dq).2 ⟨h3, h4, h5⟩
    exact ⟨_, exec_of_setQ (effect_qdelta_of_legal hlegal irq arg s), rfl, clampQ_toNat _⟩

/-! ### The ladder (R131, R138, R143) -/

/-- NEXTQ of 31 is 31. -/
theorem nextQ_of_top {l : List Nat} {q : Nat} (h : 31 ≤ q) : nextQ l q = 31 := if_pos h

/-- NEXTQ fits in Q. -/
theorem ofNat_nextQ_toNat {l : List Nat} (hl : Config.LegalLadder l) (q : Nat) :
    (BitVec.ofNat 5 (nextQ l q)).toNat = nextQ l q := by
  have hle : nextQ l q ≤ 31 := by
    by_cases hq : q < 31
    · exact (hl.2.1 _ (nextQ_spec hl hq).1).2
    · rw [nextQ_of_top (by omega)]
  rw [BitVec.toNat_ofNat]; omega

/-- QNEXT, run: the frame, and NEXTQ stored whole. -/
theorem exec_qnext {s : State} (hl : Config.LegalLadder s.cfg.qladder) (irq : Bool) (arg : Word) :
    ∃ t, exec (.qnext irq arg) s = .next t ∧ t = { s with q := t.q, irqPend := donePend irq s } ∧
      t.q.toNat = nextQ s.cfg.qladder s.q.toNat :=
  ⟨_, exec_of_setQ rfl, rfl, ofNat_nextQ_toNat hl _⟩

/-- Settles O27: what QNEXT stores is NEXTQ. -/
theorem qnextGoesToNextLadderEntry : Obligations.QnextGoesToNextLadderEntry := by
  unfold Obligations.QnextGoesToNextLadderEntry
  intro irq arg s hl
  obtain ⟨t, hexec, hframe, hnext⟩ := exec_qnext hl irq arg
  refine ⟨t, hexec, hframe, fun hq => hnext.trans (nextQ_of_top hq.ge), fun hq => ?_⟩
  rw [hnext]
  exact nextQ_spec hl hq

/-- The ladder entries above q: what QNEXT has still to go through. -/
def entriesAbove (l : List Nat) (q : Nat) : Finset Nat := l.toFinset.filter (q < ·)

theorem mem_entriesAbove {l : List Nat} {q x : Nat} : x ∈ entriesAbove l q ↔ x ∈ l ∧ q < x := by
  simp [entriesAbove]

theorem entriesAbove_card_le (l : List Nat) (q : Nat) : (entriesAbove l q).card ≤ l.length :=
  (Finset.card_filter_le _ _).trans l.toFinset_card_le

/-- NEXTQ uses up an entry: itself. -/
theorem entriesAbove_nextQ_ssubset {l : List Nat} (hl : Config.LegalLadder l) {q : Nat} (hq : q < 31) :
    entriesAbove l (nextQ l q) ⊂ entriesAbove l q := by
  obtain ⟨hmem, hlt, -⟩ := nextQ_spec hl hq
  refine (Finset.ssubset_iff_of_subset fun x hx => ?_).2
    ⟨nextQ l q, mem_entriesAbove.2 ⟨hmem, hlt⟩, fun h => (mem_entriesAbove.1 h).2.false⟩
  obtain ⟨hxl, hx⟩ := mem_entriesAbove.1 hx
  exact mem_entriesAbove.2 ⟨hxl, hlt.trans hx⟩

/-- QNEXT after QNEXT reaches 31, with one command at most for each entry above Q. -/
theorem runCmds_qnext_reaches_top {s : State} (hl : Config.LegalLadder s.cfg.qladder) :
    ∃ n t, n ≤ (entriesAbove s.cfg.qladder s.q.toNat).card ∧
      runCmds (List.replicate n (.qnext false 0)) s = .next t ∧ t.q.toNat = 31 := by
  induction hk : (entriesAbove s.cfg.qladder s.q.toNat).card using Nat.strong_induction_on generalizing s with
  | _ k ih =>
    by_cases hq : s.q.toNat < 31
    · obtain ⟨u, hexec, hframe, hnext⟩ := exec_qnext hl false 0
      have hcfg : u.cfg = s.cfg := by rw [hframe]
      have hlt := Finset.card_lt_card (entriesAbove_nextQ_ssubset hl hq)
      rw [← hcfg] at hl
      obtain ⟨n, t, hn, hrun, ht⟩ := ih _ (by rw [← hk, hcfg, hnext]; exact hlt) hl rfl
      rw [hcfg, hnext] at hn
      refine ⟨n + 1, t, by omega, ?_, ht⟩
      rw [List.replicate_succ, runCmds_cons hexec, hrun]
    · exact ⟨0, s, Nat.zero_le _, rfl, by have := s.q.isLt; omega⟩

/-- A run of commands keeps the configuration. -/
theorem runCmds_cfg {is : List Instr} {s t : State} (h : runCmds is s = .next t) : t.cfg = s.cfg := by
  induction is generalizing s with
  | nil => obtain rfl := Host.Outcome.next.inj h; rfl
  | cons i is ih =>
    simp only [runCmds] at h
    split at h
    · rename_i u hu
      obtain ⟨-, -, -, -, -, hcfg, -⟩ := commandsKeepTablesLatchAndQueue i s u hu
      exact (ih h).trans hcfg
    · cases h
    · cases h

/-- Settles O28: the entries above Q bound the commands left; below 31 each QNEXT goes to a larger entry. -/
theorem ladderRetryTerminates : Obligations.LadderRetryTerminates := by
  unfold Obligations.LadderRetryTerminates
  intro s hl _
  constructor
  · obtain ⟨n, t, hn, hrun, ht⟩ := runCmds_qnext_reaches_top hl
    exact ⟨n, t, hn.trans (entriesAbove_card_le _ _), hrun, ht⟩
  · intro n t u hrun hne hexec
    have hlt : t.q.toNat < 31 := by have := t.q.isLt; omega
    rw [← runCmds_cfg hrun] at hl
    obtain ⟨u', hexec', -, hnext⟩ := exec_qnext hl false 0
    obtain rfl := Host.Outcome.next.inj (hexec'.symm.trans hexec)
    obtain ⟨-, hgt, -⟩ := nextQ_spec hl hlt
    rw [hnext]; exact hgt

/-! ### Forward quantization (R133 to R135) -/

theorem one_le_val_iff (i : Fin 64) : 1 ≤ i.val ↔ i ≠ 0 := Nat.one_le_iff_ne_zero.trans Fin.val_ne_zero_iff

/-- A command that stores levels within ±2047, run: the frame, the levels, QSUM and SAT. -/
theorem exec_of_storeLevels {i : Instr} {s : State} {d : BlkIx} {lo : Nat} {f : Fin 64 → Level}
    (h : effect i s = .ok (storeLevels s d lo f)) (hf : ∀ n, |(f n).lv| ≤ 2047) :
    ∃ t, exec i s = .next t ∧
      t = { s with
        blk := s.blk.set d t.blk[d]
        flags := { s.flags with sat := t.flags.sat, qsum := t.flags.qsum }
        irqPend := donePend i.irq s } ∧
      (∀ n, coef t d n = (f n).lv) ∧
      (t.flags.qsum.toNat : Int) = ∑ n : Fin 64, (if lo ≤ n.val then |coef t d n| else 0) ∧
      (t.flags.sat = true ↔ s.flags.sat = true ∨ ∃ n, (f n).sat = true) := by
  have hcoef : ∀ n, coef (commit i.irq (storeLevels s d lo f)) d n = (f n).lv := fun n => by
    simp only [coef, commit_blk]; exact storeLevels_coef s d lo f hf n
  refine ⟨_, exec_of_ok h, ?_, hcoef, ?_, ?_⟩
  · have hblk : (storeLevels s d lo f).blk[d] = narrowBlock (fun n => (f n).lv) := by simp [storeLevels]
    rw [commit_blk, hblk, commit_flags, commit_eq]; rfl
  · simp only [hcoef, commit_flags]; exact magSum_toNat lo f hf
  · simp [anySat]

/-- An AC level: 0 below the threshold `thr` of the magnitude `a` that is divided, and from there on the sign of the
input `x` with the quotient `m0` clamped; SAT when the clamp acts or the reconstruction leaves its range (R133). -/
structure Level.Truncates (v : Level) (x a thr m0 : Int) (recon : Int → Int) : Prop where
  abs_le : |v.lv| ≤ 2047
  below : a < thr → v.lv = 0
  above : thr ≤ a → v.lv = x.sign * min m0 2047
  sat_iff : v.sat = true ↔ thr ≤ a ∧ (2047 < m0 ∨
    (0 < |v.lv| ∧ ((0 < x ∧ 2047 < recon |v.lv|) ∨ (x < 0 ∧ 2048 < recon |v.lv|))))

/-- The two cases of a forward rule make such a level. -/
theorem Level.Truncates.of_cases {v : Level} {x a thr m0 : Int} {recon : Int → Int}
    (h : (a < thr → v = ⟨0, false⟩) ∧ (thr ≤ a → v = acLevel x m0 recon ∧ 0 ≤ m0)) :
    v.Truncates x a thr m0 recon := by
  obtain ⟨hbelow, habove⟩ := h
  by_cases ha : a < thr
  · obtain rfl := hbelow ha
    exact ⟨by simp, fun _ => rfl, fun hle => by omega, ⟨nofun, fun ⟨hle, _⟩ => by omega⟩⟩
  · obtain ⟨rfl, hm⟩ := habove (by omega)
    obtain ⟨hlv, hle, hsat⟩ := acLevel_spec x hm recon
    exact ⟨hle, fun hlt => absurd hlt ha, fun _ => hlv, hsat.trans (iff_and_self.2 fun _ => by omega)⟩

/-- When the intra DC level saturates (R134). -/
theorem intraDcLevel_sat (dcs : Nat) (x : Int) : (intraDcLevel dcs x).sat = true ↔
    2047 < |divRound x dcs| ∨ 2047 < (intraDcLevel dcs x).lv * dcs ∨ (intraDcLevel dcs x).lv * dcs < -2048 := by
  simp [intraDcLevel, or_assoc]

section
variable (s : State) (src : BlkIx) (role : Role)

theorem qintraLevel_dc :
    qintraLevel s src role 0 = intraDcLevel (dcScaler s.cfg s.q.toNat role) (coef s src 0) :=
  rfl

theorem qintraLevel_ac {i : Fin 64} (hi : i ≠ 0) : (qintraLevel s src role i).Truncates (coef s src i)
    |coef s src i| (2 * s.q.toNat) (8 * |coef s src i| / ((s.wi[i]).toNat * s.q.toNat))
    (intraRecon (s.wi[i]).toNat s.q.toNat) := by
  rw [qintraLevel, if_neg (Fin.val_ne_zero_iff.2 hi)]
  exact .of_cases (intraAcLevel_cases _ _ _)

theorem qintraLevel_abs_le (i : Fin 64) : |(qintraLevel s src role i).lv| ≤ 2047 := by
  by_cases hi : i = 0
  · subst hi; exact (intraDcLevel_lv _ _).2
  · exact (qintraLevel_ac s src role hi).abs_le

/-- A level of QINTRA saturates when the DC does or an AC does. -/
theorem qintraLevel_sat : (∃ i, (qintraLevel s src role i).sat = true) ↔
    (qintraLevel s src role 0).sat = true ∨ ∃ i, i ≠ 0 ∧ (qintraLevel s src role i).sat = true := by
  constructor
  · rintro ⟨i, hi⟩
    by_cases h0 : i = 0
    · exact .inl (h0 ▸ hi)
    · exact .inr ⟨i, h0, hi⟩
  · rintro (h | ⟨i, -, hi⟩)
    · exact ⟨0, h⟩
    · exact ⟨i, hi⟩

theorem qinterLevel_truncates (i : Fin 64) : (qinterLevel s src i).Truncates (coef s src i)
    (|coef s src i| - (s.q.toNat : Int) / 2) (2 * s.q.toNat)
    (8 * (|coef s src i| - (s.q.toNat : Int) / 2) / ((s.wp[i]).toNat * s.q.toNat))
    (interRecon (s.wp[i]).toNat s.q.toNat) :=
  .of_cases (interLevel_cases _ _ _)

end

/-- Settles O29: the DC and the AC levels, stored. -/
theorem qintraQuantizes : Obligations.QintraQuantizes := by
  unfold Obligations.QintraQuantizes
  intro irq d src role arg s q dcs x w
  obtain ⟨t, hexec, hframe, hcoef, hsum, hsat⟩ := exec_of_storeLevels (i := .qintra irq d src role arg) rfl
    (qintraLevel_abs_le s src role)
  have hac := fun i (hi : i ≠ 0) => qintraLevel_ac s src role hi
  refine ⟨t, hexec, hframe, ?_, fun i hi hlt => ?_, fun i hi hle => ?_, ?_, ?_⟩
  · rw [hcoef]; exact (intraDcLevel_lv _ _).1
  · rw [hcoef]; exact (hac i hi).below hlt
  · rw [hcoef]; exact (hac i hi).above hle
  · rw [hsum]
    refine Finset.sum_congr rfl fun i _ => ?_
    by_cases hi : i = 0
    · rw [if_pos hi, if_neg fun h => (one_le_val_iff i).1 h hi]
    · rw [if_neg hi, if_pos ((one_le_val_iff i).2 hi)]
  · simp only [hcoef]
    rw [hsat, qintraLevel_sat]
    refine or_congr_right (or_congr (intraDcLevel_sat _ _) (exists_congr fun i => and_congr_right fun hi => ?_))
    exact (hac i hi).sat_iff

/-- Settles O30: the same with the AC rule for every coefficient. -/
theorem qinterQuantizes : Obligations.QinterQuantizes := by
  unfold Obligations.QinterQuantizes
  intro irq d src arg s q x a w
  have hlevel := qinterLevel_truncates s src
  obtain ⟨t, hexec, hframe, hcoef, hsum, hsat⟩ := exec_of_storeLevels (i := .qinter irq d src arg) rfl
    (fun i => (hlevel i).abs_le)
  refine ⟨t, hexec, hframe, fun i hlt => ?_, fun i hle => ?_, hsum, ?_⟩
  · rw [hcoef]; exact (hlevel i).below hlt
  · rw [hcoef]; exact (hlevel i).above hle
  · simp only [hcoef]
    exact hsat.trans (or_congr_right (exists_congr fun i => (hlevel i).sat_iff))

/-! ### Inverse quantization (R140 to R142) -/

/-- A command whose effect is a new block, run: the frame, and the block. -/
theorem exec_of_setBlk {i : Instr} {s : State} {d : BlkIx} {b : Block} (h : effect i s = .ok (s.setBlk d b)) :
    ∃ t, exec i s = .next t ∧ t = { s with blk := s.blk.set d t.blk[d], irqPend := donePend i.irq s } ∧
      ∀ n, coef t d n = (b[n]).toInt := by
  have hblk : (commit i.irq (s.setBlk d b)).blk[d] = b := by simp
  refine ⟨_, exec_of_ok h, ?_, fun n => by rw [coef, hblk]⟩
  rw [hblk, commit_eq]; rfl

/-- A reconstruction by the sign of its level. -/
theorem signedRecon_zero (m : Int) : signedRecon 0 m = 0 := if_pos rfl

theorem signedRecon_of_pos {l : Int} (h : 0 < l) (m : Int) : signedRecon l m = min m 2047 := by
  rw [signedRecon, if_neg h.ne', if_pos h]

theorem signedRecon_of_neg {l : Int} (h : l < 0) (m : Int) : signedRecon l m = -min m 2048 := by
  rw [signedRecon, if_neg h.ne, if_neg h.not_gt]

section
variable (s : State) (src : BlkIx) (role : Role)

theorem dqintraValue_ac {i : Fin 64} (hi : i ≠ 0) : dqintraValue s src role i =
    signedRecon (coef s src i) (|coef s src i| * (s.wi[i]).toNat * s.q.toNat / 8) :=
  if_neg (Fin.val_ne_zero_iff.2 hi)

theorem dqinterValue_eq (i : Fin 64) : dqinterValue s src i =
    signedRecon (coef s src i) ((2 * |coef s src i| + 1) * (s.wp[i]).toNat * s.q.toNat / 16) :=
  rfl

end

/-- Settles O31: the values, then mismatch control. -/
theorem dqintraReconstructs : Obligations.DqintraReconstructs := by
  unfold Obligations.DqintraReconstructs
  intro irq d src role arg s l
  obtain ⟨t, hexec, hframe, hcoef⟩ := exec_of_setBlk (i := .dqintra irq d src role arg) (s := s) rfl
  obtain ⟨hkeep, hlast⟩ := mismatch_spec (dqintraValue_range s src role)
  refine ⟨t, dqintraValue s src role, hexec, hframe, rfl, fun i hi h => ?_, fun i hi h => ?_, fun i hi h => ?_,
    fun i hi => (hcoef i).trans (hkeep i hi), (hcoef 63).trans hlast⟩
  · rw [dqintraValue_ac s src role hi, show coef s src i = 0 from h, signedRecon_zero]
  · rw [dqintraValue_ac s src role hi, signedRecon_of_pos h, abs_of_pos h]
  · rw [dqintraValue_ac s src role hi, signedRecon_of_neg h, abs_of_neg h]

/-- Settles O32: the same for the inter values. -/
theorem dqinterReconstructs : Obligations.DqinterReconstructs := by
  unfold Obligations.DqinterReconstructs
  intro irq d src arg s l
  obtain ⟨t, hexec, hframe, hcoef⟩ := exec_of_setBlk (i := .dqinter irq d src arg) (s := s) rfl
  obtain ⟨hkeep, hlast⟩ := mismatch_spec (dqinterValue_range s src)
  refine ⟨t, dqinterValue s src, hexec, hframe, fun i h => ?_, fun i h => ?_, fun i h => ?_,
    fun i hi => (hcoef i).trans (hkeep i hi), (hcoef 63).trans hlast⟩
  · rw [dqinterValue_eq, show coef s src i = 0 from h, signedRecon_zero]
  · rw [dqinterValue_eq, signedRecon_of_pos h, abs_of_pos h]
  · rw [dqinterValue_eq, signedRecon_of_neg h, abs_of_neg h]

/-- Moving the last value by 1 when the sum is even makes the sum odd (R142). -/
theorem sum_odd_of_last_toggled {f g : Fin 64 → Int} (hkeep : ∀ i, i ≠ 63 → g i = f i)
    (hlast : g 63 = if (∑ i, f i) % 2 ≠ 0 then f 63 else if f 63 % 2 = 0 then f 63 + 1 else f 63 - 1) :
    (∑ i, g i) % 2 = 1 := by
  have hsplit : ∀ h : Fin 64 → Int, ∑ i, h i = ∑ i : Fin 63, h i.castSucc + h 63 := Fin.sum_univ_castSucc
  have hrest : ∑ i : Fin 63, g i.castSucc = ∑ i : Fin 63, f i.castSucc :=
    Finset.sum_congr rfl fun i _ => hkeep _ i.castSucc_lt_last.ne
  rw [hsplit f] at hlast
  rw [hsplit g, hrest, hlast]
  split
  · omega
  · split <;> omega

/-- Mismatch control keeps the range: 2047 is odd and -2048 is even (R142). -/
theorem mismatch_range {f : Fin 64 → Int} (hf : ∀ i, -2048 ≤ f i ∧ f i ≤ 2047) (i : Fin 64) :
    -2048 ≤ ((mismatch (narrowBlock f))[i]).toInt ∧ ((mismatch (narrowBlock f))[i]).toInt ≤ 2047 := by
  obtain ⟨hkeep, hlast⟩ := mismatch_spec hf
  by_cases hi : i = 63
  · subst hi
    have := hf 63
    rw [hlast]
    split
    · omega
    · split <;> omega
  · rw [hkeep i hi]; exact hf i

/-- A command that stores a block under mismatch control, run: the sum and the range of its outputs. -/
theorem exec_of_mismatch {i : Instr} {s : State} {d : BlkIx} {f : Fin 64 → Int}
    (h : effect i s = .ok (s.setBlk d (mismatch (narrowBlock f)))) (hf : ∀ n, -2048 ≤ f n ∧ f n ≤ 2047) :
    ∃ t, exec i s = .next t ∧ (∑ n : Fin 64, coef t d n) % 2 = 1 ∧ ∀ n, -2048 ≤ coef t d n ∧ coef t d n ≤ 2047 := by
  obtain ⟨t, hexec, -, hcoef⟩ := exec_of_setBlk h
  obtain ⟨hkeep, hlast⟩ := mismatch_spec hf
  refine ⟨t, hexec, sum_odd_of_last_toggled (fun n hn => (hcoef n).trans (hkeep n hn)) ((hcoef 63).trans hlast),
    fun n => ?_⟩
  rw [hcoef]; exact mismatch_range hf n

/-- Settles O33: both inverse commands end with mismatch control. -/
theorem inverseOutputsSumToOdd : Obligations.InverseOutputsSumToOdd := by
  unfold Obligations.InverseOutputsSumToOdd
  rintro i irq d src role arg s (rfl | rfl)
  · exact exec_of_mismatch rfl (dqintraValue_range s src role)
  · exact exec_of_mismatch rfl (dqinterValue_range s src)

/-! ### The coded block pattern (R139) -/

/-- The indices the two rules count. -/
theorem cbpLow_le_iff (mode : CbpMode) (i : Fin 64) : cbpLow mode ≤ i.val ↔ (mode = .intra → i ≠ 0) := by
  cases mode with
  | inter => simp [cbpLow]
  | intra => exact ⟨fun h _ => (one_le_val_iff i).1 h, fun h => (one_le_val_iff i).2 (h rfl)⟩

/-- A command whose effect is new flags, run: a frame as the statements write it. -/
theorem exec_of_setFlags {i : Instr} {s : State} {v : MbFlags} (h : effect i s = .ok (s.setFlags v)) :
    exec i s = .next { s with flags := v, irqPend := donePend i.irq s } := by
  rw [exec_of_ok h, commit_eq]; rfl

/-- Settles O34: bit j flags block j, which is coded when a coefficient that counts is not 0. -/
theorem cbpcalcFlagsCodedBlocks : Obligations.CbpcalcFlagsCodedBlocks := by
  unfold Obligations.CbpcalcFlagsCodedBlocks
  intro irq mode arg s
  refine ⟨_, exec_of_setFlags rfl, rfl, fun j => ?_⟩
  show (cbpMask fun j => blockCoded (cbpLow mode) s.blk[mbBuf j]).getLsbD j.val = true ↔ _
  rw [cbpMask_bit, blockCoded_iff]
  exact exists_congr fun i => and_congr (cbpLow_le_iff mode i) (coef_ne_zero _).symm

end Sys2Proof.Machine

/-! ## The transform (42_transform.md R160 to R165)

FDCT and IDCT store one rounded and clamped double sum per index, and COPY stores a block as it is. About the basis
table two facts are needed: what its rows sum to (R165) and a bound on its entries (R161). -/

namespace Sys2Proof.Machine

/-! ### The commands -/

/-- The rounding as the statements write it. -/
theorem rnd_28 (p : Int) : rnd p 28 = p.sign * ((|p| + 2 ^ 27) / 2 ^ 28) := rfl

theorem fdctSum_eq (x : Fin 64 → Int) (u v : Fin 8) :
    fdctSum x u v = ∑ r, ∑ c, basisT u r * x (rcIndex r c) * basisT v c := by
  simp only [fdctSum, sumFin_eq]

theorem idctSum_eq (y : Fin 64 → Int) (r c : Fin 8) :
    idctSum y r c = ∑ u, ∑ v, basisT u r * y (rcIndex u v) * basisT v c := by
  simp only [idctSum, sumFin_eq]

/-- A command whose effect is a block of rounded and clamped values, run: the frame, and the values whole. -/
theorem exec_of_setBlk_clamp {i : Instr} {s : State} {d : BlkIx} {p : Fin 64 → Int} {lo hi : Int}
    (h : effect i s = .ok (s.setBlk d (narrowBlock fun n => clampInt (rnd (p n) 28) lo hi)))
    (h1 : -32768 ≤ lo) (h2 : hi ≤ 32767) (hle : lo ≤ hi) :
    ∃ t, exec i s = .next t ∧ t = { s with blk := s.blk.set d t.blk[d], irqPend := donePend i.irq s } ∧
      ∀ n, coef t d n = clampInt (rnd (p n) 28) lo hi := by
  obtain ⟨t, hexec, hframe, hcoef⟩ := exec_of_setBlk h
  exact ⟨t, hexec, hframe, fun n => (hcoef n).trans (narrowBlock_clamp _ h1 h2 hle n)⟩

/-- FDCT, run: the frame, and the values whole. -/
theorem exec_fdct (irq : Bool) (d src : BlkIx) (arg : Word) (s : State) :
    ∃ t, exec (.fdct irq d src arg) s = .next t ∧
      t = { s with blk := s.blk.set d t.blk[d], irqPend := donePend irq s } ∧ ∀ n, coef t d n = fdctValue s src n :=
  exec_of_setBlk_clamp (i := .fdct irq d src arg) rfl (by decide) (by decide) (by decide)

/-- IDCT, run: the frame, and the values whole. -/
theorem exec_idct (irq : Bool) (d src : BlkIx) (arg : Word) (s : State) :
    ∃ t, exec (.idct irq d src arg) s = .next t ∧
      t = { s with blk := s.blk.set d t.blk[d], irqPend := donePend irq s } ∧ ∀ n, coef t d n = idctValue s src n :=
  exec_of_setBlk_clamp (i := .idct irq d src arg) rfl (by decide) (by decide) (by decide)

/-- Settles O35: what FDCT stores at index 8 u + v is the sum at (u, v), rounded and clamped. -/
theorem fdctRoundsOneExactSum : Obligations.FdctRoundsOneExactSum := by
  unfold Obligations.FdctRoundsOneExactSum
  intro irq d src arg s
  obtain ⟨t, hexec, hframe, hcoef⟩ := exec_fdct irq d src arg s
  refine ⟨t, hexec, hframe, fun u v => ?_⟩
  obtain ⟨hrow, hcol⟩ := rcIndex_rowOf_colOf u v
  rw [hcoef, fdctValue, hrow, hcol, fdctSum_eq, rnd_28]; rfl

/-- Settles O36: the same for IDCT. -/
theorem idctRoundsOneExactSum : Obligations.IdctRoundsOneExactSum := by
  unfold Obligations.IdctRoundsOneExactSum
  intro irq d src arg s
  obtain ⟨t, hexec, hframe, hcoef⟩ := exec_idct irq d src arg s
  refine ⟨t, hexec, hframe, fun r c => ?_⟩
  obtain ⟨hrow, hcol⟩ := rcIndex_rowOf_colOf r c
  rw [hcoef, idctValue, hrow, hcol, idctSum_eq, rnd_28]; rfl

/-- Settles O37: the effect sets one block buffer to the source. -/
theorem copyCopiesBlock : Obligations.CopyCopiesBlock := by
  unfold Obligations.CopyCopiesBlock
  intro irq d src arg s
  refine ⟨_, exec_of_ok rfl, ?_, ?_, fun b hb => ?_⟩
  · rw [commit_eq]; rfl
  · simp
  · have hval : d.val ≠ b.val := fun h => hb (Fin.ext h.symm)
    simp [hval]

/-! ### A flat block (R165) -/

/-- Row 0 of the table is constant and every other row sums to 0 (R160). -/
theorem basisT_row_sum (k : Fin 8) : ∑ n, basisT k n = if k = 0 then 46344 else 0 := by decide +revert

theorem fdctSum_flat (v : Int) (m n : Fin 8) :
    fdctSum (fun _ => v) m n = (∑ r, basisT m r) * v * ∑ c, basisT n c := by
  rw [fdctSum_eq, Finset.sum_mul, Finset.sum_mul_sum]

/-- The DC gain 46344 squared is 8 * 2^28 with an excess that the rounding drops for a 9-bit value. -/
theorem clampInt_rnd_dc {v : Int} (hv : |v| ≤ 255) : clampInt (rnd (46344 * v * 46344) 28) (-2048) 2047 = 8 * v := by
  have hrange := abs_le.1 hv
  rw [rnd_28, clampInt]
  obtain h | rfl | h := lt_trichotomy v 0
  · rw [Int.sign_eq_neg_one_of_neg (by omega), abs_of_neg (by omega)]; omega
  · rfl
  · rw [Int.sign_eq_one_of_pos (by omega), abs_of_pos (by omega)]; omega

/-- Index 0 is the one in row 0 and column 0. -/
theorem rowOf_eq_zero_and_colOf_eq_zero (i : Fin 64) : rowOf i = 0 ∧ colOf i = 0 ↔ i = 0 := by
  simp only [rowOf, colOf, Fin.ext_iff, Fin.val_zero]; omega

/-- The transform of a flat block of a 9-bit value, index by index. -/
theorem fdctValue_flat {s : State} {src : BlkIx} {v : Int} (hv : |v| ≤ 255) (hflat : ∀ i, coef s src i = v)
    (i : Fin 64) : fdctValue s src i = if i = 0 then 8 * v else 0 := by
  rw [fdctValue, show coef s src = fun _ => v from funext hflat, fdctSum_flat, basisT_row_sum, basisT_row_sum]
  by_cases hi : i = 0
  · obtain ⟨hrow, hcol⟩ := (rowOf_eq_zero_and_colOf_eq_zero i).2 hi
    rw [if_pos hrow, if_pos hcol, if_pos hi, clampInt_rnd_dc hv]
  · have hsum : (if rowOf i = 0 then 46344 else 0) * v * (if colOf i = 0 then 46344 else 0) = 0 := by
      obtain hrow | hcol := not_and_or.1 (mt (rowOf_eq_zero_and_colOf_eq_zero i).1 hi)
      · rw [if_neg hrow, zero_mul, zero_mul]
      · rw [if_neg hcol, mul_zero]
    rw [hsum, if_neg hi]; rfl

/-- Settles O38: FDCT stores the values of a flat block. -/
theorem flatBlockHasOnlyDc : Obligations.FlatBlockHasOnlyDc := by
  unfold Obligations.FlatBlockHasOnlyDc
  intro irq d src arg s t v hv hflat hexec
  obtain ⟨t', hexec', -, hcoef⟩ := exec_fdct irq d src arg s
  obtain rfl := Host.Outcome.next.inj (hexec'.symm.trans hexec)
  have hvalue := fun i => (hcoef i).trans (fdctValue_flat hv hflat i)
  exact ⟨hvalue 0, fun i hi => (hvalue i).trans (if_neg hi)⟩

/-! ### The accumulator (R161)

The table's entries are at most 8035 and the samples at most 2^15 in magnitude, so 64 products stay below
64 * 8035 * 2^15 * 8035 < 2^47. -/

/-- The values of a 48-bit signed accumulator. -/
abbrev FitsAccumulator (v : Int) : Prop := -2 ^ 47 ≤ v ∧ v < 2 ^ 47

/-- The sum of any set of terms fits when all the terms at their bound do. -/
theorem sum_fitsAccumulator {α : Type} [Fintype α] {f : α → Int} {b : Int} (hf : ∀ a, |f a| ≤ b)
    (hcard : Fintype.card α * b < 2 ^ 47) (p : Finset α) : FitsAccumulator (∑ a ∈ p, f a) := by
  have hsum : |∑ a ∈ p, f a| < 2 ^ 47 := calc
    |∑ a ∈ p, f a| ≤ ∑ _ : α, b := abs_sum_le_of_subset hf p
    _ = Fintype.card α * b := by simp
    _ < 2 ^ 47 := hcard
  obtain ⟨hlo, hhi⟩ := abs_lt.1 hsum
  exact ⟨hlo.le, hhi⟩

theorem basisT_abs_le (k n : Fin 8) : |basisT k n| ≤ 8035 := by decide +revert

theorem coef_abs_le (s : State) (b : BlkIx) (i : Fin 64) : |coef s b i| ≤ 32768 := by
  have := coef_range s b i
  exact abs_le.2 (by omega)

section
variable (s : State) (b : BlkIx)

/-- A term of a first pass. -/
theorem basisT_mul_coef_abs_le (k n : Fin 8) (i : Fin 64) : |basisT k n * coef s b i| ≤ 8035 * 32768 := by
  rw [abs_mul]
  exact mul_le_mul (basisT_abs_le k n) (coef_abs_le s b i) (abs_nonneg _) (by decide)

/-- A term of a whole transform. -/
theorem basisT_mul_coef_mul_basisT_abs_le (k n k' n' : Fin 8) (i : Fin 64) :
    |basisT k n * coef s b i * basisT k' n'| ≤ 8035 * 32768 * 8035 := by
  rw [abs_mul]
  exact mul_le_mul (basisT_mul_coef_abs_le s b k n i) (basisT_abs_le k' n') (abs_nonneg _) (by decide)

/-- Any set of the 64 products of an output of FDCT. -/
theorem fdct_products_fit (m n : Fin 8) (p : Finset (Fin 8 × Fin 8)) :
    FitsAccumulator (∑ a ∈ p, basisT m a.1 * coef s b (rcIndex a.1 a.2) * basisT n a.2) :=
  sum_fitsAccumulator (fun _ => basisT_mul_coef_mul_basisT_abs_le s b ..) (by decide) p

/-- Any set of the 64 products of an output of IDCT. -/
theorem idct_products_fit (m n : Fin 8) (p : Finset (Fin 8 × Fin 8)) :
    FitsAccumulator (∑ a ∈ p, basisT a.1 m * coef s b (rcIndex a.1 a.2) * basisT a.2 n) :=
  sum_fitsAccumulator (fun _ => basisT_mul_coef_mul_basisT_abs_le s b ..) (by decide) p

theorem fdctSum_fits (m n : Fin 8) : FitsAccumulator (fdctSum (coef s b) m n) := by
  rw [fdctSum_eq, ← Fintype.sum_prod_type']
  exact fdct_products_fit s b m n Finset.univ

theorem idctSum_fits (m n : Fin 8) : FitsAccumulator (idctSum (coef s b) m n) := by
  rw [idctSum_eq, ← Fintype.sum_prod_type']
  exact idct_products_fit s b m n Finset.univ

/-- Any set of terms of a first pass, whichever entries of the table and the block it takes. -/
theorem firstPass_fits (row col : Fin 8 → Fin 8) (i : Fin 8 → Fin 64) (k : Finset (Fin 8)) :
    FitsAccumulator (∑ a ∈ k, basisT (row a) (col a) * coef s b (i a)) :=
  sum_fitsAccumulator (fun _ => basisT_mul_coef_abs_le s b ..) (by decide) k

/-- The same with the factors exchanged. -/
theorem firstPass_fits_comm (row col : Fin 8 → Fin 8) (i : Fin 8 → Fin 64) (k : Finset (Fin 8)) :
    FitsAccumulator (∑ a ∈ k, coef s b (i a) * basisT (row a) (col a)) := by
  simp only [mul_comm (coef s b _)]
  exact firstPass_fits s b row col i k

end

/-- Settles O39: the two transforms, then their products, then the first passes by rows and by columns. -/
theorem transformSumsFitAccumulator : Obligations.TransformSumsFitAccumulator := by
  unfold Obligations.TransformSumsFitAccumulator
  intro s b m n p k
  exact ⟨fdctSum_fits s b m n, idctSum_fits s b m n, fdct_products_fit s b m n p, idct_products_fit s b m n p,
    firstPass_fits_comm s b (fun _ => n) id (rcIndex m) k, firstPass_fits s b (fun _ => m) id (rcIndex · n) k,
    firstPass_fits_comm s b id (fun _ => n) (rcIndex m) k, firstPass_fits s b id (fun _ => m) (rcIndex · n) k⟩

end Sys2Proof.Machine

/-! ## The predictor (43_predictor.md R176 to R186)

The four commands share the grid check; past it, ACDCPRED's effect is `acdcPredict` and the others write the vector
memory or the result registers. What each part of the effect holds is said in the model's names, and the statements
are read off from that. -/

namespace Sys2Proof.Machine

theorem withGrid_of_ok {s : State} (h : s.grid.ok = true) (r : Except FaultCode State) : withGrid s r = r := if_pos h

/-! ### Records, neighbours and candidates (R176 to R178, R183) -/

theorem rowPos_eq_ofNat (n : Fin 7) : rowPos n = Fin.ofNat 64 (n.val + 1) := by decide +revert

theorem colPos_eq_ofNat (n : Fin 7) : colPos n = Fin.ofNat 64 (8 * (n.val + 1)) := by decide +revert

theorem insideGrid_iff (g : Grid) (mx my : Int) :
    insideGrid g mx my = true ↔ 0 ≤ mx ∧ mx < g.mbw.toNat ∧ 0 ≤ my ∧ my < g.mbh.toNat :=
  decide_eq_true_iff

section
variable {s : State} {mx my : Int}

theorem histRec_of_saved (hin : insideGrid s.grid mx my = true) (hv : (histAt s (mbIndex s.grid mx my)).valid = true)
    (b : MbBlk) : histRec s mx my b =
      ⟨(histAt s (mbIndex s.grid mx my)).blocks[b], (histAt s (mbIndex s.grid mx my)).hq⟩ :=
  if_pos (Bool.and_eq_true_iff.2 ⟨hin, hv⟩)

theorem histRec_of_not_saved
    (h : ¬(insideGrid s.grid mx my = true ∧ (histAt s (mbIndex s.grid mx my)).valid = true)) (b : MbBlk) :
    histRec s mx my b = defaultRec s :=
  if_neg (mt Bool.and_eq_true_iff.1 h)

theorem candAt_of_inside (h : insideGrid s.grid mx my = true) (b : SubIx) :
    candAt s mx my b = ⟨mvAt s (mbIndex s.grid mx my) b, true⟩ :=
  if_pos h

theorem candAt_of_outside (h : ¬insideGrid s.grid mx my = true) (b : SubIx) : candAt s mx my b = ⟨mvZero, false⟩ :=
  if_neg h

end

/-- The current macroblock's index is that of its position (10 R29). -/
theorem curMb_eq_mbIndex (s : State) : curMb s = mbIndex s.grid s.grid.mbx.toNat s.grid.mby.toNat := by
  rw [mbIndex, curMb]; norm_cast

theorem eq_four_or_five_of_four_le : ∀ j : MbBlk, 4 ≤ j.val → j = 4 ∨ j = 5 := by decide

section
variable (s : State) (j : MbBlk)

theorem ownBlock_dc : (ownBlock s j).dc.toInt =
    min (max (coef s (mbBuf j) 0 * dcScaler s.cfg s.q.toNat (roleOf j)) (-2048)) 2047 := by
  obtain ⟨hlo, hhi⟩ := clampInt_mem (by decide : (-2048 : Int) ≤ 2047) (mbLevel s j 0 * mbScaler s j)
  exact toInt_ofInt16 (by omega) (by omega)

theorem ownBlock_row (n : Fin 7) : (ownBlock s j).row[n] = s.blk[mbBuf j][Fin.ofNat 64 (n.val + 1)] := by
  simp only [← rowPos_eq_ofNat]; exact Vector.getElem_ofFn n.isLt

theorem ownBlock_col (n : Fin 7) : (ownBlock s j).col[n] = s.blk[mbBuf j][Fin.ofNat 64 (8 * (n.val + 1))] := by
  simp only [← colPos_eq_ofNat]; exact Vector.getElem_ofFn n.isLt

/-- The two chroma blocks look at the same block of the three neighbouring macroblocks (R178). -/
theorem neigh_chroma (h : 4 ≤ j.val) : neigh s j =
    ⟨histRec s (s.grid.mbx.toNat - 1) s.grid.mby.toNat j, histRec s (s.grid.mbx.toNat - 1) (s.grid.mby.toNat - 1) j,
      histRec s s.grid.mbx.toNat (s.grid.mby.toNat - 1) j⟩ := by
  obtain rfl | rfl := eq_four_or_five_of_four_le j h
  · rfl
  · rfl

end

/-- Settles O40: each entry by its own lemma, and the rows of the two tables as the model writes them. -/
theorem neighbourTablesFollowTheSpec : Obligations.NeighbourTablesFollowTheSpec := by
  unfold Obligations.NeighbourTablesFollowTheSpec
  intro s x y w h
  refine ⟨fun mx my b hx hw hy hh hv => ?_, fun mx my b hnot => ?_, fun j => ?_, rfl, rfl, rfl, rfl, neigh_chroma s,
    fun mx my b hx hw hy hh => ?_, fun mx my b hout => ?_, fun b => ?_, rfl, rfl, rfl, rfl⟩
  · exact histRec_of_saved ((insideGrid_iff _ _ _).2 ⟨hx, hw, hy, hh⟩) hv b
  · refine histRec_of_not_saved (fun ⟨hin, hv⟩ => hnot ?_) b
    obtain ⟨hx, hw, hy, hh⟩ := (insideGrid_iff _ _ _).1 hin
    exact ⟨hx, hw, hy, hh, hv⟩
  · exact ⟨rfl, ownBlock_dc s j, fun n => ⟨ownBlock_row s j n, ownBlock_col s j n⟩⟩
  · exact candAt_of_inside ((insideGrid_iff _ _ _).2 ⟨hx, hw, hy, hh⟩) b
  · exact candAt_of_outside (mt (insideGrid_iff _ _ _).1 hout) b
  · rw [ownCand, curMb_eq_mbIndex]; rfl

/-! ### ACDCPRED's residuals (R176, R179) -/

section
variable (s : State) (j : MbBlk)

theorem predDir_eq_vert_iff : predDir s j = .vert ↔
    |(neigh s j).a.blk.dc.toInt - (neigh s j).b.blk.dc.toInt| <
      |(neigh s j).b.blk.dc.toInt - (neigh s j).c.blk.dc.toInt| := by
  simp only [predDir]
  split
  · rename_i h; exact iff_of_true rfl h
  · rename_i h; exact iff_of_false nofun h

/-- What is not vertical is horizontal. -/
theorem predDir_eq_ite : predDir s j = if predDir s j = .vert then .vert else .horz := by
  obtain h | h := predDir_cases s j
  · rw [h]; rfl
  · rw [h]; rfl

theorem acGain_eq_sum : acGain s =
    ∑ j : MbBlk, ∑ n : Fin 7, (|coef s (mbBuf j) (candPos s j n)| - |acResidual s j n|) := by
  simp only [acGain, sumFin_eq, mbLevel]

theorem acApplied_iff : acApplied s = true ↔ 0 ≤ acGain s := decide_eq_true_iff

/-- The DC is no candidate. -/
theorem candPos_ne_zero (n : Fin 7) : (candPos s j n).val ≠ 0 := by
  unfold candPos
  split
  · exact Nat.succ_ne_zero _
  · exact Nat.mul_ne_zero (by decide) (Nat.succ_ne_zero _)

theorem mbResidual_dc : mbResidual s j 0 = dcResidual s j := rfl

/-- A candidate takes its AC residual when prediction is on, and keeps its level when it is off. -/
theorem mbResidual_candPos (n : Fin 7) : mbResidual s j (candPos s j n) =
    if 0 ≤ acGain s then acResidual s j n else mbLevel s j (candPos s j n) := by
  simp only [mbResidual, if_neg (candPos_ne_zero s j n), candIndex_candPos, acApplied_iff]

/-- Any other AC level stays. -/
theorem mbResidual_of_not_candidate {i : Fin 64} (hi : i ≠ 0) (h : ∀ n, candPos s j n ≠ i) :
    mbResidual s j i = mbLevel s j i := by
  simp only [mbResidual, if_neg (Fin.val_ne_zero_iff.2 hi), candIndex_none h]

theorem residualSat_iff : residualSat s = true ↔ ∃ j i, 2047 < |mbResidual s j i| := by simp [residualSat]

/-! ### What ACDCPRED leaves -/

theorem exec_acdcpred {s : State} (h : s.grid.ok = true) (irq : Bool) (arg : Word) :
    exec (.acdcpred irq arg) s = .next (commit irq (acdcPredict s)) :=
  exec_of_ok (i := .acdcpred irq arg) (withGrid_of_ok h _)

/-- ACDCPRED writes the blocks, the history and the flags but QSUM. -/
theorem commit_acdcPredict_frame (irq : Bool) :
    let t := commit irq (acdcPredict s)
    t = { s with
      blk := t.blk
      hist := t.hist
      flags := { t.flags with qsum := s.flags.qsum }
      irqPend := donePend irq s } := by
  rw [commit_eq]; rfl

theorem residualBlks_mbBuf : (residualBlks s)[mbBuf j] = residualBlock s j := by
  simp only [residualBlks, Fin.getElem_fin, Vector.getElem_ofFn]
  exact dif_pos j.isLt

theorem residualBlks_of_ge {b : BlkIx} (h : 6 ≤ b.val) : (residualBlks s)[b] = s.blk[b] := by
  simp only [residualBlks, Fin.getElem_fin, Vector.getElem_ofFn]
  exact dif_neg (by omega)

theorem residualBlock_toInt (i : Fin 64) :
    ((residualBlock s j)[i]).toInt = min (max (mbResidual s j i) (-2047)) 2047 := by
  rw [← clampResidual_eq]
  have := clampResidual_eq (mbResidual s j i)
  exact narrowBlock_toInt (f := fun i => clampResidual (mbResidual s j i)) (by omega) (by omega)

theorem acdcFlags_pdir : (acdcFlags s).pdir[j] = predDir s j := Vector.getElem_ofFn j.isLt

theorem acdcFlags_acdir : (acdcFlags s).acdir[j] = if 0 ≤ acGain s then predDir s j else .none := by
  simp only [← acApplied_iff]; exact Vector.getElem_ofFn j.isLt

theorem acdcFlags_cbp : (acdcFlags s).cbp.getLsbD j.val = true ↔
    ∃ i : Fin 64, i ≠ 0 ∧ ((residualBlock s j)[i]).toInt ≠ 0 := by
  rw [show (acdcFlags s).cbp = cbpMask fun j => blockCoded 1 (residualBlock s j) from rfl, cbpMask_bit, blockCoded_iff]
  exact exists_congr fun i => and_congr (one_le_val_iff i) (coef_ne_zero _).symm

theorem coef_commit_acdcPredict (irq : Bool) (i : Fin 64) :
    coef (commit irq (acdcPredict s)) (mbBuf j) i = ((residualBlock s j)[i]).toInt := by
  rw [coef, commit_blk, acdcPredict_blk, residualBlks_mbBuf]

/-- ACDCPRED's history is that of one write. -/
theorem histAt_commit_acdcPredict (irq : Bool) (m : Nat) :
    histAt (commit irq (acdcPredict s)) m = histAt (s.writeHist (curMb s) (acdcEntry s)) m := by
  rw [histAt, commit_hist, acdcPredict_hist]; rfl

theorem acdcEntry_blocks : (acdcEntry s).blocks[j] = ownBlock s j := Vector.getElem_ofFn j.isLt

end

/-- Settles O41: the statement's functions are the model's, whose values the lemmas above give. -/
theorem acdcpredPredictsMacroblock : Obligations.AcdcpredPredictsMacroblock := by
  unfold Obligations.AcdcpredPredictsMacroblock
  intro irq arg s hok q l dcs vert p pos pv ra gain
  have hvert : ∀ j, vert j = true ↔ predDir s j = .vert := fun j =>
    decide_eq_true_iff.trans (predDir_eq_vert_iff s j).symm
  have hp : ∀ j, p j = predRec s j := fun j => if_congr (hvert j) rfl rfl
  have hpos : ∀ j n, pos j n = candPos s j n := fun j n =>
    if_congr (hvert j) (rowPos_eq_ofNat n).symm (colPos_eq_ofNat n).symm
  have hra : ∀ j n, ra j n = acResidual s j n := fun j n => by
    have hpv : pv j n = if predDir s j = .vert then ((predRec s j).blk.row[n]).toInt
        else ((predRec s j).blk.col[n]).toInt := by rw [← hp]; exact if_congr (hvert j) rfl rfl
    show l j (pos j n) - divRound (pv j n * (p j).q.toNat) q = _
    rw [hpos, hpv, hp]; rfl
  have hgain : gain = acGain s := by
    rw [acGain_eq_sum]
    exact Finset.sum_congr rfl fun j _ => Finset.sum_congr rfl fun n _ => by rw [hra, hpos]
  simp only [hvert, hp, hpos, hra, hgain]
  refine ⟨_, mbResidual s, exec_acdcpred hok irq arg, commit_acdcPredict_frame s irq, fun b hb => ?_,
    mbResidual_dc s, mbResidual_candPos s, fun j i => mbResidual_of_not_candidate s j, fun j i => ?_, ?_, ?_,
    fun j => ?_, fun j => ?_, fun j => ?_⟩
  · rw [commit_blk, acdcPredict_blk, residualBlks_of_ge s hb]
  · rw [coef_commit_acdcPredict, residualBlock_toInt]
  · rw [commit_flags, acdcPredict_flags, acdcFlags_sat, Bool.or_eq_true_iff, residualSat_iff]
  · rw [commit_flags, acdcPredict_flags]; exact acApplied_iff s
  · rw [commit_flags, acdcPredict_flags, acdcFlags_pdir]; exact predDir_eq_ite s j
  · rw [commit_flags, acdcPredict_flags, acdcFlags_acdir, acdcFlags_pdir]
  · simp only [commit_flags, acdcPredict_flags, coef_commit_acdcPredict, acdcFlags_cbp]

/-- Settles O42: the entry written is the macroblock's own, and a write leaves the other entries. -/
theorem acdcpredSavesUnpredictedHistory : Obligations.AcdcpredSavesUnpredictedHistory := by
  unfold Obligations.AcdcpredSavesUnpredictedHistory
  intro irq arg s hok hh
  refine ⟨_, exec_acdcpred hok irq arg, ?_⟩
  simp only [histAt_commit_acdcPredict, histAt_writeHist_same hh, acdcEntry_blocks]
  exact ⟨rfl, rfl, fun j => ⟨ownBlock_dc s j, fun n => ⟨ownBlock_row s j n, ownBlock_col s j n⟩⟩,
    fun m hm => histAt_writeHist_ne s hm _⟩

/-- Settles O43: ACDIR follows the one gain of the macroblock, and a fault leaves the flags. -/
theorem acPredictionIsMacroblockWide : Obligations.AcPredictionIsMacroblockWide := by
  unfold Obligations.AcPredictionIsMacroblockWide
  constructor
  · intro irq arg s hok
    refine ⟨_, exec_acdcpred hok irq arg, ?_⟩
    simp only [commit_flags, acdcPredict_flags, acdcFlags_pdir, acdcFlags_acdir]
    refine ⟨?_, predDir_cases s⟩
    by_cases hgain : 0 ≤ acGain s
    · exact .inl ⟨(acApplied_iff s).2 hgain, fun j => if_pos hgain⟩
    · exact .inr ⟨Bool.eq_false_iff.2 (mt (acApplied_iff s).1 hgain), fun j => if_neg hgain⟩
  · intro i s t hp h
    obtain ⟨s', he, rfl⟩ | ⟨c, -, rfl⟩ := exec_cases h
    · rw [commit_flags]; exact effect_predOk he hp
    · exact hp

/-! ### The vector memory (R180, R181) -/

/-- A command whose effect is a new vector memory, run: a frame as the statements write it. -/
theorem exec_of_setMvmem {i : Instr} {s : State} {l : List (Nat × MV)} (h : effect i s = .ok (s.setMvmem l)) :
    exec i s = .next { s with mvmem := l, irqPend := donePend i.irq s } := by
  rw [exec_of_ok h, commit_eq]; rfl

/-- One vector written for each sub-block of a list: those are read back, the others are as before. -/
theorem mvmem_read_writeAll {l : List (Nat × MV)} (h : Sparse.wf mvZero l) (m : Nat) (v : MV) (ks : List SubIx)
    (m' : Nat) (k' : SubIx) :
    Sparse.read mvZero (ks.foldl (fun l k => Sparse.write mvZero l (4 * m + k.val) v) l) (4 * m' + k'.val) =
      if m' = m ∧ k' ∈ ks then v else Sparse.read mvZero l (4 * m' + k'.val) := by
  induction ks generalizing l with
  | nil => simp
  | cons k ks ih =>
    rw [List.foldl_cons, ih (Sparse.write_wf h _ _)]
    by_cases hk : m' = m ∧ k' = k
    · obtain ⟨rfl, rfl⟩ := hk
      simp [Sparse.read_write_same h]
    · rw [Sparse.read_write_ne fun hkey => hk ⟨by omega, Fin.ext (by omega)⟩]
      simp [List.mem_cons, or_and_left, and_or_left, hk]

/-- MVSET4's reads: the vector in all four sub-blocks of the current macroblock (R181). -/
theorem mvAt_setAllMv {s : State} (h : VectorsOk s) (v : MV) (m : Nat) (k : SubIx) :
    mvAt (setAllMv s v) m k = if m = curMb s then v else mvAt s m k := by
  obtain ⟨hwf, -⟩ := h
  refine (mvmem_read_writeAll hwf (curMb s) v (List.finRange 4) m k).trans ?_
  simp only [List.mem_finRange, and_true]; rfl

/-- Settles O44: one write for MVSET, and one for each sub-block for MVSET4. -/
theorem mvsetStoresVectors : Obligations.MvsetStoresVectors := by
  unfold Obligations.MvsetStoresVectors
  intro irq k x y s hok hv
  constructor
  · exact ⟨_, exec_of_setMvmem (i := .mvset irq k x y) (withGrid_of_ok hok _), rfl, mvAt_writeMv_same hv _ _ _,
      fun m n hne => mvAt_writeMv_ne s hne _⟩
  · exact ⟨_, exec_of_setMvmem (i := .mvset4 irq x y) (withGrid_of_ok hok _), rfl,
      fun n => (mvAt_setAllMv hv _ _ n).trans (if_pos rfl),
      fun m n hne => (mvAt_setAllMv hv _ m n).trans (if_neg hne)⟩

/-! ### MVPRED (R182, R184, R185) -/

/-- MVPRED, run: a frame as the statements write it. -/
theorem exec_mvpred {s : State} (h : s.grid.ok = true) (irq : Bool) (k : SubIx) (arg : Word) :
    exec (.mvpred irq k arg) s = .next { s with mvout := mvPredict s k, irqPend := donePend irq s } := by
  rw [exec_of_ok (i := .mvpred irq k arg) (withGrid_of_ok h _), commit_eq]; rfl

/-- A difference of two s16 values fits an s32 register. -/
theorem toInt_ofInt32_sub (a b : Coef) : (BitVec.ofInt 32 (a.toInt - b.toInt)).toInt = a.toInt - b.toInt := by
  have := BitVec.le_toInt a
  have := BitVec.toInt_lt (x := a)
  have := BitVec.le_toInt b
  have := BitVec.toInt_lt (x := b)
  exact toInt_ofInt32 (by omega) (by omega)

section
variable (c : Cands)

theorem medianMv_x : (medianMv c).x.toInt = median3 c.c1.v.x.toInt c.c2.v.x.toInt c.c3.v.x.toInt := by
  obtain ⟨hlo, hhi⟩ := median3_range c.c1.v.x c.c2.v.x c.c3.v.x
  exact toInt_ofInt16 hlo hhi

theorem medianMv_y : (medianMv c).y.toInt = median3 c.c1.v.y.toInt c.c2.v.y.toInt c.c3.v.y.toInt := by
  obtain ⟨hlo, hhi⟩ := median3_range c.c1.v.y c.c2.v.y c.c3.v.y
  exact toInt_ofInt16 hlo hhi

/-- How many of the three candidates are inside the grid. -/
def insideCount : Nat := c.c1.inside.toNat + c.c2.inside.toNat + c.c3.inside.toNat

theorem others_outside {a b c : Bool} (h : a.toNat + b.toNat + c.toNat = 1) (ha : a = true) :
    b = false ∧ c = false := by
  decide +revert

/-- When one candidate is inside, it is the lone one. -/
theorem loneCand_of_one (h : insideCount c = 1) {d : Cand} (hd : d = c.c1 ∨ d = c.c2 ∨ d = c.c3)
    (hin : d.inside = true) : loneCand c = some d.v := by
  unfold insideCount at h
  obtain rfl | rfl | rfl := hd
  · obtain ⟨h2, h3⟩ := others_outside h hin
    rw [loneCand, hin, h2, h3]
  · obtain ⟨h1, h3⟩ := others_outside (b := c.c1.inside) (c := c.c3.inside) (by omega) hin
    rw [loneCand, hin, h1, h3]
  · obtain ⟨h1, h2⟩ := others_outside (b := c.c1.inside) (c := c.c2.inside) (by omega) hin
    rw [loneCand, hin, h1, h2]

theorem loneCand_of_not_one (h : insideCount c ≠ 1) : loneCand c = none := by
  unfold insideCount at h
  unfold loneCand
  split
  · rename_i h1 h2 h3; simp [h1, h2, h3] at h
  · rename_i h1 h2 h3; simp [h1, h2, h3] at h
  · rename_i h1 h2 h3; simp [h1, h2, h3] at h
  · rfl

end

/-- The prediction is the median unless MVP_SINGLE is true and one candidate is inside (R184). -/
theorem predictMv_eq_median {single : Bool} {c : Cands} (h : ¬(single = true ∧ insideCount c = 1)) :
    predictMv single c = medianMv c := by
  cases single with
  | false => rfl
  | true =>
    rw [predictMv, if_pos rfl, loneCand_of_not_one c fun hone => h ⟨rfl, hone⟩]; rfl

/-- Settles O45: the lone candidate or the median, and differences that fit their registers. -/
theorem mvpredTakesMedian : Obligations.MvpredTakesMedian := by
  unfold Obligations.MvpredTakesMedian
  intro irq k arg s hok c single
  refine ⟨_, exec_mvpred hok irq k arg, rfl, ?_, fun hnot => ?_, toInt_ofInt32_sub _ _, toInt_ofInt32_sub _ _⟩
  · rintro ⟨hs, hone⟩ d hd hin
    show predictMv s.cfg.mvpSingle c = d.v
    rw [hs, predictMv, if_pos rfl, loneCand_of_one c hone hd hin]; rfl
  · have hmvp : (mvPredict s k).mvp = medianMv c := predictMv_eq_median hnot
    rw [hmvp]; exact ⟨medianMv_x c, medianMv_y c⟩

/-- Settles O46: the middle of three integers, and the median case of the prediction. -/
theorem medianIsMiddleValue : Obligations.MedianIsMiddleValue := by
  unfold Obligations.MedianIsMiddleValue
  constructor
  · intro a b c
    simp only [median3]; omega
  · intro irq k arg s hok hs
    have hmvp : (mvPredict s k).mvp = medianMv (mvCand s k) :=
      predictMv_eq_median fun ⟨hsingle, _⟩ => absurd (hs.symm.trans hsingle) nofun
    refine ⟨_, exec_mvpred hok irq k arg, ?_⟩
    rw [hmvp]; exact ⟨medianMv_x _, medianMv_y _⟩

end Sys2Proof.Machine

/-! ## Control (44_control.md R200 to R203)

How a step of the engine comes to run the command at the head of the queue, and how every command ends; then the
three control commands, each read off from its effect. -/

namespace Sys2Proof.Machine

/-! ### The engine's step (R203) -/

theorem hostReady_eq_false_iff (s : State) : hostReady s = false ↔ s.host.agenda = [] := by
  rw [hostReady, Bool.not_eq_false', List.isEmpty_iff]

theorem engineReady_of_cons {s : State} {c : Cmd} {rest : List Cmd} (hrun : s.flt.halted = false)
    (hcq : s.cq = c :: rest) : engineReady s = true := by
  rw [← Bool.not_eq_false, engineReady_eq_false_iff]
  simp [hcq, hrun]

theorem engineStep_cons {s : State} {c : Cmd} {rest : List Cmd} (h : s.cq = c :: rest) :
    engineStep s = runCmd c (s.setCq rest) := by
  rw [engineStep, h]

/-- With nothing on the host's agenda, an engine that can go goes. -/
theorem step_eq_engineStep {s : State} (he : engineReady s = true) (hh : hostReady s = false) :
    step s = engineStep s := by
  rw [step, stepOnce, he, hh]

/-- Where both agents can go and the schedule names the engine, the step is the engine's (20 R71). -/
theorem step_eq_engineStep_popSched {s : State} (he : engineReady s = true) (hh : hostReady s = true)
    (hs : schedHead s = .engine) : step s = engineStep s.popSched := by
  rw [step, stepOnce, he, hh]
  dsimp only
  rw [hs]

/-- The state in which a step of the engine runs the head of the queue: the queue is what stood behind it, and one
choice of the schedule is used up when the host has actions left (log 7). -/
def headRemoved (s : State) (rest : List Cmd) : State :=
  { s with
    cq := rest
    host := if s.host.agenda = [] then s.host else { s.host with sched := s.host.sched.tail } }

/-- When the engine is the agent that goes, the step runs the head of the queue. -/
theorem step_eq_runCmd {s : State} {c : Cmd} {rest : List Cmd} (hrun : s.flt.halted = false)
    (hcq : s.cq = c :: rest) (hgo : s.host.agenda = [] ∨ s.host.sched.headD .engine = .engine) :
    step s = runCmd c (headRemoved s rest) := by
  have he : engineReady s = true := engineReady_of_cons hrun hcq
  by_cases ha : s.host.agenda = []
  · rw [step_eq_engineStep he ((hostReady_eq_false_iff s).2 ha), engineStep_cons hcq, headRemoved, if_pos ha]; rfl
  · have hh : hostReady s = true := by rw [← Bool.not_eq_false, hostReady_eq_false_iff]; exact ha
    rw [step_eq_engineStep_popSched he hh (hgo.resolve_left ha), engineStep_cons (s := s.popSched) hcq, headRemoved,
      if_neg ha]
    rfl

/-- Settles O7: the step runs the head of the queue, which is the command it decodes to or its decode fault. -/
theorem stepRunsDecodedCommand : Obligations.StepRunsDecodedCommand := by
  unfold Obligations.StepRunsDecodedCommand
  intro s c rest hrun hcq hgo s1
  have hstep : step s = runCmd c s1 := step_eq_runCmd hrun hcq hgo
  refine ⟨fun i hdec => ?_, fun code hdec => ?_⟩
  · rw [hstep, runCmd, hdec]
  · rw [hstep, runCmd, hdec]; rfl

/-- Settles O11: a command commits its effect or takes the fault its rule gives, a next state either way. -/
theorem everyCommandEndsInNextState : Obligations.EveryCommandEndsInNextState := by
  unfold Obligations.EveryCommandEndsInNextState
  intro i s
  cases he : effect i s with
  | ok s' => exact ⟨_, exec_of_ok he⟩
  | error c => exact ⟨_, exec_of_error he⟩

/-! ### The three commands (R200 to R202) -/

/-- Settles O16: the effect is the state itself. -/
theorem nopHasNoEffect : Obligations.NopHasNoEffect := by
  unfold Obligations.NopHasNoEffect
  intro irq arg s
  rw [exec_of_ok (i := .nop irq arg) rfl, commit_eq]; rfl

/-- FRAMEBEGIN's vectors: the memory lists none, so each reads as (0, 0) (R201). -/
theorem mvAt_frameBegin (s : State) (m : Nat) (k : SubIx) : mvAt (frameBegin s) m k = ⟨0, 0⟩ :=
  Sparse.read_unlisted nofun

/-- Settles O17: the effect marks every entry not valid and empties the vector memory; DONE is all the end adds. -/
theorem framebeginClearsFrameState : Obligations.FramebeginClearsFrameState := by
  unfold Obligations.FramebeginClearsFrameState
  intro irq arg s hh
  refine ⟨{ frameBegin s with irqPend := donePend irq s }, ?_, rfl, histAt_frameBegin hh, mvAt_frameBegin s⟩
  rw [exec_of_ok (i := .framebegin irq arg) rfl, commit_eq]; rfl

theorem withGrid_of_not_ok {s : State} (h : s.grid.ok = false) (r : Except FaultCode State) :
    withGrid s r = .error .noGrid :=
  if_neg (Bool.eq_false_iff.1 h)

section
variable {s : State} {x y : BitVec 16} (hok : s.grid.ok = true) (irq : Bool)
include hok

/-- A position outside the grid fails the range check (R202). -/
theorem effect_mbbegin_of_outside (h : s.grid.mbw.toNat ≤ x.toNat ∨ s.grid.mbh.toNat ≤ y.toNat) :
    effect (.mbbegin irq x y) s = .error .badOperand :=
  (withGrid_of_ok hok _).trans (if_pos h)

theorem effect_mbbegin_of_inside (hx : x.toNat < s.grid.mbw.toNat) (hy : y.toNat < s.grid.mbh.toNat) :
    effect (.mbbegin irq x y) s = .ok (mbBegin x y s) :=
  (withGrid_of_ok hok _).trans (if_neg (by omega))

end

/-- Settles O18: the grid check, the range check behind it, and the effect behind both. -/
theorem mbbeginChecksThenSetsPosition : Obligations.MbbeginChecksThenSetsPosition := by
  unfold Obligations.MbbeginChecksThenSetsPosition
  intro irq x y s
  refine ⟨fun hno => ?_, fun hok hout => ?_, fun hok hx hy => ?_⟩
  · exact exec_of_error (i := .mbbegin irq x y) (withGrid_of_not_ok hno _)
  · exact exec_of_error (effect_mbbegin_of_outside hok irq hout)
  · rw [exec_of_ok (effect_mbbegin_of_inside hok irq hx hy), commit_eq]; rfl

end Sys2Proof.Machine

/-! ## Faults and completion (60_exceptions.md R211, R212, R220)

A command either completes, and then keeps the fault record, or faults, and then halts the engine; so in a step
from a state that is not halted, HALTED afterwards tells which of the two it was. -/

namespace Sys2Proof.Machine

variable {i : Instr} {s s' t : State}

/-- HALTED and the rest of the fault record pass through a command that completes. -/
theorem commit_flt_of_effect (he : effect i s = .ok s') : (commit i.irq s').flt = s.flt := by
  obtain ⟨-, -, -, -, -, hflt, -⟩ := effect_frame he
  rw [commit_flt, hflt]

/-- A command that completes adds at most DONE to the pending bits it found (R220). -/
theorem commit_irqPend_of_effect (he : effect i s = .ok s') : (commit i.irq s').irqPend = donePend i.irq s := by
  obtain ⟨-, -, -, -, hpend, -⟩ := effect_frame he
  rw [commit_eq, donePend, hpend, donePend]

/-- A command leaves the engine halted only by a fault. -/
theorem eq_faulted_of_exec_halted (hrun : s.flt.halted = false) (h : exec i s = .next t)
    (ht : t.flt.halted = true) : ∃ code, t = faulted code i s := by
  obtain ⟨s', he, rfl⟩ | ⟨code, -, rfl⟩ := exec_cases h
  · rw [commit_flt_of_effect he, hrun] at ht
    cases ht
  · exact ⟨code, takeFault_eq code i s⟩

/-- So does a command still in its two words, and the fault records those words: a command that decodes holds
nothing but them. -/
theorem eq_takeFault_of_runCmd_halted {c : Cmd} (hrun : s.flt.halted = false) (h : runCmd c s = .next t)
    (ht : t.flt.halted = true) : ∃ code, t = takeFault code c.cmd c.arg s := by
  rw [runCmd] at h
  cases hdec : decode c.cmd c.arg with
  | error code =>
    rw [hdec] at h
    exact ⟨code, (Host.Outcome.next.inj h).symm⟩
  | ok i =>
    rw [hdec] at h
    obtain ⟨hcmd, harg⟩ := encodeOfDecodeIsIdentity _ _ _ hdec
    obtain ⟨code, rfl⟩ := eq_faulted_of_exec_halted hrun h ht
    exact ⟨code, by rw [← takeFault_eq, hcmd, harg]⟩

/-- The five commands that need a grid check it before anything else (R212). -/
theorem effect_of_no_grid (hno : s.grid.ok = false)
    (hm : i.mnemonic = .mbbegin ∨ i.mnemonic = .acdcpred ∨ i.mnemonic = .mvset ∨ i.mnemonic = .mvset4 ∨
      i.mnemonic = .mvpred) : effect i s = .error .noGrid := by
  cases i with
  | mbbegin | acdcpred | mvset | mvset4 | mvpred => exact withGrid_of_not_ok hno _
  | _ => simp [Instr.mnemonic] at hm

/-- Settles O9: the engine's step runs the head of the queue, and a command that leaves it halted took a fault in
the state it ran in. -/
theorem faultsArePrecise : Obligations.FaultsArePrecise := by
  unfold Obligations.FaultsArePrecise
  intro s t c rest hrun hcq hgo hstep ht
  rw [step_eq_runCmd hrun hcq hgo] at hstep
  exact eq_takeFault_of_runCmd_halted (s := headRemoved s rest) hrun hstep ht

/-- Settles O10: a fault would leave the engine halted, so the command committed its effect. -/
theorem completionSetsDoneExactlyWhenAsked : Obligations.CompletionSetsDoneExactlyWhenAsked := by
  unfold Obligations.CompletionSetsDoneExactlyWhenAsked
  intro i s t _ h ht
  obtain ⟨s', he, rfl⟩ | ⟨code, -, rfl⟩ := exec_cases h
  · exact ⟨commit_flt_of_effect he, commit_irqPend_of_effect he⟩
  · cases ht

/-- Settles O19: the grid check comes first in all five. -/
theorem noGridFaults : Obligations.NoGridFaults := by
  unfold Obligations.NoGridFaults
  exact fun i s hno hm => exec_of_error (effect_of_no_grid hno hm)

end Sys2Proof.Machine
